-- ==== Sys2Proof/Word.lean ====
section
/-! DEFINITION. The word types of CORE and the two value types its registers hold (00_scope.md R5).
Arithmetic on them is in `Machine/Operands.lean` and the family files, where it can be mended. -/

namespace Sys2Proof

/-- `u8` of R5. -/
abbrev Byte := BitVec 8
/-- `u32` of R5: a command word, `STATUS`, `ERRINFO`. -/
abbrev Word32 := BitVec 32
/-- `u64` of R5: the storage of one limb (`LIMBW` of R4). -/
abbrev Limb := BitVec 64
/-- `u128` of R5: a multiply accumulator (`ACCW` of R4). -/
abbrev Acc := BitVec 128

/-- A field element value, type `FE` of R5: five limbs, `l0` least significant, limb `j` of weight `2^(51*j)`. -/
structure FE where
  l0 : Limb
  l1 : Limb
  l2 : Limb
  l3 : Limb
  l4 : Limb
deriving DecidableEq, Repr

/-- Five double-width working values `t[0..4]` (10_state.md R30 (b); used by R108, R109, R132). -/
structure Acc5 where
  t0 : Acc
  t1 : Acc
  t2 : Acc
  t3 : Acc
  t4 : Acc
deriving DecidableEq, Repr

/-- `Bytes32` of R5: byte `j` has weight `2^(8*j)`. -/
abbrev Bytes32 := Vector Byte 32

/-- The index of a field register, `NFREG` = 16 (10_state.md R20). -/
abbrev FReg := Fin 16
/-- The index of a byte buffer, `NBUF` = 4 (10_state.md R23). -/
abbrev BReg := Fin 4

end Sys2Proof
end

