-- ==== Sys2Proof/Config.lean ====
section
/-! DEFINITION. What one configuration of CORE fixes, and its two open parameters (00_scope.md R4).
The constants the arithmetic computes with (mask, curve constant, base point) stand in `Machine/Operands.lean`. -/

namespace Sys2Proof.Config

/-- The field prime of R4. -/
def p : Nat := 2 ^ 255 - 19

/-- `WINDOW` of R4: the size in bytes of the host register window. -/
def windowSize : Nat := 0x800

/-- `BASE` of R4, OPEN (U1): where the platform puts the window. The model speaks of offsets from it only (log 7). -/
opaque base : Nat

/-- `LAT(op)` of R4, OPEN (U2, 70_reset_and_hazards.md R237, R238): a function of the opcode alone. No rule and no
definition of the model depends on it (log 8). -/
opaque lat : BitVec 8 → Nat

end Sys2Proof.Config
end

