-- ==== Sys2Proof/Syntax.lean ====
section
/-! DEFINITION. The commands of CORE: one constructor per row of spec/opcode_table.json (30_encoding.md R82).
Operands stand in field order `a`, `b`, `c`, `d`, `e` (R80, R88). -/

namespace Sys2Proof

/-- A command with its operands (30_encoding.md R82, R83). A field register index is any of 16, a buffer index any of 4,
the CSWAP flag one bit, so the only ill-formed commands are those of R85 (`WellFormed.lean`). -/
inductive Instr where
  /-- FADD Fa, Fb (40_field_arithmetic.md R102). -/
  | fadd (a b : FReg)
  /-- FDIFF Fa, Fb (R104). -/
  | fdiff (a b : FReg)
  /-- FSMA Fa, Fb, Fc; the scalar is `K` (R107). -/
  | fsma (a b c : FReg)
  /-- FMUL Fa, Fb, Fc (R110). -/
  | fmul (a b c : FReg)
  /-- FSQR Fa, Fb (R113). -/
  | fsqr (a b : FReg)
  /-- FCOPY Fa, Fb (R115). -/
  | fcopy (a b : FReg)
  /-- DECODE Fa, Bb (41_codec.md R131). -/
  | decode (a : FReg) (b : BReg)
  /-- ENCODE Ba, Fb (R133). -/
  | encode (a : BReg) (b : FReg)
  /-- CSWAP Fa, Fb, flag (42_cswap.md R141). -/
  | cswap (a b : FReg) (flag : BitVec 1)
  /-- LSTEP Fa, Fb, Fc, Fd, Fe (43_ladder.md R151). -/
  | lstep (a b c d e : FReg)
  /-- LADDER Fa, Fb, Bc, Fd (R153). -/
  | ladder (a b : FReg) (c : BReg) (d : FReg)
  /-- INVERT Fa, Fb (44_inverse.md R171). -/
  | invert (a b : FReg)
  /-- CLAMP Ba, Bb (45_toplevel.md R181). -/
  | clamp (a b : BReg)
  /-- SMULT Ba, Bb, Bc (R183). -/
  | smult (a b c : BReg)
  /-- DPUB Ba, Bb (R185). -/
  | dpub (a b : BReg)
  /-- DSHARED Ba, Bb, Bc (R186). -/
  | dshared (a b c : BReg)
deriving DecidableEq, Repr

/-- The sixteen operations without their operands (the `op` column of R82). -/
inductive Opcode where
  | fadd | fdiff | fsma | fmul | fsqr | fcopy | decode | encode
  | cswap | lstep | ladder | invert | clamp | smult | dpub | dshared
deriving DecidableEq, Repr

/-- The operand formats of 30_encoding.md R81. -/
inductive Format where
  | ff | fff | fb | bf | ffi | f5 | ffbf | bb | bbb
deriving DecidableEq, Repr

/-- What the decoding procedure of 30_encoding.md R86 answers for a word: a command, or one of the two rejections by name. -/
inductive Decoded where
  | command (i : Instr)
  | illegalOpcode
  | illegalOperand
deriving DecidableEq, Repr

end Sys2Proof
end

