-- ==== Sys2Proof/WellFormed.lean ====
section
/-! DEFINITION. The operand constraints beyond the mask (30_encoding.md R85): no two destinations of a command coincide. -/

namespace Sys2Proof

/-- R85: the four in-place registers of LSTEP are pairwise distinct (`e` is free); the two destinations of LADDER
differ (`d` is free). No other command has a constraint. -/
def Instr.wf : Instr → Bool
  | .lstep a b c d _ => a ≠ b && a ≠ c && a ≠ d && b ≠ c && b ≠ d && c ≠ d
  | .ladder a b _ _ => a ≠ b
  | .fadd _ _ | .fdiff _ _ | .fsma _ _ _ | .fmul _ _ _ | .fsqr _ _ | .fcopy _ _ | .decode _ _ | .encode _ _
  | .cswap _ _ _ | .invert _ _ | .clamp _ _ | .smult _ _ _ | .dpub _ _ | .dshared _ _ _ => true

end Sys2Proof
end

