-- ==== Sys2Proof/Decode.lean ====
section
/-! DEFINITION. From a command word to a command and back (30_encoding.md R80 to R86), total on every 32-bit word.

A command word is the data of one 32-bit host write and is a number, not a byte string (20_memory.md R53), so the decoder
reads a `Word32`; there is no instruction fetch and no byte order of one (10_state.md R28). -/

namespace Sys2Proof

/-! ## The opcode table (R81, R82) -/

/-- Column `op` of R82. -/
def Opcode.byte : Opcode → BitVec 8
  | .fadd => 0x01#8
  | .fdiff => 0x02#8
  | .fsma => 0x03#8
  | .fmul => 0x04#8
  | .fsqr => 0x05#8
  | .fcopy => 0x06#8
  | .decode => 0x10#8
  | .encode => 0x11#8
  | .cswap => 0x20#8
  | .lstep => 0x30#8
  | .ladder => 0x31#8
  | .invert => 0x40#8
  | .clamp => 0x50#8
  | .smult => 0x51#8
  | .dpub => 0x52#8
  | .dshared => 0x53#8

/-- Column `format` of R82. -/
def Opcode.format : Opcode → Format
  | .fadd | .fdiff | .fsqr | .fcopy | .invert => .ff
  | .fsma | .fmul => .fff
  | .decode => .fb
  | .encode => .bf
  | .cswap => .ffi
  | .lstep => .f5
  | .ladder => .ffbf
  | .clamp | .dpub => .bb
  | .smult | .dshared => .bbb

/-- Column `mask` of R81: a 1 at every bit the format fixes. -/
def Format.mask : Format → Word32
  | .ff => 0xFF00FFFF#32
  | .fff => 0xFF000FFF#32
  | .fb => 0xFF0CFFFF#32
  | .bf => 0xFFC0FFFF#32
  | .ffi => 0xFF00EFFF#32
  | .f5 => 0xFF00000F#32
  | .ffbf => 0xFF00C0FF#32
  | .bb => 0xFFCCFFFF#32
  | .bbb => 0xFFCCCFFF#32

/-- Column `match` of R82: the opcode in bits 31:24, every must-be-zero bit 0. -/
def Opcode.fixedBits (o : Opcode) : Word32 := o.byte ++ 0#24

/-- The complete command set (R82), in the table's order. -/
def Opcode.all : List Opcode :=
  [.fadd, .fdiff, .fsma, .fmul, .fsqr, .fcopy, .decode, .encode,
   .cswap, .lstep, .ladder, .invert, .clamp, .smult, .dpub, .dshared]

/-- The row of an opcode byte; none for every byte R82 does not list, 0x00 among them (R86 step 1). -/
def Opcode.ofByte (b : BitVec 8) : Option Opcode := Opcode.all.find? fun o => o.byte == b

/-- A word belongs to a row when `w & mask == match` (R81). -/
def Opcode.owns (o : Opcode) (w : Word32) : Bool := (w &&& o.format.mask) == o.fixedBits

/-! ## The fields of a word (R80, R83) -/

/-- Field `op`, bits 31:24. -/
def opField (w : Word32) : BitVec 8 := w.extractLsb' 24 8

/-- The `F` field whose lowest bit is `lo` (R83). -/
def regField (lo : Nat) (w : Word32) : FReg := (w.extractLsb' lo 4).toFin

/-- The `B` field whose lowest bit is `lo`: its upper two bits are the mask's business (R81, R83). -/
def bufField (lo : Nat) (w : Word32) : BReg := (w.extractLsb' lo 2).toFin

/-- The CSWAP flag, bit 12 (R83). -/
def flagField (w : Word32) : BitVec 1 := w.extractLsb' 12 1

/-- Operand assembly: the command of a word of the given row (R82, R83). -/
def Opcode.assemble (w : Word32) : Opcode → Instr
  | .fadd => .fadd (regField 20 w) (regField 16 w)
  | .fdiff => .fdiff (regField 20 w) (regField 16 w)
  | .fsma => .fsma (regField 20 w) (regField 16 w) (regField 12 w)
  | .fmul => .fmul (regField 20 w) (regField 16 w) (regField 12 w)
  | .fsqr => .fsqr (regField 20 w) (regField 16 w)
  | .fcopy => .fcopy (regField 20 w) (regField 16 w)
  | .decode => .decode (regField 20 w) (bufField 16 w)
  | .encode => .encode (bufField 20 w) (regField 16 w)
  | .cswap => .cswap (regField 20 w) (regField 16 w) (flagField w)
  | .lstep => .lstep (regField 20 w) (regField 16 w) (regField 12 w) (regField 8 w) (regField 4 w)
  | .ladder => .ladder (regField 20 w) (regField 16 w) (bufField 12 w) (regField 8 w)
  | .invert => .invert (regField 20 w) (regField 16 w)
  | .clamp => .clamp (bufField 20 w) (bufField 16 w)
  | .smult => .smult (bufField 20 w) (bufField 16 w) (bufField 12 w)
  | .dpub => .dpub (bufField 20 w) (bufField 16 w)
  | .dshared => .dshared (bufField 20 w) (bufField 16 w) (bufField 12 w)

/-! ## Decoding (R86) -/

/-- The decoder proper: R86 step 1 (the opcode) and the mask half of step 2. -/
def decode (w : Word32) : Decoded :=
  match Opcode.ofByte (opField w) with
  | none => .illegalOpcode
  | some o => if o.owns w then .command (o.assemble w) else .illegalOperand

/-- The whole procedure of R86: `decode`, and a word that violates a constraint of R85 is an `IllegalOperand`. -/
def classify (w : Word32) : Decoded :=
  match decode w with
  | .command i => if i.wf then .command i else .illegalOperand
  | .illegalOpcode => .illegalOpcode
  | .illegalOperand => .illegalOperand

/-! ## Encoding (R80, R82) -/

/-- `word = op * 2^24 + a * 2^20 + b * 2^16 + c * 2^12 + d * 2^8 + e * 2^4 + z` with `z = 0` (R80). -/
def wordOf (o : Opcode) (a b c d e : Nat) : Word32 :=
  BitVec.ofNat 32 (o.byte.toNat * 2 ^ 24 + a * 2 ^ 20 + b * 2 ^ 16 + c * 2 ^ 12 + d * 2 ^ 8 + e * 2 ^ 4)

/-- The row of a command. -/
def Instr.opcode : Instr → Opcode
  | .fadd _ _ => .fadd
  | .fdiff _ _ => .fdiff
  | .fsma _ _ _ => .fsma
  | .fmul _ _ _ => .fmul
  | .fsqr _ _ => .fsqr
  | .fcopy _ _ => .fcopy
  | .decode _ _ => .decode
  | .encode _ _ => .encode
  | .cswap _ _ _ => .cswap
  | .lstep _ _ _ _ _ => .lstep
  | .ladder _ _ _ _ => .ladder
  | .invert _ _ => .invert
  | .clamp _ _ => .clamp
  | .smult _ _ _ => .smult
  | .dpub _ _ => .dpub
  | .dshared _ _ _ => .dshared

/-- The word of a command (the encoding line of each command rule R102 to R186). -/
def encode : Instr → Word32
  | .fadd a b => wordOf .fadd a b 0 0 0
  | .fdiff a b => wordOf .fdiff a b 0 0 0
  | .fsma a b c => wordOf .fsma a b c 0 0
  | .fmul a b c => wordOf .fmul a b c 0 0
  | .fsqr a b => wordOf .fsqr a b 0 0 0
  | .fcopy a b => wordOf .fcopy a b 0 0 0
  | .decode a b => wordOf .decode a b 0 0 0
  | .encode a b => wordOf .encode a b 0 0 0
  | .cswap a b flag => wordOf .cswap a b flag.toNat 0 0
  | .lstep a b c d e => wordOf .lstep a b c d e
  | .ladder a b c d => wordOf .ladder a b c d 0
  | .invert a b => wordOf .invert a b 0 0 0
  | .clamp a b => wordOf .clamp a b 0 0 0
  | .smult a b c => wordOf .smult a b c 0 0
  | .dpub a b => wordOf .dpub a b 0 0 0
  | .dshared a b c => wordOf .dshared a b c 0 0

/-! ## The host's reading of the table -/

/-- A word as spec/opcode_table.json numbers its bits: bits at or above `nbits` are 0. -/
def tableWord (nbits w : Nat) : Word32 := BitVec.ofNat 32 (w % 2 ^ nbits)

/-- The command the decoder reads from a table word. It answers for the row a word belongs to (R81); the constraints of
R85, which the table keeps apart from its masks, are checked by `classify` when the word is issued (R202). -/
def decodeTableWord (nbits w : Nat) : Option Instr :=
  match decode (tableWord nbits w) with
  | .command i => some i
  | .illegalOpcode => none
  | .illegalOperand => none

end Sys2Proof
end

