-- ==== Sys2Proof/Machine/State.lean ====
section
/-! DEFINITION. Everything the spec gives CORE to remember (10_state.md R20 to R31), the events that drive it
(70_reset_and_hazards.md R240), and the ways a step can stop. All of it is plain data. -/

namespace Sys2Proof.Machine

/-- The contents a command computes on: the field registers, the byte buffers and `K` (10_state.md R20, R23, R24). -/
structure Data where
  /-- `F0` .. `F15` (R20). -/
  f : Vector FE 16
  /-- `B0` .. `B3` (R23). -/
  b : Vector Bytes32 4
  /-- `K`, the scalar operand register (R24). -/
  k : Limb
deriving DecidableEq, Repr

/-- The command in flight and the contents latched when it was accepted (60_exceptions.md R202, 10_state.md R30 (a)).
All of `Data` is latched, of which a command reads its own sources only (log 3). -/
structure InFlight where
  instr : Instr
  src : Data
deriving DecidableEq, Repr

/-- One event of a run (R240): a host access to the register window (offset from BASE, size in bytes, and the data of a
write in its low `8 * size` bits), a point at which the engine's completion step falls (60_exceptions.md R209), or the
platform's reset (70_reset_and_hazards.md R230). -/
inductive Action where
  | read (off size : Nat)
  | write (off size : Nat) (data : Limb)
  | complete
  | reset
deriving DecidableEq, Repr

/-- The interface errors of 60_exceptions.md R201. -/
inductive ErrorCause where
  | illegalOpcode
  | illegalOperand
  | busyAccess
deriving DecidableEq, Repr

/-- The whole state: the registers of 10_state.md section 8, the command in flight, and two fields of the model's own. -/
structure State where
  /-- `F0`..`F15`, `B0`..`B3`, `K`. -/
  data : Data
  /-- `CMD`: the last accepted command word (R25). -/
  cmd : Word32
  /-- `STATUS.DONE` (R26). -/
  done : Bool
  /-- `STATUS.ERR` (R26). -/
  err : Bool
  /-- `STATUS.ERRCODE` (R26). -/
  errCode : BitVec 4
  /-- `ERRINFO` (R27). -/
  errInfo : Word32
  /-- The accepted command that has not completed; `STATUS.BUSY` is 1 exactly while there is one (R26; log 5). -/
  inFlight : Option InFlight
  /-- The model's own: the events still to come, first one first (R240; log 1). -/
  pending : List Action
  /-- The model's own: the data the host's reads have returned, newest first (log 2). -/
  replies : List Limb
deriving DecidableEq, Repr

/-- `STATUS.BUSY` (R26): "1 from the acceptance of a command until its completion". -/
def State.busy (s : State) : Bool := s.inFlight.isSome

/-- Why a step stops with a fault: never. The spec has no stuck state and no trap (60_exceptions.md R200, R205); its
interface errors (R201) are next states, entered by `State.raise`. No constructor, so no one raises one; this is the
spec's own statement and safe. -/
inductive Fault : Type
deriving DecidableEq, Repr

/-- Why a step gives an event no meaning. -/
inductive Refusal where
  /-- Raised by `exec` for a command that has no meaning in the model: by none. Safe. -/
  | notModelled (mnemonic : String)
  /-- Raised by `hostRead` and `hostWrite` for an access that is no legal form of 20_memory.md R51 ("A model should refuse
  such an access"). Safe: the block does not perform it, and the model says nothing of what follows (log 6). -/
  | illegalAccess (off size : Nat)
deriving DecidableEq, Repr

/-- All data zero (R31). -/
def Data.zero : Data where
  f := Vector.replicate 16 ⟨0, 0, 0, 0, 0⟩
  b := Vector.replicate 4 (Vector.replicate 32 0)
  k := 0

/-- The block after reset: "every bit of architectural state is 0" (R31), no command in flight (R230), and no event yet
to come (logs 1, 2). -/
def State.reset : State where
  data := Data.zero
  cmd := 0
  done := false
  err := false
  errCode := 0
  errInfo := 0
  inFlight := none
  pending := []
  replies := []

end Sys2Proof.Machine
end

