-- ==== Sys2Proof/Machine/Operands.lean ====
section
/-! DEFINITION. Operands: the fixed-width arithmetic of 00_scope.md R6, the constants of R4, the integer readings of R5,
and the reading and writing of limbs, bytes, registers and buffers (R7). -/

namespace Sys2Proof

/-! ## Words (R6) -/

/-- `MASK51` (R6), on a limb. -/
def mask51 : Limb := 0x7FFFFFFFFFFFF#64

/-- `MASK51` (R6), on an accumulator. -/
def mask51Acc : Acc := 0x7FFFFFFFFFFFF#128

/-- A limb in 128 bits, zero-extended (R6: a product "taken in 128 bits" is exact). -/
def wide (v : Limb) : Acc := v.setWidth 128

/-- `lo64(t) = t mod 2^64` (R6). -/
def lo64 (t : Acc) : Limb := t.setWidth 64

/-- `asr63(v)`: all ones if bit 63 of `v` is 1, else 0 (R6). -/
def asr63 (v : Limb) : Limb := if v.msb then BitVec.allOnes 64 else 0

/-! ## Constants (R4) -/

/-- `A24`, the curve constant the ladder step is hardwired with (R4, 43_ladder.md R150). -/
def a24 : Limb := 121665#64

/-- `BASEPOINT`: byte 0 is 9, bytes 1 to 31 are 0 (45_toplevel.md R180). -/
def basePoint : Bytes32 := (Vector.replicate 32 0).set 0 9

/-- The field element `(0, 0, 0, 0, 0)`. -/
def FE.zero : FE := ⟨0, 0, 0, 0, 0⟩

/-- The field element `(1, 0, 0, 0, 0)`. -/
def FE.one : FE := ⟨1, 0, 0, 0, 0⟩

/-! ## Limbs and bytes by index (R5, R7) -/

/-- `f[j]`. -/
def FE.limb (f : FE) (j : Fin 5) : Limb :=
  match j with
  | 0 => f.l0
  | 1 => f.l1
  | 2 => f.l2
  | 3 => f.l3
  | 4 => f.l4

/-- `f` with limb `j` replaced: "leaves the other four limbs unchanged" (20_memory.md R53). -/
def FE.setLimb (f : FE) (j : Fin 5) (v : Limb) : FE :=
  match j with
  | 0 => { f with l0 := v }
  | 1 => { f with l1 := v }
  | 2 => { f with l2 := v }
  | 3 => { f with l3 := v }
  | 4 => { f with l4 := v }

/-- `b[j]`; the rules index a buffer by 0 to 31 only. -/
def byteAt (b : Bytes32) (j : Nat) : Byte := if h : j < 32 then b[j] else 0

/-- `b` with byte `j` replaced. -/
def setByteAt (b : Bytes32) (j : Nat) (v : Byte) : Bytes32 := if h : j < 32 then b.set j v else b

/-- The `n` bytes of `b` from `o` on as one number, the byte at the lowest offset in the least significant 8 bits
(20_memory.md R52). -/
def bytesWord (b : Bytes32) (o : Nat) : Nat → Limb
  | 0 => 0
  | n + 1 => (bytesWord b (o + 1) n <<< 8) ||| (byteAt b o).setWidth 64

/-- `b` with the `n` bytes from `o` on replaced by the low bytes of `v`, least significant first (R52). -/
def setBytesWord (b : Bytes32) (o : Nat) (v : Limb) : Nat → Bytes32
  | 0 => b
  | n + 1 => setBytesWord (setByteAt b o (v.setWidth 8)) (o + 1) (v >>> 8) n

/-! ## Integer readings (R5) -/

/-- `val(f)`: each limb read unsigned. -/
def FE.val (f : FE) : Nat :=
  f.l0.toNat + f.l1.toNat * 2 ^ 51 + f.l2.toNat * 2 ^ 102 + f.l3.toNat * 2 ^ 153 + f.l4.toNat * 2 ^ 204

/-- `sval(f)`: each limb read as a two's-complement signed number. -/
def FE.sval (f : FE) : Int :=
  f.l0.toInt + f.l1.toInt * 2 ^ 51 + f.l2.toInt * 2 ^ 102 + f.l3.toInt * 2 ^ 153 + f.l4.toInt * 2 ^ 204

/-- `le(b)`: the little-endian integer of 32 bytes. -/
def le (b : Bytes32) : Nat := b.toList.foldr (fun x n => x.toNat + 256 * n) 0

/-- Every limb of `f` is below `n`. -/
abbrev FE.below (f : FE) (n : Nat) : Prop :=
  f.l0.toNat < n ∧ f.l1.toNat < n ∧ f.l2.toNat < n ∧ f.l3.toNat < n ∧ f.l4.toNat < n

/-- *tight* of 40_field_arithmetic.md R116: limbs 0, 1, 3, 4 below `2^51` and limb 2 at most `2^51`. -/
abbrev FE.tight (f : FE) : Prop :=
  f.l0.toNat < 2 ^ 51 ∧ f.l1.toNat < 2 ^ 51 ∧ f.l2.toNat ≤ 2 ^ 51 ∧ f.l3.toNat < 2 ^ 51 ∧ f.l4.toNat < 2 ^ 51

/-- *loose* of R116: the carry discipline `DISC` of R4, every limb below `2^54`. -/
abbrev FE.loose (f : FE) : Prop := f.below (2 ^ 54)

/-- No limb has bit 63 set (R105 (b)). -/
abbrev FE.noSign (f : FE) : Prop := f.below (2 ^ 63)

namespace Machine

/-! ## Registers and buffers (R7, R83) -/

/-- `F[r]`. -/
def Data.getF (d : Data) (r : FReg) : FE := d.f[r.val]

/-- `F[r] <- v`, all five limbs at once. -/
def Data.setF (d : Data) (r : FReg) (v : FE) : Data := { d with f := d.f.set r.val v }

/-- `B[k]`. -/
def Data.getB (d : Data) (k : BReg) : Bytes32 := d.b[k.val]

/-- `B[k] <- v`, all 32 bytes at once. -/
def Data.setB (d : Data) (k : BReg) (v : Bytes32) : Data := { d with b := d.b.set k.val v }

/-- `K <- v`, by the host only (10_state.md R24). -/
def Data.setK (d : Data) (v : Limb) : Data := { d with k := v }

end Machine

end Sys2Proof
end

