-- ==== Sys2Proof/Machine/Flags.lean ====
section
/-! DEFINITION. Status. CORE has no condition codes (10_state.md R29); its only status bits are those of `STATUS`
(R26), built and cleared here. No arithmetic result touches them. -/

namespace Sys2Proof.Machine

/-- The code of an error cause (60_exceptions.md R201). -/
def ErrorCause.code : ErrorCause → BitVec 4
  | .illegalOpcode => 1
  | .illegalOperand => 2
  | .busyAccess => 3

/-- `STATUS` as the host reads it (10_state.md R26): bit 0 BUSY, bit 1 DONE, bit 2 ERR, bits 7:4 ERRCODE, the rest 0. -/
def State.statusWord (s : State) : Word32 :=
  0#24 ++ s.errCode ++ 0#1 ++ BitVec.ofBool s.err ++ BitVec.ofBool s.done ++ BitVec.ofBool s.busy

/-- Write-1-to-clear of `DONE` (R26). -/
def State.clearDone (s : State) : State := { s with done := false }

/-- The return from an error (60_exceptions.md R204): ERR, ERRCODE and ERRINFO become 0, nothing is restored. -/
def State.clearError (s : State) : State := { s with err := false, errCode := 0, errInfo := 0 }

/-- A host write of `w` to `STATUS` (R26, R204): bit 1 clears DONE, bit 2 clears the error; every other bit is ignored. -/
def State.writeStatus (s : State) (w : Word32) : State :=
  let s := if w.getLsbD 1 then s.clearDone else s
  if w.getLsbD 2 then s.clearError else s

end Sys2Proof.Machine
end

