-- ==== Sys2Proof/Machine/Ops.lean ====
section
/-! DEFINITION. The operations every command and every access is built from: error entry, acceptance, completion, the
handling of a `CMD` write, reset (60_exceptions.md R202, R203, R209, 70_reset_and_hazards.md R230). -/

namespace Sys2Proof.Machine

/-- Error entry, `raise E(info)` (R203): record the cause and its value if no error is recorded, else keep the first.
Nothing else is saved or changed and control goes nowhere. -/
def State.raise (s : State) (e : ErrorCause) (info : Word32) : State :=
  if s.err then s else { s with err := true, errCode := e.code, errInfo := info }

/-- Acceptance of the command `i` issued as word `w` (R202, last case): `CMD <- w`, BUSY set, DONE cleared, the command
and the contents of its sources latched. -/
def State.accept (s : State) (w : Word32) (i : Instr) : State :=
  { s with cmd := w, done := false, inFlight := some ⟨i, s.data⟩ }

/-- A host write of `w` to `CMD` (R202): the first case that applies is taken. -/
def State.writeCmd (s : State) (w : Word32) : State :=
  if s.busy then s.raise .busyAccess 0x000
  else if s.err then s
  else
    match classify w with
    | .illegalOpcode => s.raise .illegalOpcode w
    | .illegalOperand => s.raise .illegalOperand w
    | .command i => s.accept w i

/-- Completion (R209): the destinations are written with the command's function of the latched contents, BUSY is cleared
and DONE set, and nothing else changes. `write src d` is the data `d` with the command's destinations written from the
contents `src` (R8: read all, then write). "The engine does nothing when BUSY = 0." -/
def State.finish (s : State) (write : Data → Data → Data) : Host.Outcome State Fault Refusal :=
  match s.inFlight with
  | none => .next s
  | some l => .next { s with data := write l.src s.data, done := true, inFlight := none }

/-- The data a host read returns (log 2). -/
def State.reply (s : State) (v : Limb) : State := { s with replies := v :: s.replies }

/-- Reset as an event of a run (R230): every register takes its reset value and a command in flight is abandoned. What the
host has read and what it will do are its own (log 12). -/
def State.resetEvent (s : State) : State :=
  { State.reset with pending := s.pending, replies := s.replies }

end Sys2Proof.Machine
end

