-- ==== Sys2Proof/Machine/Field.lean ====
section
/-! DEFINITION. The field-arithmetic engine: FADD, FDIFF, FSMA, FMUL, FSQR, FCOPY (40_field_arithmetic.md). -/

namespace Sys2Proof.Machine

/-- `Add(out, in)` (R101): limb by limb, no carry, each limb wrapping. -/
def feAdd (out inp : FE) : FE :=
  ⟨out.l0 + inp.l0, out.l1 + inp.l1, out.l2 + inp.l2, out.l3 + inp.l3, out.l4 + inp.l4⟩

/-- `in - out` limb by limb, two's complement (R103, first line). -/
def feLimbDiff (out inp : FE) : FE :=
  ⟨inp.l0 - out.l0, inp.l1 - out.l1, inp.l2 - out.l2, inp.l3 - out.l3, inp.l4 - out.l4⟩

/-- One link of the borrow chain (R103): lend `2^51` to a negative limb `x`, take `k` from limb `y`. -/
def borrowLink (x y : Fin 5) (k : Limb) (d : FE) : FE :=
  let t := asr63 (d.limb x)
  let d := d.setLimb x (d.limb x + (0x8000000000000#64 &&& t))
  d.setLimb y (d.limb y - (k &&& t))

/-- The four ordinary links, limb 0 to limb 4 (R103). -/
def borrowPass (d : FE) : FE :=
  borrowLink 3 4 1 (borrowLink 2 3 1 (borrowLink 1 2 1 (borrowLink 0 1 1 d)))

/-- `Difference(out, in)` = `in - out` (R103): the first pass ends in the fold by 19, the second has no fold. -/
def feDifference (out inp : FE) : FE :=
  borrowPass (borrowLink 4 0 19 (borrowPass (feLimbDiff out inp)))

/-- `ScalarMultiplyAdd(in, scalar, add)` (R106): a product with a running carry, the top carry folded by 19 into limb 0
without a further carry, then a limb-wise sum. -/
def feScalarMultiplyAdd (inp : FE) (scalar : Limb) (add : FE) : FE :=
  let a := wide inp.l0 * wide scalar
  let o0 := lo64 a &&& mask51
  let a := wide inp.l1 * wide scalar + wide (lo64 (a >>> 51))
  let o1 := lo64 a &&& mask51
  let a := wide inp.l2 * wide scalar + wide (lo64 (a >>> 51))
  let o2 := lo64 a &&& mask51
  let a := wide inp.l3 * wide scalar + wide (lo64 (a >>> 51))
  let o3 := lo64 a &&& mask51
  let a := wide inp.l4 * wide scalar + wide (lo64 (a >>> 51))
  let o4 := lo64 a &&& mask51
  let o0 := o0 + 19 * lo64 (a >>> 51)
  feAdd ⟨o0, o1, o2, o3, o4⟩ add

/-- A product of two limbs, exact in 128 bits (R6). -/
def limbMul (x y : Limb) : Acc := wide x * wide y

/-- The accumulation stage of Multiply (R108): the terms of weight `2^255` and up multiplied by 19, in 128 bits. -/
def mulAccumulate (a b : FE) : Acc5 where
  t0 := limbMul a.l0 b.l0 + 19 * (limbMul a.l1 b.l4 + limbMul a.l2 b.l3 + limbMul a.l3 b.l2 + limbMul a.l4 b.l1)
  t1 := limbMul a.l0 b.l1 + limbMul a.l1 b.l0 + 19 * (limbMul a.l2 b.l4 + limbMul a.l3 b.l3 + limbMul a.l4 b.l2)
  t2 := limbMul a.l0 b.l2 + limbMul a.l1 b.l1 + limbMul a.l2 b.l0 + 19 * (limbMul a.l3 b.l4 + limbMul a.l4 b.l3)
  t3 := limbMul a.l0 b.l3 + limbMul a.l1 b.l2 + limbMul a.l2 b.l1 + limbMul a.l3 b.l0 + 19 * limbMul a.l4 b.l4
  t4 := limbMul a.l0 b.l4 + limbMul a.l1 b.l3 + limbMul a.l2 b.l2 + limbMul a.l3 b.l1 + limbMul a.l4 b.l0

/-- The carry stage of Multiply, `Carry5` (R109): carries truncated to 64 bits, the fold by 19 and the short second pass
in 64-bit arithmetic, limb 2 not masked at the end. -/
def carry5 (t : Acc5) : FE :=
  let r0 := lo64 t.t0 &&& mask51
  let c := lo64 (t.t0 >>> 51)
  let t1 := t.t1 + wide c
  let r1 := lo64 t1 &&& mask51
  let c := lo64 (t1 >>> 51)
  let t2 := t.t2 + wide c
  let r2 := lo64 t2 &&& mask51
  let c := lo64 (t2 >>> 51)
  let t3 := t.t3 + wide c
  let r3 := lo64 t3 &&& mask51
  let c := lo64 (t3 >>> 51)
  let t4 := t.t4 + wide c
  let r4 := lo64 t4 &&& mask51
  let c := lo64 (t4 >>> 51)
  let r0 := r0 + 19 * c
  let c := r0 >>> 51
  let r0 := r0 &&& mask51
  let r1 := r1 + c
  let c := r1 >>> 51
  let r1 := r1 &&& mask51
  let r2 := r2 + c
  ⟨r0, r1, r2, r3, r4⟩

/-- `Multiply(a, b)` (R108, R109). -/
def feMultiply (a b : FE) : FE := carry5 (mulAccumulate a b)

/-- `Square(a) = Multiply(a, a)`, for every input, limb for limb (R112). -/
def feSquare (a : FE) : FE := feMultiply a a

/-- `Copy(in)` (R114). -/
def feCopy (inp : FE) : FE := inp

/-! ## The commands -/

/-- FADD (R102): `F[a] <- Add(F[a], F[b])`. -/
def execFadd (a b : FReg) (s : State) : Host.Outcome State Fault Refusal :=
  s.finish fun o d => d.setF a (feAdd (o.getF a) (o.getF b))

/-- FDIFF (R104): `F[a] <- Difference(F[a], F[b])`, that is `F[b] - F[a]`. -/
def execFdiff (a b : FReg) (s : State) : Host.Outcome State Fault Refusal :=
  s.finish fun o d => d.setF a (feDifference (o.getF a) (o.getF b))

/-- FSMA (R107): `F[a] <- ScalarMultiplyAdd(F[b], K, F[c])`. -/
def execFsma (a b c : FReg) (s : State) : Host.Outcome State Fault Refusal :=
  s.finish fun o d => d.setF a (feScalarMultiplyAdd (o.getF b) o.k (o.getF c))

/-- FMUL (R110): `F[a] <- Multiply(F[b], F[c])`. -/
def execFmul (a b c : FReg) (s : State) : Host.Outcome State Fault Refusal :=
  s.finish fun o d => d.setF a (feMultiply (o.getF b) (o.getF c))

/-- FSQR (R113): `F[a] <- Square(F[b])`. -/
def execFsqr (a b : FReg) (s : State) : Host.Outcome State Fault Refusal :=
  s.finish fun o d => d.setF a (feSquare (o.getF b))

/-- FCOPY (R115): `F[a] <- F[b]`. -/
def execFcopy (a b : FReg) (s : State) : Host.Outcome State Fault Refusal :=
  s.finish fun o d => d.setF a (feCopy (o.getF b))

end Sys2Proof.Machine
end

