-- ==== Sys2Proof/Machine/Codec.lean ====
section
/-! DEFINITION. The codec: DECODE and ENCODE (41_codec.md), the only commands that move data between buffers and field
registers (20_memory.md R61). -/

namespace Sys2Proof.Machine

/-- Bits `51*j` to `51*j + 50` of `n` (R130). -/
def limbOfNat (n j : Nat) : Limb := BitVec.ofNat 64 (n / 2 ^ (51 * j) % 2 ^ 51)

/-- `Decode(s)` (R130): five 51-bit groups from bit 0 on; bit 255 belongs to none. -/
def decodeBytes (s : Bytes32) : FE :=
  let n := le s
  ⟨limbOfNat n 0, limbOfNat n 1, limbOfNat n 2, limbOfNat n 3, limbOfNat n 4⟩

/-- The part of `FullCarry` that runs from limb 0 to limb 4, and the whole of the final pass but its last mask (R132). -/
def carryUp (t : Acc5) : Acc5 :=
  let t1 := t.t1 + (t.t0 >>> 51)
  let t2 := t.t2 + (t1 >>> 51)
  let t3 := t.t3 + (t2 >>> 51)
  let t4 := t.t4 + (t3 >>> 51)
  ⟨t.t0 &&& mask51Acc, t1 &&& mask51Acc, t2 &&& mask51Acc, t3 &&& mask51Acc, t4⟩

/-- `FullCarry()` (R132): the carry out of limb 4 comes back into limb 0 times 19. -/
def fullCarry (t : Acc5) : Acc5 :=
  let t := carryUp t
  { t with t0 := t.t0 + 19 * (t.t4 >>> 51), t4 := t.t4 &&& mask51Acc }

/-- The offset `2^255 - 19`, limb by limb (R132). -/
def addOffset (t : Acc5) : Acc5 :=
  ⟨t.t0 + 0x7FFFFFFFFFFED#128, t.t1 + mask51Acc, t.t2 + mask51Acc, t.t3 + mask51Acc, t.t4 + mask51Acc⟩

/-- Encode up to the packing (R132): two full passes, 19 added, a third pass, the offset, a pass without fold, and the
mask that drops `2^255`. -/
def canonicalLimbs (f : FE) : Acc5 :=
  let t : Acc5 := ⟨wide f.l0, wide f.l1, wide f.l2, wide f.l3, wide f.l4⟩
  let t := fullCarry (fullCarry t)
  let t := fullCarry { t with t0 := t.t0 + 19 }
  let t := carryUp (addOffset t)
  { t with t4 := t.t4 &&& mask51Acc }

/-- Word `k` of the four 64-bit words packed from 5 x 51 bits (R132). -/
def packWord (t : Acc5) (k : Nat) : Limb :=
  if k = 0 then lo64 (t.t0 ||| (t.t1 <<< 51))
  else if k = 1 then lo64 ((t.t1 >>> 13) ||| (t.t2 <<< 38))
  else if k = 2 then lo64 ((t.t2 >>> 26) ||| (t.t3 <<< 25))
  else lo64 ((t.t3 >>> 39) ||| (t.t4 <<< 12))

/-- The 32 bytes of four words, each least significant byte first (R132: byte `8k + i` is `(wk >> 8i) & 0xFF`). -/
def packBytes (t : Acc5) : Bytes32 :=
  Vector.ofFn fun j : Fin 32 => (packWord t (j.val / 8) >>> (8 * (j.val % 8))).setWidth 8

/-- `Encode(f)` (R132). -/
def encodeFE (f : FE) : Bytes32 := packBytes (canonicalLimbs f)

/-- DECODE (R131): `F[a] <- Decode(B[b])`. -/
def execDecode (a : FReg) (b : BReg) (s : State) : Host.Outcome State Fault Refusal :=
  s.finish fun o d => d.setF a (decodeBytes (o.getB b))

/-- ENCODE (R133): `B[a] <- Encode(F[b])`. -/
def execEncode (a : BReg) (b : FReg) (s : State) : Host.Outcome State Fault Refusal :=
  s.finish fun o d => d.setB a (encodeFE (o.getF b))

end Sys2Proof.Machine
end

