-- ==== Sys2Proof/Machine/Swap.lean ====
section
/-! DEFINITION. The conditional-swap unit: CSWAP (42_cswap.md). -/

namespace Sys2Proof.Machine

/-- One limb of Swap (R140): `x = mask & (a xor b)`, and the two results `a xor x`, `b xor x`. -/
def swapLimb (mask a b : Limb) : Limb × Limb :=
  let x := mask &&& (a ^^^ b)
  (a ^^^ x, b ^^^ x)

/-- `Swap(a, b, flag)` (R140): `mask = 0 - flag`, the same steps for either flag. -/
def feSwap (a b : FE) (flag : Limb) : FE × FE :=
  let mask := 0 - flag
  let r0 := swapLimb mask a.l0 b.l0
  let r1 := swapLimb mask a.l1 b.l1
  let r2 := swapLimb mask a.l2 b.l2
  let r3 := swapLimb mask a.l3 b.l3
  let r4 := swapLimb mask a.l4 b.l4
  (⟨r0.1, r1.1, r2.1, r3.1, r4.1⟩, ⟨r0.2, r1.2, r2.2, r3.2, r4.2⟩)

/-- CSWAP (R141): `(F[a], F[b]) <- Swap(F[a], F[b], flag)`, the flag zero-extended (30_encoding.md R83). -/
def execCswap (a b : FReg) (flag : BitVec 1) (s : State) : Host.Outcome State Fault Refusal :=
  s.finish fun o d =>
    let r := feSwap (o.getF a) (o.getF b) (flag.setWidth 64)
    (d.setF a r.1).setF b r.2

end Sys2Proof.Machine
end

