-- ==== Sys2Proof/Machine/Ladder.lean ====
section
/-! DEFINITION. The scalar multiplier: LSTEP and LADDER (43_ladder.md). -/

namespace Sys2Proof.Machine

/-- Two projective pairs, the source's `LadderState` (00_scope.md R11): `nq` = `(x : z)`, `nqpq` = `(xp : zp)`. -/
structure Pairs where
  x : FE
  z : FE
  xp : FE
  zp : FE
deriving DecidableEq, Repr

/-- `z` after R150's line `z = Difference(z, origx)`: the first of the step's four Differences. -/
def stepDiff (x z : FE) : FE := feDifference z x

/-- The cross product `xxprime` = `(x' + z')(x - z)` (R150). -/
def stepXxprime (p : Pairs) : FE := feMultiply (feAdd p.xp p.zp) (stepDiff p.x p.z)

/-- The cross product `zzprime` = `(x + z)(x' - z')` (R150). -/
def stepZzprime (p : Pairs) : FE := feMultiply (feAdd p.x p.z) (stepDiff p.xp p.zp)

/-- `LadderStep(x, z, xp, zp, q)` (R150), line by line. -/
def ladderStep (p : Pairs) (q : FE) : Pairs :=
  let origx := p.x
  let x := feAdd p.x p.z
  let z := stepDiff origx p.z
  let xxprime := stepXxprime p
  let zzprime := stepZzprime p
  let origxprime := xxprime
  let xxprime := feAdd xxprime zzprime
  let zzprime := feDifference zzprime origxprime
  let x3 := feSquare xxprime
  let zzzprime := feSquare zzprime
  let z3 := feMultiply zzzprime q
  let xx := feSquare x
  let zz := feSquare z
  let x2 := feMultiply xx zz
  let zz := feDifference zz xx
  let zzz := feScalarMultiplyAdd zz a24 xx
  let z2 := feMultiply zz zzz
  ⟨x2, z2, x3, z3⟩

/-- The results of the four Differences of a step, in R150's order (R154 speaks of their limbs). -/
def stepDifferences (p : Pairs) : List FE :=
  let x := feAdd p.x p.z
  let z := stepDiff p.x p.z
  [z, stepDiff p.xp p.zp, feDifference (stepZzprime p) (stepXxprime p), feDifference (feSquare z) (feSquare x)]

/-- Bit `i` of `le(n)`: `(n[i div 8] >> (i mod 8)) & 1` (R152). -/
def scalarBit (n : Bytes32) (i : Nat) : Limb := ((byteAt n (i / 8) >>> (i % 8)) &&& 1).setWidth 64

/-- `Swap` applied to the x limbs and to the z limbs (R152). -/
def swapPairs (p : Pairs) (flag : Limb) : Pairs :=
  let rx := feSwap p.x p.xp flag
  let rz := feSwap p.z p.zp flag
  ⟨rx.1, rz.1, rx.2, rz.2⟩

/-- What one LADDER execution carries from iteration to iteration: the two pairs and `lastbit` (R152). -/
structure LoopState where
  pairs : Pairs
  lastbit : Limb
deriving DecidableEq, Repr

/-- Iteration `i` of the loop (R152). -/
def ladderIteration (n : Bytes32) (q : FE) (i : Nat) (l : LoopState) : LoopState :=
  let b := scalarBit n i
  let p := swapPairs l.pairs (b ^^^ l.lastbit)
  ⟨ladderStep p q, b⟩

/-- Iterations `k - 1` down to 0 (R152). -/
def ladderLoop (n : Bytes32) (q : FE) : Nat → LoopState → LoopState
  | 0, l => l
  | k + 1, l => ladderLoop n q k (ladderIteration n q k l)

/-- The loop's start: `nq = (1, 0)`, `nqpq = (q, 1)`, `lastbit = 0` (R152). -/
def ladderStart (q : FE) : LoopState := ⟨⟨FE.one, FE.zero, q, FE.one⟩, 0⟩

/-- `Ladder(n, q)` (R152): 256 iterations (`NITER` of 00_scope.md R4), the final swap, and the pair `nq`. -/
def ladder (n : Bytes32) (q : FE) : FE × FE :=
  let l := ladderLoop n q 256 (ladderStart q)
  let p := swapPairs l.pairs l.lastbit
  (p.x, p.z)

/-- LSTEP (R151): `(F[a], F[b], F[c], F[d]) <- LadderStep(F[a], F[b], F[c], F[d], F[e])`. -/
def execLstep (a b c d e : FReg) (s : State) : Host.Outcome State Fault Refusal :=
  s.finish fun o dst =>
    let r := ladderStep ⟨o.getF a, o.getF b, o.getF c, o.getF d⟩ (o.getF e)
    (((dst.setF a r.x).setF b r.z).setF c r.xp).setF d r.zp

/-- LADDER (R153): `(F[a], F[b]) <- Ladder(B[c], F[d])`. -/
def execLadder (a b : FReg) (c : BReg) (d : FReg) (s : State) : Host.Outcome State Fault Refusal :=
  s.finish fun o dst =>
    let r := ladder (o.getB c) (o.getF d)
    (dst.setF a r.1).setF b r.2

end Sys2Proof.Machine
end

