-- ==== Sys2Proof/Machine/Inverse.lean ====
section
/-! DEFINITION. The modular-inverse unit: INVERT (44_inverse.md). -/

namespace Sys2Proof.Machine

/-- `Square^k(v)`: Square applied `k` times in a row (R170). -/
def squareTimes : Nat → FE → FE
  | 0, v => v
  | k + 1, v => squareTimes k (feSquare v)

/-- `Invert(z)` (R170): the fixed chain to `z^(2^255 - 21)`. -/
def invert (z : FE) : FE :=
  let z2 := feSquare z
  let t := squareTimes 2 z2
  let z9 := feMultiply t z
  let z11 := feMultiply z9 z2
  let t := feSquare z11
  let z2_5_0 := feMultiply t z9
  let t := squareTimes 5 z2_5_0
  let z2_10_0 := feMultiply t z2_5_0
  let t := squareTimes 10 z2_10_0
  let z2_20_0 := feMultiply t z2_10_0
  let t := squareTimes 20 z2_20_0
  let z2_40_0 := feMultiply t z2_20_0
  let t := squareTimes 10 z2_40_0
  let z2_50_0 := feMultiply t z2_10_0
  let t := squareTimes 50 z2_50_0
  let z2_100_0 := feMultiply t z2_50_0
  let t := squareTimes 100 z2_100_0
  let z2_200_0 := feMultiply t z2_100_0
  let t := squareTimes 50 z2_200_0
  let z2_250_0 := feMultiply t z2_50_0
  let t := squareTimes 5 z2_250_0
  feMultiply t z11

/-- INVERT (R171): `F[a] <- Invert(F[b])`. -/
def execInvert (a b : FReg) (s : State) : Host.Outcome State Fault Refusal :=
  s.finish fun o d => d.setF a (invert (o.getF b))

end Sys2Proof.Machine
end

