-- ==== Sys2Proof/Machine/TopLevel.lean ====
section
/-! DEFINITION. The byte-level commands: CLAMP, SMULT, DPUB, DSHARED (45_toplevel.md). -/

namespace Sys2Proof.Machine

/-- `Clamp(s)` (R181): `s[0] &= 248; s[31] &= 127; s[31] |= 64`. -/
def clampBytes (s : Bytes32) : Bytes32 :=
  setByteAt (setByteAt s 0 (byteAt s 0 &&& 248)) 31 ((byteAt s 31 &&& 127) ||| 64)

/-- `ScalarMult(secret, point)` (R182). -/
def scalarMult (secret point : Bytes32) : Bytes32 :=
  let e := clampBytes secret
  let q := decodeBytes point
  let xz := ladder e q
  let zinv := invert xz.2
  let r := feMultiply xz.1 zinv
  encodeFE r

/-- CLAMP (R181): `B[a] <- Clamp(B[b])`. -/
def execClamp (a b : BReg) (s : State) : Host.Outcome State Fault Refusal :=
  s.finish fun o d => d.setB a (clampBytes (o.getB b))

/-- SMULT (R183): `B[a] <- ScalarMult(B[b], B[c])`. -/
def execSmult (a b c : BReg) (s : State) : Host.Outcome State Fault Refusal :=
  s.finish fun o d => d.setB a (scalarMult (o.getB b) (o.getB c))

/-- DPUB (R185): `B[a] <- ScalarMult(B[b], BASEPOINT)`. -/
def execDpub (a b : BReg) (s : State) : Host.Outcome State Fault Refusal :=
  s.finish fun o d => d.setB a (scalarMult (o.getB b) basePoint)

/-- DSHARED (R186): `B[a] <- ScalarMult(B[b], B[c])`. -/
def execDshared (a b c : BReg) (s : State) : Host.Outcome State Fault Refusal :=
  s.finish fun o d => d.setB a (scalarMult (o.getB b) (o.getB c))

end Sys2Proof.Machine
end

