-- ==== Sys2Proof/Machine/Dispatch.lean ====
section
/-! DEFINITION. What completing each command does (60_exceptions.md R209): one arm per constructor, one meaning per arm. -/

namespace Sys2Proof.Machine

def exec (i : Instr) (s : State) : Host.Outcome State Fault Refusal :=
  match i with
  | .fadd a b => Sys2Proof.Machine.execFadd a b s
  | .fdiff a b => Sys2Proof.Machine.execFdiff a b s
  | .fsma a b c => Sys2Proof.Machine.execFsma a b c s
  | .fmul a b c => Sys2Proof.Machine.execFmul a b c s
  | .fsqr a b => Sys2Proof.Machine.execFsqr a b s
  | .fcopy a b => Sys2Proof.Machine.execFcopy a b s
  | .decode a b => Sys2Proof.Machine.execDecode a b s
  | .encode a b => Sys2Proof.Machine.execEncode a b s
  | .cswap a b flag => Sys2Proof.Machine.execCswap a b flag s
  | .lstep a b c d e => Sys2Proof.Machine.execLstep a b c d e s
  | .ladder a b c d => Sys2Proof.Machine.execLadder a b c d s
  | .invert a b => Sys2Proof.Machine.execInvert a b s
  | .clamp a b => Sys2Proof.Machine.execClamp a b s
  | .smult a b c => Sys2Proof.Machine.execSmult a b c s
  | .dpub a b => Sys2Proof.Machine.execDpub a b s
  | .dshared a b c => Sys2Proof.Machine.execDshared a b c s

end Sys2Proof.Machine
end

