-- ==== Sys2Proof/Machine/Window.lean ====
section
/-! DEFINITION. The host register window (20_memory.md R50 to R56). -/

namespace Sys2Proof.Machine

/-- What a legal access reaches (the rows of R50). -/
inductive Place where
  | cmd
  | status
  | k
  | errInfo
  /-- Bytes of buffer `k` from byte `j` on. -/
  | buffer (k : BReg) (j : Fin 32)
  /-- Limb `j` of field register `r`. -/
  | limb (r : FReg) (j : Fin 5)
  | reserved
deriving DecidableEq, Repr

/-- The bytes `off` to `off + n - 1` lie in rows marked reserved in R50 (for an access that crosses no multiple of its size). -/
def inReserved (off n : Nat) : Bool :=
  (0x014 ≤ off && off + n ≤ 0x080) || (0x100 ≤ off && off + n ≤ 0x400)
    || (0x400 ≤ off && off + n ≤ 0x800 && 40 ≤ (off - 0x400) % 64)

/-- The legal accesses (R51, R54) and what each reaches; none for every other access. -/
def locate (off n : Nat) : Option Place :=
  if off = 0x000 ∧ n = 4 then some .cmd
  else if off = 0x004 ∧ n = 4 then some .status
  else if off = 0x008 ∧ n = 8 then some .k
  else if off = 0x010 ∧ n = 4 then some .errInfo
  else if 0x080 ≤ off ∧ off < 0x100 ∧ (n = 1 ∨ n = 2 ∨ n = 4 ∨ n = 8) ∧ off % n = 0 then
    some (.buffer (Fin.ofNat 4 ((off - 0x080) / 32)) (Fin.ofNat 32 ((off - 0x080) % 32)))
  else if 0x400 ≤ off ∧ off < 0x800 ∧ (off - 0x400) % 64 < 40 ∧ n = 8 ∧ off % 8 = 0 then
    some (.limb (Fin.ofNat 16 ((off - 0x400) / 64)) (Fin.ofNat 5 ((off - 0x400) % 64 / 8)))
  else if (n = 4 ∨ n = 8) ∧ off % n = 0 ∧ inReserved off n then some .reserved
  else none

/-- A read refused while BUSY (R55): of `K`, a buffer or a limb. -/
def Place.readGuarded : Place → Bool
  | .k | .buffer _ _ | .limb _ _ => true
  | .cmd | .status | .errInfo | .reserved => false

/-- A write refused while BUSY (R55: "Every other access to a non-reserved offset"): of `K`, a buffer, a limb or `ERRINFO`
(log 10). That of `CMD` is refused by `State.writeCmd` (60_exceptions.md R202). -/
def Place.writeGuarded : Place → Bool
  | .k | .buffer _ _ | .limb _ _ | .errInfo => true
  | .cmd | .status | .reserved => false

/-- What a read of `n` bytes returns (R50, R52, R53, R54). -/
def State.peek (s : State) (n : Nat) : Place → Limb
  | .cmd => s.cmd.setWidth 64
  | .status => s.statusWord.setWidth 64
  | .k => s.data.k
  | .errInfo => s.errInfo.setWidth 64
  | .buffer k j => bytesWord (s.data.getB k) j n
  | .limb r j => (s.data.getF r).limb j
  | .reserved => 0

/-- What a write of `n` bytes does (R50, R52 to R54, R56). `ERRINFO` is read-only (10_state.md R27): a write that is
not refused stores nothing (log 10). -/
def State.poke (s : State) (n : Nat) (v : Limb) : Place → State
  | .cmd => s.writeCmd (v.setWidth 32)
  | .status => s.writeStatus (v.setWidth 32)
  | .k => { s with data := s.data.setK v }
  | .errInfo => s
  | .buffer k j => { s with data := s.data.setB k (setBytesWord (s.data.getB k) j v n) }
  | .limb r j => { s with data := s.data.setF r ((s.data.getF r).setLimb j v) }
  | .reserved => s

/-- `MemRead(off, n)` (R7, R50 to R56). While BUSY a guarded read returns 0 and raises `BusyAccess` with its offset (R55). -/
def hostRead (off n : Nat) (s : State) : Host.Outcome State Fault Refusal :=
  match locate off n with
  | none => .refused (.illegalAccess off n)
  | some p =>
    if s.busy && p.readGuarded then .next ((s.raise .busyAccess (BitVec.ofNat 32 off)).reply 0)
    else .next (s.reply (s.peek n p))

/-- `MemWrite(off, n, v)` (R7, R50 to R56). While BUSY a guarded write is dropped and raises `BusyAccess` (R55). -/
def hostWrite (off n : Nat) (v : Limb) (s : State) : Host.Outcome State Fault Refusal :=
  match locate off n with
  | none => .refused (.illegalAccess off n)
  | some p =>
    if s.busy && p.writeGuarded then .next (s.raise .busyAccess (BitVec.ofNat 32 off))
    else .next (s.poke n v p)

end Sys2Proof.Machine
end

