-- ==== Sys2Proof/Machine/Step.lean ====
section
/-! DEFINITION. One step: the next event of the run (70_reset_and_hazards.md R240). -/

namespace Sys2Proof.Machine

/-- The engine's one step (60_exceptions.md R209): complete the command in flight; nothing when BUSY = 0. -/
def engineStep (s : State) : Host.Outcome State Fault Refusal :=
  match s.inFlight with
  | none => .next s
  | some l => exec l.instr s

/-- What one event does, once taken off `pending`. -/
def perform (a : Action) (s : State) : Host.Outcome State Fault Refusal :=
  match a with
  | .read off n => hostRead off n s
  | .write off n v => hostWrite off n v s
  | .complete => engineStep s
  | .reset => .next s.resetEvent

/-- One step: the first event still to come; with none left, the engine completes what is in flight (R238 (a)) and an idle
block stays as it is (60_exceptions.md R212). -/
def step (s : State) : Host.Outcome State Fault Refusal :=
  match s.pending with
  | [] => engineStep s
  | a :: rest => perform a { s with pending := rest }

/-- `s` with the word `w` as the next command the engine completes. CORE fetches nothing: a command comes as a host write to
`CMD` (10_state.md R28), so this is the acceptance of that write (60_exceptions.md R202) with the completion placed first
among the events to come. A word that is no command is placed as the `CMD` write itself, which the next step handles (log 1). -/
def State.withFetchWord (s : State) (nbits w : Nat) : State :=
  match classify (tableWord nbits w) with
  | .command i => { s.accept (tableWord nbits w) i with pending := .complete :: s.pending }
  | .illegalOpcode | .illegalOperand => { s with pending := .write 0x000 4 (BitVec.ofNat 64 (tableWord nbits w).toNat) :: s.pending }

end Sys2Proof.Machine
end

