-- ==== Sys2Proof/Machine/Microcode.lean ====
section
/-! DEFINITION. The engine's internal step sequence, command by command, on explicit internal cells (10_state.md R30,
70_reset_and_hazards.md R237, R239). The sequence is a function of the opcode alone: no operand, register, buffer, flag or
scalar bit enters `microProgram`. The machine's step completes a command as one atomic function (`exec`; R30 allows it);
that the sequence computes the same is a statement about this file (log 9). -/

namespace Sys2Proof.Machine

/-- The internal cells that hold a field element, under the rules' names (R150, R152, R170, R182). -/
inductive Cell where
  | x | z | xp | zp | q
  | origx | origxprime | xxprime | zzprime | zzzprime | xx | zz | zzz
  | t | z2 | z9 | z11 | z5_0 | z10_0 | z20_0 | z40_0 | z50_0 | z100_0 | z200_0 | z250_0 | zinv
deriving DecidableEq, Repr

/-- One internal step. Each names its cells; `swap` exchanges by the selector, which only `bit`, `last` and `flag` set. -/
inductive MicroOp where
  | copy (dst src : Cell)
  | add (dst a b : Cell)
  /-- `dst = Difference(out, inp)`. -/
  | diff (dst out inp : Cell)
  | mul (dst a b : Cell)
  | sqr (dst a : Cell)
  /-- ScalarMultiplyAdd with register `K` (FSMA). -/
  | smaK (dst inp add : Cell)
  /-- ScalarMultiplyAdd with the hardwired `A24` (the ladder step). -/
  | smaA24 (dst inp add : Cell)
  | swap (a b : Cell)
  /-- The selector is the command's flag operand. -/
  | flag
  /-- Scalar bit `i` is read: the selector is it xor `lastbit`, and `lastbit` is it. -/
  | bit (i : Nat)
  /-- The selector is `lastbit`. -/
  | last
  /-- The ladder's start (R152): `nq = (1, 0)`, `nqpq = (q, 1)`, `lastbit = 0`. -/
  | start
  | clamp
  | decode
  | encode
deriving DecidableEq, Repr

/-- The internal state of one execution (R30). -/
structure Scratch where
  f : Cell → FE
  secret : Bytes32
  scalar : Bytes32
  point : Bytes32
  out : Bytes32
  k : Limb
  flag : Limb
  sel : Limb
  lastbit : Limb

/-- `s` with cell `c` holding `v`. -/
def Scratch.set (s : Scratch) (c : Cell) (v : FE) : Scratch := { s with f := fun c' => if c' = c then v else s.f c' }

/-- What one internal step does. -/
def microStep (s : Scratch) : MicroOp → Scratch
  | .copy dst src => s.set dst (feCopy (s.f src))
  | .add dst a b => s.set dst (feAdd (s.f a) (s.f b))
  | .diff dst out inp => s.set dst (feDifference (s.f out) (s.f inp))
  | .mul dst a b => s.set dst (feMultiply (s.f a) (s.f b))
  | .sqr dst a => s.set dst (feSquare (s.f a))
  | .smaK dst inp add => s.set dst (feScalarMultiplyAdd (s.f inp) s.k (s.f add))
  | .smaA24 dst inp add => s.set dst (feScalarMultiplyAdd (s.f inp) a24 (s.f add))
  | .swap a b => (s.set a (feSwap (s.f a) (s.f b) s.sel).1).set b (feSwap (s.f a) (s.f b) s.sel).2
  | .flag => { s with sel := s.flag }
  | .bit i => { s with sel := scalarBit s.scalar i ^^^ s.lastbit, lastbit := scalarBit s.scalar i }
  | .last => { s with sel := s.lastbit }
  | .start => { (((s.set .x FE.one).set .z FE.zero).set .xp (s.f .q)).set .zp FE.one with lastbit := 0 }
  | .clamp => { s with scalar := clampBytes s.secret }
  | .decode => s.set .q (decodeBytes s.point)
  | .encode => { s with out := encodeFE (s.f .x) }

/-- A sequence of internal steps, in order. -/
def microRun (ops : List MicroOp) (s : Scratch) : Scratch := ops.foldl microStep s

/-- The twenty lines of the differential step (R150); the four results go to the cells of the pairs. -/
def stepProgram : List MicroOp :=
  [.copy .origx .x, .add .x .x .z, .diff .z .z .origx,
   .copy .origxprime .xp, .add .xp .xp .zp, .diff .zp .zp .origxprime,
   .mul .xxprime .xp .z, .mul .zzprime .x .zp,
   .copy .origxprime .xxprime, .add .xxprime .xxprime .zzprime, .diff .zzprime .zzprime .origxprime,
   .sqr .xp .xxprime, .sqr .zzzprime .zzprime, .mul .zp .zzzprime .q,
   .sqr .xx .x, .sqr .zz .z, .mul .x .xx .zz,
   .diff .zz .zz .xx, .smaA24 .zzz .zz .xx, .mul .z .zz .zzz]

/-- The two swaps of an exchange of the pairs: the x cells and the z cells (R152). -/
def swapProgram : List MicroOp := [.swap .x .xp, .swap .z .zp]

/-- Iterations `k - 1` down to 0 of the ladder (R152). -/
def loopProgram : Nat → List MicroOp
  | 0 => []
  | k + 1 => .bit k :: swapProgram ++ stepProgram ++ loopProgram k

/-- The whole ladder on the cells `scalar` and `q` (R152). -/
def ladderProgram : List MicroOp := .start :: loopProgram 256 ++ .last :: swapProgram

/-- `t = Square^(k+1)(src)` (R170). -/
def squaresProgram (src : Cell) (k : Nat) : List MicroOp := .sqr .t src :: List.replicate k (.sqr .t .t)

/-- The inversion chain from cell `z` to cell `zinv` (R170): 254 squarings and 11 multiplications. -/
def invertProgram : List MicroOp :=
  [.sqr .z2 .z] ++ squaresProgram .z2 1 ++ [.mul .z9 .t .z, .mul .z11 .z9 .z2]
    ++ squaresProgram .z11 0 ++ [.mul .z5_0 .t .z9]
    ++ squaresProgram .z5_0 4 ++ [.mul .z10_0 .t .z5_0]
    ++ squaresProgram .z10_0 9 ++ [.mul .z20_0 .t .z10_0]
    ++ squaresProgram .z20_0 19 ++ [.mul .z40_0 .t .z20_0]
    ++ squaresProgram .z40_0 9 ++ [.mul .z50_0 .t .z10_0]
    ++ squaresProgram .z50_0 49 ++ [.mul .z100_0 .t .z50_0]
    ++ squaresProgram .z100_0 99 ++ [.mul .z200_0 .t .z100_0]
    ++ squaresProgram .z200_0 49 ++ [.mul .z250_0 .t .z50_0]
    ++ squaresProgram .z250_0 4 ++ [.mul .zinv .t .z11]

/-- ScalarMult (R182): Clamp, Decode, the ladder, the inverse of its z, the product, Encode. -/
def scalarMultProgram : List MicroOp :=
  [.clamp, .decode] ++ ladderProgram ++ invertProgram ++ [.mul .x .x .zinv, .encode]

/-- The internal step sequence of each command: "a function of the opcode alone" (R237). -/
def microProgram : Opcode → List MicroOp
  | .fadd => [.add .x .x .z]
  | .fdiff => [.diff .x .x .z]
  | .fsma => [.smaK .x .x .z]
  | .fmul => [.mul .x .x .z]
  | .fsqr => [.sqr .x .x]
  | .fcopy => [.copy .x .x]
  | .decode => [.decode]
  | .encode => [.encode]
  | .cswap => [.flag, .swap .x .xp]
  | .lstep => stepProgram
  | .ladder => ladderProgram
  | .invert => invertProgram
  | .clamp => [.clamp]
  | .smult => scalarMultProgram
  | .dpub => scalarMultProgram
  | .dshared => scalarMultProgram

/-- All cells empty but `K`. -/
def Scratch.empty (k : Limb) : Scratch where
  f _ := FE.zero
  secret := Vector.replicate 32 0
  scalar := Vector.replicate 32 0
  point := Vector.replicate 32 0
  out := Vector.replicate 32 0
  k := k
  flag := 0
  sel := 0
  lastbit := 0

/-- The latched sources of a command in their cells (00_scope.md R8: read all). -/
def microLoad (i : Instr) (o : Data) : Scratch :=
  let s := Scratch.empty o.k
  match i with
  | .fadd a b | .fdiff a b => (s.set .x (o.getF a)).set .z (o.getF b)
  | .fsma _ b c | .fmul _ b c => (s.set .x (o.getF b)).set .z (o.getF c)
  | .fsqr _ b | .fcopy _ b | .encode _ b => s.set .x (o.getF b)
  | .decode _ b => { s with point := o.getB b }
  | .cswap a b flag => { (s.set .x (o.getF a)).set .xp (o.getF b) with flag := flag.setWidth 64 }
  | .lstep a b c d e =>
    ((((s.set .x (o.getF a)).set .z (o.getF b)).set .xp (o.getF c)).set .zp (o.getF d)).set .q (o.getF e)
  | .ladder _ _ c d => { s.set .q (o.getF d) with scalar := o.getB c }
  | .invert _ b => s.set .z (o.getF b)
  | .clamp _ b => { s with secret := o.getB b }
  | .smult _ b c | .dshared _ b c => { s with secret := o.getB b, point := o.getB c }
  | .dpub _ b => { s with secret := o.getB b, point := basePoint }

/-- The results of a command from their cells to its destinations (R8: then write). -/
def microStore (i : Instr) (s : Scratch) (d : Data) : Data :=
  match i with
  | .fadd a _ | .fdiff a _ | .fsma a _ _ | .fmul a _ _ | .fsqr a _ | .fcopy a _ => d.setF a (s.f .x)
  | .decode a _ => d.setF a (s.f .q)
  | .encode a _ => d.setB a s.out
  | .cswap a b _ => (d.setF a (s.f .x)).setF b (s.f .xp)
  | .lstep a b c e _ => (((d.setF a (s.f .x)).setF b (s.f .z)).setF c (s.f .xp)).setF e (s.f .zp)
  | .ladder a b _ _ => (d.setF a (s.f .x)).setF b (s.f .z)
  | .invert a _ => d.setF a (s.f .zinv)
  | .clamp a _ => d.setB a s.scalar
  | .smult a _ _ | .dpub a _ | .dshared a _ _ => d.setB a s.out

/-- The kinds of operation R239 counts. -/
inductive OpKind where
  | copy | add | difference | multiply | square | scalarMultiplyAdd | swap | clamp | decode | encode | control
deriving DecidableEq, Repr

/-- The kind of an internal step; `control` is the selection of a bit or the ladder's start, which R239 does not count. -/
def MicroOp.kind : MicroOp → OpKind
  | .copy _ _ => .copy
  | .add _ _ _ => .add
  | .diff _ _ _ => .difference
  | .mul _ _ _ => .multiply
  | .sqr _ _ => .square
  | .smaK _ _ _ | .smaA24 _ _ _ => .scalarMultiplyAdd
  | .swap _ _ => .swap
  | .flag | .bit _ | .last | .start => .control
  | .clamp => .clamp
  | .decode => .decode
  | .encode => .encode

/-- How many operations of kind `k` the command performs, for every input (R239). -/
def opCount (o : Opcode) (k : OpKind) : Nat := (microProgram o).countP fun op => decide (op.kind = k)

end Sys2Proof.Machine
end

