-- ==== Sys2Proof/Safety.lean ====
section
/-! DEFINITION. What counts as a safe run and as a reachable-looking state, in the terms the statements use. -/

namespace Sys2Proof.Machine

/-- *Quiescent*: BUSY = 0; "only a quiescent state has all results visible" (70_reset_and_hazards.md R240). -/
abbrev State.Quiescent (s : State) : Prop := s.busy = false

/-- An event the block performs: every event but an access of an illegal form (20_memory.md R51). -/
def Action.legal : Action → Bool
  | .read off n | .write off n _ => (locate off n).isSome
  | .complete | .reset => true

/-- Every event still to come is one the block performs. -/
abbrev State.LegalRun (s : State) : Prop := ∀ a ∈ s.pending, a.legal = true

/-- What `ERRCODE` and `ERRINFO` hold beside `ERR` (10_state.md R27, 60_exceptions.md R201): nothing recorded while ERR = 0;
else a code of the three, with a word that deserves that code, or an offset of the window. -/
def State.RecordOk (s : State) : Prop :=
  (s.err = false ∧ s.errCode = 0 ∧ s.errInfo = 0)
  ∨ (s.err = true ∧ s.errCode = 1 ∧ classify s.errInfo = .illegalOpcode)
  ∨ (s.err = true ∧ s.errCode = 2 ∧ classify s.errInfo = .illegalOperand)
  ∨ (s.err = true ∧ s.errCode = 3 ∧ s.errInfo.toNat < Config.windowSize)

/-- The invariant of CORE: `CMD` is 0 or an accepted word (R25); the command in flight is the one `CMD` holds, and what was
latched for it is still what the registers, buffers and `K` hold (20_memory.md R55); BUSY and DONE are never both 1 (R26);
the error record is one R201 allows. -/
structure State.Inv (s : State) : Prop where
  cmdAccepted : s.cmd = 0 ∨ ∃ i, classify s.cmd = .command i
  flightIsCmd : ∀ l, s.inFlight = some l → classify s.cmd = .command l.instr
  latchedHolds : ∀ l, s.inFlight = some l → l.src = s.data
  busyOrDone : s.busy = true → s.done = false
  record : s.RecordOk

end Sys2Proof.Machine
end

