-- ==== Sys2Proof/Certificates/Slice0/Obligations.lean ====
section
/-! DEFINITION. The statements about CORE. Each docstring names the rule of spec/ it formalises; a clause that rests on a
choice of the model names its log entry (notes/assumptions). -/

open Sys2Proof Sys2Proof.Machine

namespace Sys2Proof.Claims

/-! ## What the statements are written with -/

/-- Everything a completion leaves as it was, beside the registers and buffers (60_exceptions.md R209), and the two bits it
sets: BUSY = 0, DONE = 1. -/
def CompletedFrom (s t : State) : Prop :=
  t.busy = false ∧ t.done = true ∧ t.err = s.err ∧ t.errCode = s.errCode ∧ t.errInfo = s.errInfo ∧ t.cmd = s.cmd ∧
  t.data.k = s.data.k ∧ t.pending = s.pending ∧ t.replies = s.replies

/-- Only the field registers of `rs` may differ; every buffer is as it was. -/
def OnlyRegs (rs : List FReg) (s t : State) : Prop :=
  (∀ r, r ∉ rs → t.data.getF r = s.data.getF r) ∧ ∀ k, t.data.getB k = s.data.getB k

/-- Only the buffers of `ks` may differ; every field register is as it was. -/
def OnlyBufs (ks : List BReg) (s t : State) : Prop :=
  (∀ r, t.data.getF r = s.data.getF r) ∧ ∀ k, k ∉ ks → ∀ j, byteAt (t.data.getB k) j = byteAt (s.data.getB k) j

/-- The record of 60_exceptions.md R203: an error is recorded only if none is. -/
def recordFirst (s : State) (code : BitVec 4) (info : Word32) : State :=
  if s.err = true then s else { s with err := true, errCode := code, errInfo := info }

/-- Column `op` and `mask` of spec/opcode_table.json (30_encoding.md R81, R82). -/
def opcodeRows : List (Nat × Nat) :=
  [(0x01, 0xFF00FFFF), (0x02, 0xFF00FFFF), (0x03, 0xFF000FFF), (0x04, 0xFF000FFF), (0x05, 0xFF00FFFF), (0x06, 0xFF00FFFF),
   (0x10, 0xFF0CFFFF), (0x11, 0xFFC0FFFF), (0x20, 0xFF00EFFF), (0x30, 0xFF00000F), (0x31, 0xFF00C0FF), (0x40, 0xFF00FFFF),
   (0x50, 0xFFCCFFFF), (0x51, 0xFFCCCFFF), (0x52, 0xFFCCFFFF), (0x53, 0xFFCCCFFF)]

/-- Bits `lo + 3` to `lo` of a word. -/
def nibble (w : Word32) (lo : Nat) : Nat := w.toNat / 2 ^ lo % 16

/-- The constraints of 30_encoding.md R85, on the word: two destinations coincide. -/
def Coinciding (w : Word32) : Prop :=
  (w.toNat / 2 ^ 24 = 0x30 ∧
    (nibble w 20 = nibble w 16 ∨ nibble w 20 = nibble w 12 ∨ nibble w 20 = nibble w 8 ∨
     nibble w 16 = nibble w 12 ∨ nibble w 16 = nibble w 8 ∨ nibble w 12 = nibble w 8)) ∨
  (w.toNat / 2 ^ 24 = 0x31 ∧ nibble w 20 = nibble w 16)

/-- The buffer accesses of 20_memory.md R51. -/
def BufferAccess (off n : Nat) : Prop :=
  0x080 ≤ off ∧ off ≤ 0x0FF ∧ (n = 1 ∨ n = 2 ∨ n = 4 ∨ n = 8) ∧ n ∣ off

/-- The limb accesses of R51, R53. -/
def LimbAccess (off n : Nat) : Prop := n = 8 ∧ ∃ r j, r < 16 ∧ j < 5 ∧ off = 0x400 + 64 * r + 8 * j

/-- The accesses BUSY guards, reads and writes alike (R55): `K`, any buffer byte, any limb. -/
def DataAccess (off n : Nat) : Prop := (off = 0x008 ∧ n = 8) ∨ BufferAccess off n ∨ LimbAccess off n

/-- The writes BUSY guards (R55): beside those accesses the writes of `CMD` and of `ERRINFO`, whose reads R55 excepts. -/
def GuardedWrite (off n : Nat) : Prop := DataAccess off n ∨ (n = 4 ∧ (off = 0x000 ∨ off = 0x010))

/-- The accesses of R54: 4 or 8 bytes, aligned, all of them in one of the reserved rows of R50. -/
def ReservedAccess (off n : Nat) : Prop :=
  (n = 4 ∨ n = 8) ∧ n ∣ off ∧
  ((0x014 ≤ off ∧ off + n ≤ 0x080) ∨ (0x100 ≤ off ∧ off + n ≤ 0x400) ∨
   ∃ r < 16, 0x400 + 64 * r + 40 ≤ off ∧ off + n ≤ 0x400 + 64 * r + 64)

/-- The accesses of the 32-bit control registers (R51). -/
def ControlAccess (off n : Nat) : Prop := n = 4 ∧ (off = 0x000 ∨ off = 0x004 ∨ off = 0x010)

/-- Every access the block performs (R51, R54). -/
def LegalAccess (off n : Nat) : Prop := ControlAccess off n ∨ DataAccess off n ∨ ReservedAccess off n

/-- The data after a write of `n` bytes is stored at the place it reaches (R50, R52, R53): `K`, the bytes from `j` on, or one
limb; a write of `ERRINFO` (read-only, log 10) or of a reserved offset stores nothing, and neither does one of `CMD` or
`STATUS`. -/
def stored (d : Data) (n : Nat) (v : Limb) : Place → Data
  | .k => { d with k := v }
  | .buffer k j => d.setB k (setBytesWord (d.getB k) j v n)
  | .limb r j => d.setF r ((d.getF r).setLimb j v)
  | .cmd | .status | .errInfo | .reserved => d

/-! The exact limbs of 40_field_arithmetic.md R103, R106 and R109, written out as numbers and taken modulo `2^64` and `2^128`
where the rules do, without the model's own functions. -/

/-- The limbs of `f` as numbers. -/
def limbsOf (f : FE) : Fin 5 → Nat := fun j => (f.limb j).toNat

/-- `link(x, y, k)` of R103: if `d[x]` is negative, lend `2^51` to it and take `k` from `d[y]`. -/
def diffLink (d : Fin 5 → Nat) (l : Fin 5 × Fin 5 × Nat) : Fin 5 → Nat :=
  if 2 ^ 63 ≤ d l.1 then fun j =>
    if j = l.1 then (d j + 2 ^ 51) % 2 ^ 64 else if j = l.2.1 then (d j + 2 ^ 64 - l.2.2) % 2 ^ 64 else d j
  else d

/-- `Difference(out, in)` of R103: the limb-wise difference, then the nine links in their order. -/
def diffLimbs (out inp : Fin 5 → Nat) : Fin 5 → Nat :=
  [(0, 1, 1), (1, 2, 1), (2, 3, 1), (3, 4, 1), (4, 0, 19), (0, 1, 1), (1, 2, 1), (2, 3, 1), (3, 4, 1)].foldl diffLink
    fun j => (inp j + 2 ^ 64 - out j) % 2 ^ 64

/-- `ScalarMultiplyAdd(in, scalar, add)` of R106: the running products `a`, the top carry folded into limb 0 and not carried
on, then the limb-wise sum. -/
def smaLimbs (inp : Fin 5 → Nat) (scalar : Nat) (add : Fin 5 → Nat) : Fin 5 → Nat :=
  let carry := fun a : Nat => a / 2 ^ 51 % 2 ^ 64
  let a0 := inp 0 * scalar
  let a1 := (inp 1 * scalar + carry a0) % 2 ^ 128
  let a2 := (inp 2 * scalar + carry a1) % 2 ^ 128
  let a3 := (inp 3 * scalar + carry a2) % 2 ^ 128
  let a4 := (inp 4 * scalar + carry a3) % 2 ^ 128
  ![(a0 % 2 ^ 51 + 19 * carry a4 + add 0) % 2 ^ 64, (a1 % 2 ^ 51 + add 1) % 2 ^ 64, (a2 % 2 ^ 51 + add 2) % 2 ^ 64,
    (a3 % 2 ^ 51 + add 3) % 2 ^ 64, (a4 % 2 ^ 51 + add 4) % 2 ^ 64]

/-- The accumulators of R108, modulo `2^128`. -/
def mulSums (x y : Fin 5 → Nat) : Fin 5 → Nat :=
  ![(x 0 * y 0 + 19 * (x 1 * y 4 + x 2 * y 3 + x 3 * y 2 + x 4 * y 1)) % 2 ^ 128,
    (x 0 * y 1 + x 1 * y 0 + 19 * (x 2 * y 4 + x 3 * y 3 + x 4 * y 2)) % 2 ^ 128,
    (x 0 * y 2 + x 1 * y 1 + x 2 * y 0 + 19 * (x 3 * y 4 + x 4 * y 3)) % 2 ^ 128,
    (x 0 * y 3 + x 1 * y 2 + x 2 * y 1 + x 3 * y 0 + 19 * (x 4 * y 4)) % 2 ^ 128,
    (x 0 * y 4 + x 1 * y 3 + x 2 * y 2 + x 3 * y 1 + x 4 * y 0) % 2 ^ 128]

/-- `Carry5(t)` of R109: each carry cut to 64 bits, the last one folded into limb 0 times 19, and the second stage through
limb 1 into limb 2, which is not masked. -/
def carryLimbs (t : Fin 5 → Nat) : Fin 5 → Nat :=
  let carry := fun a : Nat => a / 2 ^ 51 % 2 ^ 64
  let t1 := (t 1 + carry (t 0)) % 2 ^ 128
  let t2 := (t 2 + carry t1) % 2 ^ 128
  let t3 := (t 3 + carry t2) % 2 ^ 128
  let t4 := (t 4 + carry t3) % 2 ^ 128
  let r0 := (t 0 % 2 ^ 51 + 19 * carry t4) % 2 ^ 64
  let r1 := (t1 % 2 ^ 51 + r0 / 2 ^ 51) % 2 ^ 64
  ![r0 % 2 ^ 51, r1 % 2 ^ 51, (t2 % 2 ^ 51 + r1 / 2 ^ 51) % 2 ^ 64, t3 % 2 ^ 51, t4 % 2 ^ 51]

/-- The field registers a command reads (the operand columns of R82). -/
def regSources : Instr → List FReg
  | .fadd a b | .fdiff a b | .cswap a b _ => [a, b]
  | .fsma _ b c | .fmul _ b c => [b, c]
  | .fsqr _ b | .fcopy _ b | .encode _ b | .invert _ b => [b]
  | .lstep a b c d e => [a, b, c, d, e]
  | .ladder _ _ _ d => [d]
  | .decode _ _ | .clamp _ _ | .smult _ _ _ | .dpub _ _ | .dshared _ _ _ => []

/-- The buffers a command reads. -/
def bufSources : Instr → List BReg
  | .decode _ b | .clamp _ b | .dpub _ b => [b]
  | .ladder _ _ c _ => [c]
  | .smult _ b c | .dshared _ b c => [b, c]
  | .fadd _ _ | .fdiff _ _ | .fsma _ _ _ | .fmul _ _ _ | .fsqr _ _ | .fcopy _ _ | .encode _ _ | .cswap _ _ _
  | .lstep _ _ _ _ _ | .invert _ _ => []

/-- `K` "is read by exactly one command, `FSMA`" (10_state.md R24). -/
def readsK : Instr → Bool
  | .fsma _ _ _ => true
  | .fadd _ _ | .fdiff _ _ | .fmul _ _ _ | .fsqr _ _ | .fcopy _ _ | .decode _ _ | .encode _ _ | .cswap _ _ _
  | .lstep _ _ _ _ _ | .ladder _ _ _ _ | .invert _ _ | .clamp _ _ | .smult _ _ _ | .dpub _ _ | .dshared _ _ _ => false

/-- The field registers a command writes. -/
def regDests : Instr → List FReg
  | .fadd a _ | .fdiff a _ | .fsma a _ _ | .fmul a _ _ | .fsqr a _ | .fcopy a _ | .decode a _ | .invert a _ => [a]
  | .cswap a b _ | .ladder a b _ _ => [a, b]
  | .lstep a b c d _ => [a, b, c, d]
  | .encode _ _ | .clamp _ _ | .smult _ _ _ | .dpub _ _ | .dshared _ _ _ => []

/-- The buffers a command writes. -/
def bufDests : Instr → List BReg
  | .encode a _ | .clamp a _ | .smult a _ _ | .dpub a _ | .dshared a _ _ => [a]
  | .fadd _ _ | .fdiff _ _ | .fsma _ _ _ | .fmul _ _ _ | .fsqr _ _ | .fcopy _ _ | .decode _ _ | .cswap _ _ _
  | .lstep _ _ _ _ _ | .ladder _ _ _ _ | .invert _ _ => []

/-- The host issues the commands one after the other, each completed before the next (30_encoding.md R88). -/
def issue (is : List Instr) : List Action :=
  is.flatMap fun i => [.write 0x000 4 ((encode i).setWidth 64), .complete]

/-- The commands of the host-driven ladder (95_test_vectors.md, program P3): for bits `k - 1` down to 0 of the scalar `n` two
CSWAPs by the bit xor the one before, and an LSTEP; then the two CSWAPs by the last bit. -/
def hostLadder (a b c d e : FReg) (n : Bytes32) : Nat → BitVec 1 → List Instr
  | 0, last => [.cswap a c last, .cswap b d last]
  | k + 1, last =>
    let bit := (scalarBit n k).setWidth 1
    .cswap a c (bit ^^^ last) :: .cswap b d (bit ^^^ last) :: .lstep a b c d e :: hostLadder a b c d e n k bit

/-- A host access, that is an event that is neither a completion nor a reset. -/
def IsAccess (a : Action) : Prop := a ≠ .complete ∧ a ≠ .reset

/-- The 32 zero bytes. -/
def zeroBytes : Bytes32 := Vector.replicate 32 0

/-- The limbs of `p`. -/
def limbsOfP : FE := ⟨0x7FFFFFFFFFFED#64, 0x7FFFFFFFFFFFF#64, 0x7FFFFFFFFFFFF#64, 0x7FFFFFFFFFFFF#64, 0x7FFFFFFFFFFFF#64⟩

end Sys2Proof.Claims

open Sys2Proof.Claims

/-! ## Encoding -/

/-- Words the spec writes out decode as it says there: in 30_encoding.md R88, in 95_test_vectors.md section 2.10 and section 3
(0x02410000 in P1, 0x05410000 in P4), and in 40_field_arithmetic.md R115 (0x06920000). -/
def Obligations.SpecWordsDecode : Prop :=
  classify 0x01120000 = .command (.fadd 1 2) ∧ classify 0x02410000 = .command (.fdiff 4 1) ∧
  classify 0x03123000 = .command (.fsma 1 2 3) ∧ classify 0x04312000 = .command (.fmul 3 1 2) ∧
  classify 0x05410000 = .command (.fsqr 4 1) ∧ classify 0x06920000 = .command (.fcopy 9 2) ∧
  classify 0x10410000 = .command (.decode 4 1) ∧ classify 0x11250000 = .command (.encode 2 5) ∧
  classify 0x20121000 = .command (.cswap 1 2 1) ∧ classify 0x30012340 = .command (.lstep 0 1 2 3 4) ∧
  classify 0x31010400 = .command (.ladder 0 1 0 4) ∧ classify 0x40510000 = .command (.invert 5 1) ∧
  classify 0x50000000 = .command (.clamp 0 0) ∧ classify 0x51201000 = .command (.smult 2 0 1) ∧
  classify 0x52200000 = .command (.dpub 2 0) ∧ classify 0x53302000 = .command (.dshared 3 0 2) ∧
  classify 0x00000000 = .illegalOpcode ∧ classify 0x01120001 = .illegalOperand ∧ classify 0x30011340 = .illegalOperand

/-- The word of every command, with every operand at every value its field has, reads back as that command by the row and
fields of the opcode table (R80 to R83); and `classify`, the whole procedure of R86, accepts it exactly when the constraints of
R85 hold and else answers `IllegalOperand`. That `decode` alone, which does not check R85, answers a command for an LSTEP or a
LADDER with coinciding destinations too is the model's choice (log 14). -/
def Obligations.DecodeEncodeAgree : Prop :=
  ∀ i : Instr, decode (encode i) = .command i ∧
    classify (encode i) = if i.wf = true then .command i else .illegalOperand

/-- R86: every word is exactly one of command, `IllegalOpcode`, `IllegalOperand`, by the table of R81 and R82 and the
constraints of R85, written out here; and an accepted word is the word of its command. -/
def Obligations.ClassifyFollowsTable : Prop :=
  ∀ w : Word32,
    (w.toNat / 2 ^ 24 ∉ opcodeRows.map Prod.fst → classify w = .illegalOpcode) ∧
    ∀ row ∈ opcodeRows, w.toNat / 2 ^ 24 = row.1 →
      ((w &&& BitVec.ofNat 32 row.2 ≠ BitVec.ofNat 32 (row.1 * 2 ^ 24) ∨ Coinciding w) → classify w = .illegalOperand) ∧
      ((w &&& BitVec.ofNat 32 row.2 = BitVec.ofNat 32 (row.1 * 2 ^ 24) ∧ ¬ Coinciding w) →
        ∃ i, classify w = .command i ∧ encode i = w)

/-! ## Command handling and errors -/

/-- R202, the five cases of a write to `CMD` in their order, with the record of R203. -/
def Obligations.CmdWriteCases : Prop :=
  ∀ (s : State) (v : Limb) (rest : List Action), s.pending = .write 0x000 4 v :: rest →
    (s.busy = true → step s = .next (recordFirst { s with pending := rest } 3 0x000)) ∧
    (s.busy = false → s.err = true → step s = .next { s with pending := rest }) ∧
    (s.busy = false → s.err = false → classify (v.setWidth 32) = .illegalOpcode →
      step s = .next { s with pending := rest, err := true, errCode := 1, errInfo := v.setWidth 32 }) ∧
    (s.busy = false → s.err = false → classify (v.setWidth 32) = .illegalOperand →
      step s = .next { s with pending := rest, err := true, errCode := 2, errInfo := v.setWidth 32 }) ∧
    ∀ i, s.busy = false → s.err = false → classify (v.setWidth 32) = .command i →
      step s = .next { s with pending := rest, cmd := v.setWidth 32, done := false, inFlight := some ⟨i, s.data⟩ }

/-- R205: while ERR = 1 every event but a write to `STATUS` with bit 2 = 1 and a reset keeps the first error's record, and
with BUSY = 0 no command starts. -/
def Obligations.FirstErrorIsKept : Prop :=
  ∀ (s t : State) (a : Action) (rest : List Action), s.pending = a :: rest → s.err = true → a ≠ .reset →
    (∀ v, a = .write 0x004 4 v → v.getLsbD 2 = false) → step s = .next t →
    t.err = true ∧ t.errCode = s.errCode ∧ t.errInfo = s.errInfo ∧ (s.busy = false → t.busy = false)

/-- R204: a 32-bit write to `STATUS` with bit 2 = 1 clears ERR, ERRCODE and ERRINFO, one with bit 2 = 0 leaves them; the same
write clears DONE if bit 1 = 1; nothing else changes, BUSY or not; and reset clears the error. -/
def Obligations.ErrorClearedByWrite : Prop :=
  ∀ (s : State) (v : Limb) (rest : List Action),
    (s.pending = .write 0x004 4 v :: rest →
      ∃ t, step s = .next t ∧
        (v.getLsbD 2 = true → t.err = false ∧ t.errCode = 0 ∧ t.errInfo = 0) ∧
        (v.getLsbD 2 = false → t.err = s.err ∧ t.errCode = s.errCode ∧ t.errInfo = s.errInfo) ∧
        t.done = (s.done && !v.getLsbD 1) ∧
        t.data = s.data ∧ t.cmd = s.cmd ∧ t.inFlight = s.inFlight ∧ t.replies = s.replies ∧ t.pending = rest) ∧
    (s.pending = .reset :: rest → ∃ t, step s = .next t ∧ t.err = false ∧ t.errCode = 0 ∧ t.errInfo = 0)

/-- The engine's step runs the command in flight (R209): it is `exec` of that command, at the state with the event taken
off, whether its completion is the next event or no event is left (R238 (a); the list of events is log 1). -/
def Obligations.StepRunsCommandInFlight : Prop :=
  ∀ (s : State) (l : InFlight), s.inFlight = some l →
    (∀ rest, s.pending = .complete :: rest → step s = exec l.instr { s with pending := rest }) ∧
    (s.pending = [] → step s = exec l.instr s)

/-- A table word placed as the next command is decoded and run by the very next step, at the state that has just accepted it
(the model's interface; log 1). -/
def Obligations.PlacedWordRunsNext : Prop :=
  ∀ (s : State) (nbits w : Nat) (i : Instr), decodeTableWord nbits w = some i → i.wf = true →
    step (s.withFetchWord nbits w) =
      exec i { s with cmd := BitVec.ofNat 32 (w % 2 ^ nbits), done := false, inFlight := some ⟨i, s.data⟩ }

/-- R209: "The engine does nothing when BUSY = 0"; an idle block keeps its state (R212). -/
def Obligations.IdleEngineDoesNothing : Prop :=
  ∀ s : State, s.busy = false →
    (∀ i, exec i s = .next s) ∧ (s.pending = [] → step s = .next s) ∧
    ∀ rest, s.pending = .complete :: rest → step s = .next { s with pending := rest }

/-- R209, for every command: completion happens, clears BUSY, sets DONE, and changes no register or buffer that is not a
destination, nor ERR, ERRCODE, ERRINFO, CMD or K. -/
def Obligations.CompletionFrame : Prop :=
  ∀ (i : Instr) (s : State) (l : InFlight), s.inFlight = some l →
    ∃ t, exec i s = .next t ∧ CompletedFrom s t ∧
      (∀ r, r ∉ regDests i → ∀ j, (t.data.getF r).limb j = (s.data.getF r).limb j) ∧
      ∀ k, k ∉ bufDests i → ∀ j, byteAt (t.data.getB k) j = byteAt (s.data.getB k) j

/-- R200: no command, and no step, ends in a fault; a step stops only at an access that is no legal form (20_memory.md R51). -/
def Obligations.NothingFails : Prop :=
  (∀ (i : Instr) (s : State), ∃ t, exec i s = .next t) ∧
  ∀ s : State, (∃ t, step s = .next t) ∨
    ∃ off n rest, ¬ LegalAccess off n ∧ (s.pending = .read off n :: rest ∨ ∃ v, s.pending = .write off n v :: rest) ∧
      step s = .refused (.illegalAccess off n)

/-- R200: "The result of a command depends on the operand contents at acceptance and on nothing else". -/
def Obligations.ResultDependsOnOperandsOnly : Prop :=
  ∀ (i : Instr) (s s' : State) (l l' : InFlight), s.inFlight = some l → s'.inFlight = some l' →
    (∀ r ∈ regSources i, l.src.getF r = l'.src.getF r) → (∀ k ∈ bufSources i, l.src.getB k = l'.src.getB k) →
    (readsK i = true → l.src.k = l'.src.k) →
    ∃ t t', exec i s = .next t ∧ exec i s' = .next t' ∧
      (∀ r ∈ regDests i, t.data.getF r = t'.data.getF r) ∧ ∀ k ∈ bufDests i, t.data.getB k = t'.data.getB k

/-! ## The sixteen commands: encoding, result, frame -/

/-- R102 FADD. -/
def Obligations.FaddAddsLimbwise : Prop :=
  ∀ a b : FReg,
    classify (BitVec.ofNat 32 (0x01000000 + a.val * 2 ^ 20 + b.val * 2 ^ 16)) = .command (.fadd a b) ∧
    ∀ (s : State) (l : InFlight), s.inFlight = some l →
      ∃ t, exec (.fadd a b) s = .next t ∧ CompletedFrom s t ∧ OnlyRegs [a] s t ∧
        ∀ j, ((t.data.getF a).limb j).toNat = (((l.src.getF a).limb j).toNat + ((l.src.getF b).limb j).toNat) % 2 ^ 64

/-- R104 FDIFF: `F[b] - F[a]`, limb for limb as the nine links of R103 leave it; a register minus itself is zero. -/
def Obligations.FdiffSubtractsReversed : Prop :=
  ∀ a b : FReg,
    classify (BitVec.ofNat 32 (0x02000000 + a.val * 2 ^ 20 + b.val * 2 ^ 16)) = .command (.fdiff a b) ∧
    ∀ (s : State) (l : InFlight), s.inFlight = some l →
      ∃ t, exec (.fdiff a b) s = .next t ∧ CompletedFrom s t ∧ OnlyRegs [a] s t ∧
        t.data.getF a = feDifference (l.src.getF a) (l.src.getF b) ∧
        (∀ j, ((t.data.getF a).limb j).toNat = diffLimbs (limbsOf (l.src.getF a)) (limbsOf (l.src.getF b)) j) ∧
        (a = b → t.data.getF a = ⟨0, 0, 0, 0, 0⟩)

/-- R107 FSMA: the scalar is `K`; the limbs are those of R106's sequence; `K` = 0 gives `F[c]`. -/
def Obligations.FsmaMultipliesByK : Prop :=
  ∀ a b c : FReg,
    classify (BitVec.ofNat 32 (0x03000000 + a.val * 2 ^ 20 + b.val * 2 ^ 16 + c.val * 2 ^ 12)) = .command (.fsma a b c) ∧
    ∀ (s : State) (l : InFlight), s.inFlight = some l →
      ∃ t, exec (.fsma a b c) s = .next t ∧ CompletedFrom s t ∧ OnlyRegs [a] s t ∧
        t.data.getF a = feScalarMultiplyAdd (l.src.getF b) l.src.k (l.src.getF c) ∧
        (∀ j, ((t.data.getF a).limb j).toNat = smaLimbs (limbsOf (l.src.getF b)) l.src.k.toNat (limbsOf (l.src.getF c)) j) ∧
        (l.src.k = 0 → t.data.getF a = l.src.getF c)

/-- R110 FMUL, limb for limb as R109's carry stage leaves the accumulators of R108, limb 2 not masked; a zero factor gives zero, and the factor one gives back the other factor when
its limbs are below `2^51`. -/
def Obligations.FmulMultiplies : Prop :=
  ∀ a b c : FReg,
    classify (BitVec.ofNat 32 (0x04000000 + a.val * 2 ^ 20 + b.val * 2 ^ 16 + c.val * 2 ^ 12)) = .command (.fmul a b c) ∧
    ∀ (s : State) (l : InFlight), s.inFlight = some l →
      ∃ t, exec (.fmul a b c) s = .next t ∧ CompletedFrom s t ∧ OnlyRegs [a] s t ∧
        t.data.getF a = feMultiply (l.src.getF b) (l.src.getF c) ∧
        (∀ j, ((t.data.getF a).limb j).toNat = carryLimbs (mulSums (limbsOf (l.src.getF b)) (limbsOf (l.src.getF c))) j) ∧
        (l.src.getF c = ⟨0, 0, 0, 0, 0⟩ → t.data.getF a = ⟨0, 0, 0, 0, 0⟩) ∧
        (l.src.getF c = ⟨1, 0, 0, 0, 0⟩ → (l.src.getF b).below (2 ^ 51) → t.data.getF a = l.src.getF b)

/-- R113 FSQR with R112: the result is `Multiply` of the operand with itself, limb for limb, and so the state is the one
`FMUL Fa, Fb, Fb` leaves. -/
def Obligations.FsqrSquares : Prop :=
  ∀ a b : FReg,
    classify (BitVec.ofNat 32 (0x05000000 + a.val * 2 ^ 20 + b.val * 2 ^ 16)) = .command (.fsqr a b) ∧
    ∀ (s : State) (l : InFlight), s.inFlight = some l →
      ∃ t, exec (.fsqr a b) s = .next t ∧ CompletedFrom s t ∧ OnlyRegs [a] s t ∧
        t.data.getF a = feMultiply (l.src.getF b) (l.src.getF b) ∧ exec (.fmul a b b) s = .next t

/-- R115 FCOPY with R114: all five limbs, whatever their value. -/
def Obligations.FcopyCopies : Prop :=
  ∀ a b : FReg,
    classify (BitVec.ofNat 32 (0x06000000 + a.val * 2 ^ 20 + b.val * 2 ^ 16)) = .command (.fcopy a b) ∧
    ∀ (s : State) (l : InFlight), s.inFlight = some l →
      ∃ t, exec (.fcopy a b) s = .next t ∧ CompletedFrom s t ∧ OnlyRegs [a] s t ∧
        ∀ j, (t.data.getF a).limb j = (l.src.getF b).limb j

/-- R131 DECODE: the groups of R130 as numbers; the buffers are unchanged. -/
def Obligations.DecodeUnpacksBytes : Prop :=
  ∀ (a : FReg) (b : BReg),
    classify (BitVec.ofNat 32 (0x10000000 + a.val * 2 ^ 20 + b.val * 2 ^ 16)) = .command (.decode a b) ∧
    ∀ (s : State) (l : InFlight), s.inFlight = some l →
      ∃ t, exec (.decode a b) s = .next t ∧ CompletedFrom s t ∧ OnlyRegs [a] s t ∧
        ∀ j : Fin 5, ((t.data.getF a).limb j).toNat = le (l.src.getB b) / 2 ^ (51 * j.val) % 2 ^ 51

/-- R133 ENCODE: `B[a] <- Encode(F[b])`; the zero register, the limbs of p and of 2p give 32 zero bytes. -/
def Obligations.EncodePacksLimbs : Prop :=
  ∀ (a : BReg) (b : FReg),
    classify (BitVec.ofNat 32 (0x11000000 + a.val * 2 ^ 20 + b.val * 2 ^ 16)) = .command (.encode a b) ∧
    ∀ (s : State) (l : InFlight), s.inFlight = some l →
      ∃ t, exec (.encode a b) s = .next t ∧ CompletedFrom s t ∧ OnlyBufs [a] s t ∧
        t.data.getB a = encodeFE (l.src.getF b) ∧
        (l.src.getF b = ⟨0, 0, 0, 0, 0⟩ ∨ l.src.getF b = limbsOfP ∨ l.src.getF b = feAdd limbsOfP limbsOfP →
          t.data.getB a = zeroBytes)

/-- R141 CSWAP with R140: flag 1 exchanges the two registers bit for bit, flag 0 keeps both, also when `a` = `b`. -/
def Obligations.CswapExchangesByFlag : Prop :=
  ∀ (a b : FReg) (flag : BitVec 1),
    classify (BitVec.ofNat 32 (0x20000000 + a.val * 2 ^ 20 + b.val * 2 ^ 16 + flag.toNat * 2 ^ 12))
      = .command (.cswap a b flag) ∧
    ∀ (s : State) (l : InFlight), s.inFlight = some l →
      ∃ t, exec (.cswap a b flag) s = .next t ∧ CompletedFrom s t ∧ OnlyRegs [a, b] s t ∧
        (flag = 1 → t.data.getF a = l.src.getF b ∧ t.data.getF b = l.src.getF a) ∧
        (flag = 0 → t.data.getF a = l.src.getF a ∧ t.data.getF b = l.src.getF b)

/-- R151 LSTEP: accepted exactly when `a`, `b`, `c`, `d` are pairwise distinct; the four results are `LadderStep` of the
values before the command; `nq` = (1 : 0) doubles to (1 : 0) limb for limb. -/
def Obligations.LstepDoublesAndAdds : Prop :=
  ∀ a b c d e : FReg,
    (a ≠ b ∧ a ≠ c ∧ a ≠ d ∧ b ≠ c ∧ b ≠ d ∧ c ≠ d →
      classify (BitVec.ofNat 32 (0x30000000 + a.val * 2 ^ 20 + b.val * 2 ^ 16 + c.val * 2 ^ 12 + d.val * 2 ^ 8 + e.val * 2 ^ 4))
        = .command (.lstep a b c d e) ∧
      ∀ (s : State) (l : InFlight), s.inFlight = some l →
        ∃ t, exec (.lstep a b c d e) s = .next t ∧ CompletedFrom s t ∧ OnlyRegs [a, b, c, d] s t ∧
          (⟨t.data.getF a, t.data.getF b, t.data.getF c, t.data.getF d⟩ : Pairs)
            = ladderStep ⟨l.src.getF a, l.src.getF b, l.src.getF c, l.src.getF d⟩ (l.src.getF e) ∧
          (l.src.getF a = ⟨1, 0, 0, 0, 0⟩ → l.src.getF b = ⟨0, 0, 0, 0, 0⟩ →
            t.data.getF a = ⟨1, 0, 0, 0, 0⟩ ∧ t.data.getF b = ⟨0, 0, 0, 0, 0⟩)) ∧
    (a = b ∨ a = c ∨ a = d ∨ b = c ∨ b = d ∨ c = d →
      classify (BitVec.ofNat 32 (0x30000000 + a.val * 2 ^ 20 + b.val * 2 ^ 16 + c.val * 2 ^ 12 + d.val * 2 ^ 8 + e.val * 2 ^ 4))
        = .illegalOperand)

/-- R153 LADDER: accepted exactly when `a` differs from `b`; the result is `Ladder` of the buffer and the register before the
command; a zero scalar gives exactly (1 : 0) for every `q` whatsoever. -/
def Obligations.LadderMultiplies : Prop :=
  ∀ (a b : FReg) (c : BReg) (d : FReg),
    (a ≠ b →
      classify (BitVec.ofNat 32 (0x31000000 + a.val * 2 ^ 20 + b.val * 2 ^ 16 + c.val * 2 ^ 12 + d.val * 2 ^ 8))
        = .command (.ladder a b c d) ∧
      ∀ (s : State) (l : InFlight), s.inFlight = some l →
        ∃ t, exec (.ladder a b c d) s = .next t ∧ CompletedFrom s t ∧ OnlyRegs [a, b] s t ∧
          (t.data.getF a, t.data.getF b) = ladder (l.src.getB c) (l.src.getF d) ∧
          (l.src.getB c = zeroBytes → t.data.getF a = ⟨1, 0, 0, 0, 0⟩ ∧ t.data.getF b = ⟨0, 0, 0, 0, 0⟩)) ∧
    (a = b →
      classify (BitVec.ofNat 32 (0x31000000 + a.val * 2 ^ 20 + b.val * 2 ^ 16 + c.val * 2 ^ 12 + d.val * 2 ^ 8))
        = .illegalOperand)

/-- R171 INVERT: `F[a] <- Invert(F[b])`; zero gives zero, one gives one, the limbs of p give the limbs of p. -/
def Obligations.InvertInverts : Prop :=
  ∀ a b : FReg,
    classify (BitVec.ofNat 32 (0x40000000 + a.val * 2 ^ 20 + b.val * 2 ^ 16)) = .command (.invert a b) ∧
    ∀ (s : State) (l : InFlight), s.inFlight = some l →
      ∃ t, exec (.invert a b) s = .next t ∧ CompletedFrom s t ∧ OnlyRegs [a] s t ∧
        t.data.getF a = invert (l.src.getF b) ∧
        (l.src.getF b = ⟨0, 0, 0, 0, 0⟩ ∨ l.src.getF b = ⟨1, 0, 0, 0, 0⟩ ∨ l.src.getF b = limbsOfP →
          t.data.getF a = l.src.getF b)

/-- R181 CLAMP: the three byte operations, every other byte copied; clamping a clamped value changes nothing; the clamped
scalar is a multiple of 8 in `[2^254, 2^255)` (bits 0 to 2 and 255 clear, bit 254 set). -/
def Obligations.ClampFixesBits : Prop :=
  ∀ a b : BReg,
    classify (BitVec.ofNat 32 (0x50000000 + a.val * 2 ^ 20 + b.val * 2 ^ 16)) = .command (.clamp a b) ∧
    ∀ (s : State) (l : InFlight), s.inFlight = some l →
      ∃ t, exec (.clamp a b) s = .next t ∧ CompletedFrom s t ∧ OnlyBufs [a] s t ∧
        byteAt (t.data.getB a) 0 = byteAt (l.src.getB b) 0 &&& 0xF8#8 ∧
        byteAt (t.data.getB a) 31 = (byteAt (l.src.getB b) 31 &&& 0x7F#8) ||| 0x40#8 ∧
        (∀ j, 1 ≤ j → j ≤ 30 → byteAt (t.data.getB a) j = byteAt (l.src.getB b) j) ∧
        clampBytes (t.data.getB a) = t.data.getB a ∧
        le (t.data.getB a) % 8 = 0 ∧ 2 ^ 254 ≤ le (t.data.getB a) ∧ le (t.data.getB a) < 2 ^ 255

/-- R183 SMULT with R182: the secret clamped, the point decoded, the ladder, the product with the inverse of its z, encoded. -/
def Obligations.SmultMultipliesPoint : Prop :=
  ∀ a b c : BReg,
    classify (BitVec.ofNat 32 (0x51000000 + a.val * 2 ^ 20 + b.val * 2 ^ 16 + c.val * 2 ^ 12)) = .command (.smult a b c) ∧
    ∀ (s : State) (l : InFlight), s.inFlight = some l →
      ∃ t, exec (.smult a b c) s = .next t ∧ CompletedFrom s t ∧ OnlyBufs [a] s t ∧
        t.data.getB a =
          encodeFE (feMultiply (ladder (clampBytes (l.src.getB b)) (decodeBytes (l.src.getB c))).1
            (invert (ladder (clampBytes (l.src.getB b)) (decodeBytes (l.src.getB c))).2))

/-- R185 DPUB with R180: what SMULT computes with `09 00 .. 00` as the point. -/
def Obligations.DpubUsesBasePoint : Prop :=
  ∀ a b : BReg,
    classify (BitVec.ofNat 32 (0x52000000 + a.val * 2 ^ 20 + b.val * 2 ^ 16)) = .command (.dpub a b) ∧
    ∀ (s : State) (l : InFlight), s.inFlight = some l →
      ∃ t, exec (.dpub a b) s = .next t ∧ CompletedFrom s t ∧ OnlyBufs [a] s t ∧
        ∃ base : Bytes32, byteAt base 0 = 9 ∧ (∀ j, 1 ≤ j → j ≤ 31 → byteAt base j = 0) ∧
          t.data.getB a = scalarMult (l.src.getB b) base ∧
          ∀ c, l.src.getB c = base → exec (.smult a b c) s = .next t

/-- R186 DSHARED: "identical in effect to SMULT with the same operands". -/
def Obligations.DsharedIsSmult : Prop :=
  ∀ a b c : BReg,
    classify (BitVec.ofNat 32 (0x53000000 + a.val * 2 ^ 20 + b.val * 2 ^ 16 + c.val * 2 ^ 12)) = .command (.dshared a b c) ∧
    ∀ (s : State) (l : InFlight), s.inFlight = some l →
      ∃ t, exec (.dshared a b c) s = .next t ∧ CompletedFrom s t ∧ OnlyBufs [a] s t ∧
        t.data.getB a = scalarMult (l.src.getB b) (l.src.getB c) ∧ exec (.smult a b c) s = .next t

/-! ## The register window -/

/-- R51 with R50 and R54: an access of a legal form is performed; every other access is given no meaning and is refused by
name (the refusal is the model's, as R51 asks; log 6). -/
def Obligations.LegalAccessesOnly : Prop :=
  ∀ (s : State) (off n : Nat) (rest : List Action),
    (s.pending = .read off n :: rest →
      (LegalAccess off n → ∃ t, step s = .next t) ∧ (¬ LegalAccess off n → step s = .refused (.illegalAccess off n))) ∧
    ∀ v, s.pending = .write off n v :: rest →
      (LegalAccess off n → ∃ t, step s = .next t) ∧ (¬ LegalAccess off n → step s = .refused (.illegalAccess off n))

/-- R53: a 64-bit read at `0x400 + 64*r + 8*j` returns `F[r][j]`; a write sets it and leaves every other limb, the buffers,
`K` and the control registers. -/
def Obligations.LimbReadAndWrite : Prop :=
  ∀ (s : State) (r : FReg) (j : Fin 5) (rest : List Action), s.busy = false →
    (s.pending = .read (0x400 + 64 * r.val + 8 * j.val) 8 :: rest →
      step s = .next { s with pending := rest, replies := (s.data.getF r).limb j :: s.replies }) ∧
    ∀ v, s.pending = .write (0x400 + 64 * r.val + 8 * j.val) 8 v :: rest →
      ∃ t, step s = .next t ∧ (t.data.getF r).limb j = v ∧
        (∀ r' j', (r', j') ≠ (r, j) → (t.data.getF r').limb j' = (s.data.getF r').limb j') ∧
        (∀ k i, byteAt (t.data.getB k) i = byteAt (s.data.getB k) i) ∧
        { t with data := s.data } = { s with pending := rest } ∧ t.data.k = s.data.k

/-- R52: an access of `n` = 1, 2, 4 or 8 bytes at an aligned buffer offset reads or writes bytes `o` to `o+n-1`, the byte at the
lowest offset in the least significant 8 bits; a write leaves every other byte, register and `K`. -/
def Obligations.BufferLittleEndian : Prop :=
  ∀ (s : State) (k : BReg) (o n : Nat) (rest : List Action), s.busy = false → (n = 1 ∨ n = 2 ∨ n = 4 ∨ n = 8) →
    n ∣ o → o < 32 →
    (s.pending = .read (0x080 + 32 * k.val + o) n :: rest →
      ∃ d : Limb, step s = .next { s with pending := rest, replies := d :: s.replies } ∧ d.toNat < 2 ^ (8 * n) ∧
        ∀ i < n, d.toNat / 2 ^ (8 * i) % 256 = (byteAt (s.data.getB k) (o + i)).toNat) ∧
    ∀ v : Limb, s.pending = .write (0x080 + 32 * k.val + o) n v :: rest →
      ∃ t, step s = .next t ∧
        (∀ i < n, (byteAt (t.data.getB k) (o + i)).toNat = v.toNat / 2 ^ (8 * i) % 256) ∧
        (∀ k' m, (k' ≠ k ∨ m < o ∨ o + n ≤ m) → byteAt (t.data.getB k') m = byteAt (s.data.getB k') m) ∧
        (∀ r, t.data.getF r = s.data.getF r) ∧
        { t with data := s.data } = { s with pending := rest } ∧ t.data.k = s.data.k

/-- R54: a reserved offset reads as 0 and ignores writes, without error or side effect, also while BUSY = 1. -/
def Obligations.ReservedReadsZero : Prop :=
  ∀ (s : State) (off n : Nat) (rest : List Action), ReservedAccess off n →
    (s.pending = .read off n :: rest → step s = .next { s with pending := rest, replies := 0 :: s.replies }) ∧
    ∀ v, s.pending = .write off n v :: rest → step s = .next { s with pending := rest }

/-- R24, R25, R27: `CMD` and `ERRINFO` read as the last accepted word and the recorded value, BUSY or not; `K` is read and
written whole when not BUSY. That a write to the read-only `ERRINFO` when not BUSY stores nothing is the model's reading
(log 10); while BUSY it is refused (R55). -/
def Obligations.ControlRegisterAccess : Prop :=
  ∀ (s : State) (rest : List Action),
    (s.pending = .read 0x000 4 :: rest →
      step s = .next { s with pending := rest, replies := s.cmd.setWidth 64 :: s.replies }) ∧
    (s.pending = .read 0x010 4 :: rest →
      step s = .next { s with pending := rest, replies := s.errInfo.setWidth 64 :: s.replies }) ∧
    (∀ v, s.busy = false → s.pending = .write 0x010 4 v :: rest → step s = .next { s with pending := rest }) ∧
    (s.busy = false → s.pending = .read 0x008 8 :: rest →
      step s = .next { s with pending := rest, replies := s.data.k :: s.replies }) ∧
    ∀ v, s.busy = false → s.pending = .write 0x008 8 v :: rest →
      step s = .next { s with pending := rest, data := { s.data with k := v } }

/-- The read of `STATUS` (table of 10_state.md section 3): bit 0 BUSY, bit 1 DONE, bit 2 ERR, bits 7:4 ERRCODE, bit 3 and
bits 31:8 zero, BUSY or not. -/
def Obligations.StatusReadLayout : Prop :=
  ∀ (s : State) (rest : List Action), s.pending = .read 0x004 4 :: rest →
    ∃ d : Limb, step s = .next { s with pending := rest, replies := d :: s.replies } ∧
      d.toNat = s.busy.toNat + 2 * s.done.toNat + 4 * s.err.toNat + 16 * s.errCode.toNat

/-- R55, while BUSY = 1: every access to `K`, a buffer or a limb and every write of `CMD` or `ERRINFO` is refused: nothing
changes but the record of `BusyAccess` with the access's offset, and a read returns 0; reads of `CMD`, `STATUS` and `ERRINFO` return them, and a
write of `STATUS` clears DONE and the error by its bits 1 and 2. None of these disturbs the command in flight. -/
def Obligations.BusyAccessRefused : Prop :=
  ∀ (s : State) (off n : Nat) (rest : List Action), s.busy = true →
    (DataAccess off n → s.pending = .read off n :: rest →
      ∃ t, step s = .next t ∧ t.replies = 0 :: s.replies ∧
        { t with replies := s.replies } = recordFirst { s with pending := rest } 3 (BitVec.ofNat 32 off)) ∧
    (GuardedWrite off n → ∀ v, s.pending = .write off n v :: rest →
      step s = .next (recordFirst { s with pending := rest } 3 (BitVec.ofNat 32 off))) ∧
    (ControlAccess off n → s.pending = .read off n :: rest →
      step s = .next { s with
        pending := rest
        replies :=
          (if off = 0x000 then s.cmd else if off = 0x004 then s.statusWord else s.errInfo).setWidth 64 :: s.replies }) ∧
    ∀ v : Limb, s.pending = .write 0x004 4 v :: rest →
      step s = .next { s with
        pending := rest
        done := s.done && !v.getLsbD 1
        err := s.err && !v.getLsbD 2
        errCode := if v.getLsbD 2 = true then 0 else s.errCode
        errInfo := if v.getLsbD 2 = true then 0 else s.errInfo }

/-- R55: "no architectural register or buffer changes between the acceptance of a command and its completion other than by
that completion", and the command in flight is not disturbed. -/
def Obligations.NothingChangesWhileBusy : Prop :=
  ∀ (s t : State) (a : Action) (rest : List Action), s.busy = true → s.pending = a :: rest → IsAccess a →
    step s = .next t → t.data = s.data ∧ t.cmd = s.cmd ∧ t.inFlight = s.inFlight ∧ t.pending = rest

/-- R56: a read that is not refused (R55) has no side effect: it returns what stands at the place the access reaches, and only
the replies grow; a write that is not refused and is not one of `CMD` or `STATUS` has no effect but to store its data at that
place: `K`, the bytes or the limb it names, and nothing for `ERRINFO` (log 10) and the reserved offsets. -/
def Obligations.AccessSideEffects : Prop :=
  ∀ (s : State) (off n : Nat) (p : Place) (rest : List Action), locate off n = some p →
    (¬ (s.busy = true ∧ DataAccess off n) → s.pending = .read off n :: rest →
      step s = .next { s with pending := rest, replies := s.peek n p :: s.replies }) ∧
    ∀ v, off ≠ 0x000 → off ≠ 0x004 → ¬ (s.busy = true ∧ GuardedWrite off n) → s.pending = .write off n v :: rest →
      step s = .next { s with pending := rest, data := stored s.data n v p }

/-! ## Reset, invariant, progress -/

/-- R31: what every register, buffer and control register holds after reset. -/
def Obligations.ResetStateIsZero : Prop :=
  (∀ r j, (State.reset.data.getF r).limb j = 0) ∧ (∀ k j, byteAt (State.reset.data.getB k) j = 0) ∧
  State.reset.data.k = 0 ∧ State.reset.cmd = 0 ∧ State.reset.statusWord = 0 ∧ State.reset.errInfo = 0 ∧
  State.reset.busy = false

/-- R230: reset may come at any time; every register takes its reset value and a command in flight is abandoned: it never
completes. (The events still to come and the data already read are the host's and stay: log 12.) -/
def Obligations.ResetAbandonsCommand : Prop :=
  ∀ (s : State) (rest : List Action), s.pending = .reset :: rest →
    ∃ t, step s = .next t ∧ t.data = State.reset.data ∧ t.cmd = 0 ∧ t.statusWord = 0 ∧ t.errInfo = 0 ∧ t.busy = false ∧
      t.pending = rest ∧ t.replies = s.replies ∧ engineStep t = .next t

/-- The invariant holds after reset (10_state.md section 7). -/
def Obligations.ResetMeetsInvariant : Prop := State.reset.Inv

/-- The invariant of CORE is kept by every step from every state that meets it: `CMD` holds 0 or an accepted word, the command
in flight is the one `CMD` holds, what was latched for it is still what the registers hold, BUSY and DONE are never both 1, and
ERR, ERRCODE and ERRINFO fit together (R25, R26, R27, R55, R201). -/
def Obligations.StepKeepsInvariant : Prop :=
  ∀ s t : State, s.Inv → step s = .next t → t.Inv

/-- R238 (a): the host cannot starve the engine. From every state whose events still to come are legal, the events run out and
BUSY is 0 after one step more than there are events. With no reset among them the command in flight completes on the way: at
most that many steps on, the engine's step comes with the command still in flight and the data untouched, and leaves what `exec`
of the command leaves there (its destinations written), BUSY = 0 and DONE = 1. (That the engine runs when the list of events is
used up, on which the bound rests, is the model's choice: log 1.) -/
def Obligations.CommandsComplete : Prop :=
  ∀ s : State, s.LegalRun →
    (∃ t, Sys2Proof.core.run (s.pending.length + 1) s = .next t ∧ t.pending = [] ∧ t.busy = false) ∧
    ∀ l, s.inFlight = some l → (∀ a ∈ s.pending, a ≠ .reset) →
      ∃ n u t w, n ≤ s.pending.length ∧ Sys2Proof.core.run n s = .next u ∧ u.inFlight = some l ∧ u.data = s.data ∧
        Sys2Proof.core.run (n + 1) s = .next t ∧ exec l.instr s = .next w ∧ t.data = w.data ∧ t.busy = false ∧ t.done = true

/-- R57, R8: a command accepted in `s` and completed after any legal host accesses leaves the registers and buffers it leaves
when it completes at once, whatever those accesses are. -/
def Obligations.AccessesDoNotDisturbCommand : Prop :=
  ∀ (s : State) (v : Limb) (i : Instr) (mid rest : List Action), s.busy = false → s.err = false →
    classify (v.setWidth 32) = .command i → (∀ a ∈ mid, a.legal = true ∧ IsAccess a) →
    s.pending = .write 0x000 4 v :: (mid ++ .complete :: rest) →
    ∃ t u, Sys2Proof.core.run (mid.length + 2) s = .next t ∧
      Sys2Proof.core.run 2 { s with pending := [.write 0x000 4 v, .complete] } = .next u ∧
      t.data = u.data ∧ t.cmd = v.setWidth 32 ∧ t.busy = false ∧ t.done = true ∧ t.pending = rest

/-! ## The arithmetic -/

/-- R108: the five accumulators, as numbers modulo `2^128`; and Multiply is symmetric for all inputs. -/
def Obligations.MultiplyAccumulators : Prop :=
  ∀ a b : FE,
    let x := fun j => (a.limb j).toNat
    let y := fun j => (b.limb j).toNat
    let t := mulAccumulate a b
    t.t0.toNat = (x 0 * y 0 + 19 * (x 1 * y 4 + x 2 * y 3 + x 3 * y 2 + x 4 * y 1)) % 2 ^ 128 ∧
    t.t1.toNat = (x 0 * y 1 + x 1 * y 0 + 19 * (x 2 * y 4 + x 3 * y 3 + x 4 * y 2)) % 2 ^ 128 ∧
    t.t2.toNat = (x 0 * y 2 + x 1 * y 1 + x 2 * y 0 + 19 * (x 3 * y 4 + x 4 * y 3)) % 2 ^ 128 ∧
    t.t3.toNat = (x 0 * y 3 + x 1 * y 2 + x 2 * y 1 + x 3 * y 0 + 19 * (x 4 * y 4)) % 2 ^ 128 ∧
    t.t4.toNat = (x 0 * y 4 + x 1 * y 3 + x 2 * y 2 + x 3 * y 1 + x 4 * y 0) % 2 ^ 128 ∧
    feMultiply a b = feMultiply b a

/-- Multiply under the carry discipline (40_field_arithmetic.md section 4, derived there): a tight result with the value of
the product modulo p. -/
def Obligations.MultiplyIsModularProduct : Prop :=
  ∀ a b : FE, a.loose → b.loose → (feMultiply a b).tight ∧ (feMultiply a b).val ≡ a.val * b.val [MOD Config.p]

/-- Difference on limbs below `2^62` (section 2, derived there): the signed value is right modulo p, and the unsigned value is
right exactly when no result limb has bit 63 set. -/
def Obligations.DifferenceKeepsSignedValue : Prop :=
  ∀ out inp : FE, out.below (2 ^ 62) → inp.below (2 ^ 62) →
    (feDifference out inp).sval ≡ (inp.val : Int) - out.val [ZMOD Config.p] ∧
    (((feDifference out inp).val : Int) ≡ (inp.val : Int) - out.val [ZMOD Config.p] ↔ (feDifference out inp).noSign)

/-- Difference on limbs strictly below `2^51` (section 2, derived there): limbs 0 to 3 below `2^51`, and limb 4 too unless
`val(out) - val(in) > p`, in which case limb 4 is all ones. -/
def Obligations.DifferenceOfReducedLimbs : Prop :=
  ∀ out inp : FE, out.below (2 ^ 51) → inp.below (2 ^ 51) →
    (feDifference out inp).l0.toNat < 2 ^ 51 ∧ (feDifference out inp).l1.toNat < 2 ^ 51 ∧
    (feDifference out inp).l2.toNat < 2 ^ 51 ∧ (feDifference out inp).l3.toNat < 2 ^ 51 ∧
    (out.val ≤ inp.val + Config.p → (feDifference out inp).l4.toNat < 2 ^ 51) ∧
    (out.val > inp.val + Config.p → (feDifference out inp).l4 = 0xFFFFFFFFFFFFFFFF#64)

/-- ScalarMultiplyAdd in its range (section 3, derived there): the value is right modulo p and no limb sum wraps. -/
def Obligations.ScalarMultiplyAddValue : Prop :=
  ∀ (inp add : FE) (k : Limb), k.toNat < 2 ^ 32 → inp.loose → add.below (2 ^ 63) →
    (feScalarMultiplyAdd inp k add).val ≡ inp.val * k.toNat + add.val [MOD Config.p] ∧
    (feScalarMultiplyAdd inp k add).l0.toNat < add.l0.toNat + 2 ^ 51 + 2 ^ 40 ∧
    ∀ j : Fin 5, j ≠ 0 → ((feScalarMultiplyAdd inp k add).limb j).toNat < (add.limb j).toNat + 2 ^ 51

/-- R130: the five groups, by their weights and by the four little-endian words; bit 255 is ignored, and nothing is reduced. -/
def Obligations.DecodeGroups : Prop :=
  ∀ s : Bytes32,
    let w := fun k => bytesWord s (8 * k) 8
    (∀ j : Fin 5, ((decodeBytes s).limb j).toNat = le s / 2 ^ (51 * j.val) % 2 ^ 51) ∧
    decodeBytes s =
      ⟨w 0 &&& mask51, ((w 0 >>> 51) ||| (w 1 <<< 13)) &&& mask51, ((w 1 >>> 38) ||| (w 2 <<< 26)) &&& mask51,
       ((w 2 >>> 25) ||| (w 3 <<< 39)) &&& mask51, (w 3 >>> 12) &&& mask51⟩ ∧
    (decodeBytes s).below (2 ^ 51) ∧ (decodeBytes s).val = le s % 2 ^ 255

/-- Encode (41_codec.md section 2, derived there): for every register content whatsoever, the unique canonical representative. -/
def Obligations.EncodeIsCanonical : Prop :=
  ∀ f : FE, le (encodeFE f) = f.val % Config.p

/-- The round trips of the codec (41_codec.md section 2, derived there). -/
def Obligations.CodecRoundTrips : Prop :=
  (∀ f : FE, f.below (2 ^ 51) → f.val < Config.p → decodeBytes (encodeFE f) = f) ∧
  ∀ s : Bytes32, (encodeFE (decodeBytes s) = s ↔ le s < Config.p) ∧
    le (encodeFE (decodeBytes s)) = le s % 2 ^ 255 % Config.p

/-- The algebra of one ladder step (43_ladder.md section 1, derived there): on tight inputs, while no Difference of the step
yields a limb with bit 63 set, the results are tight and stand for the doubling and the sum modulo p. -/
def Obligations.LadderStepAlgebra : Prop :=
  ∀ (p : Pairs) (q : FE), p.x.tight → p.z.tight → p.xp.tight → p.zp.tight → q.tight →
    (∀ d ∈ stepDifferences p, d.noSign) →
    let r := ladderStep p q
    let x : Int := p.x.val
    let z : Int := p.z.val
    let x' : Int := p.xp.val
    let z' : Int := p.zp.val
    let e := (x + z) ^ 2 - (x - z) ^ 2
    let a := (x' + z') * (x - z)
    let b := (x + z) * (x' - z')
    r.x.tight ∧ r.z.tight ∧ r.xp.tight ∧ r.zp.tight ∧
    (r.x.val : Int) ≡ (x + z) ^ 2 * (x - z) ^ 2 [ZMOD Config.p] ∧
    (r.z.val : Int) ≡ e * ((x + z) ^ 2 + 121665 * e) [ZMOD Config.p] ∧
    (r.xp.val : Int) ≡ (a + b) ^ 2 [ZMOD Config.p] ∧
    (r.zp.val : Int) ≡ q.val * (a - b) ^ 2 [ZMOD Config.p]

/-- Invert under the carry discipline (44_inverse.md, derived there): a tight result with the value `val(z)^(p-2)` modulo p. -/
def Obligations.InvertIsPower : Prop :=
  ∀ z : FE, z.loose →
    (invert z).tight ∧ ((invert z).val : ZMod Config.p) = (z.val : ZMod Config.p) ^ (Config.p - 2)

/-- ScalarMult (45_toplevel.md section 2): the output is canonical, a clamped secret gives the same result as the secret it
came from, and bit 255 of the point is ignored. -/
def Obligations.ScalarMultOfAnyInputs : Prop :=
  ∀ secret point : Bytes32,
    le (scalarMult secret point) < Config.p ∧
    scalarMult (clampBytes secret) point = scalarMult secret point ∧
    ∀ point' : Bytes32, le point' % 2 ^ 255 = le point % 2 ^ 255 → scalarMult secret point' = scalarMult secret point

/-- The point of 32 zero bytes gives 32 zero bytes for every secret (45_toplevel.md section 2, a corner case of SMULT). -/
def Obligations.ZeroPointGivesZero : Prop :=
  ∀ (a b c : BReg) (s : State) (l : InFlight), s.inFlight = some l → l.src.getB c = zeroBytes →
    ∃ t, exec (.smult a b c) s = .next t ∧ t.data.getB a = zeroBytes

/-- SMULT by the primitive commands (45_toplevel.md section 3, derived there), on any buffers and registers that leave each
other's operands alone: from every state ready for a command, `SMULT Ba, Bb, Bc` leaves in `B[a]` the bytes that `CLAMP Bk, Bb;
DECODE Fq, Bc; LADDER Fx, Fz, Bk, Fq; INVERT Fi, Fz; FMUL Fm, Fx, Fi; ENCODE Ba, Fm` leave there. -/
def Obligations.SmultByPrimitives : Prop :=
  ∀ (a b c k : BReg) (q x z i m : FReg) (s : State), k ≠ c → x ≠ z → i ≠ x → s.busy = false → s.err = false →
    ∃ t u,
      Sys2Proof.core.run 12 { s with
        pending := issue [.clamp k b, .decode q c, .ladder x z k q, .invert i z, .fmul m x i, .encode a m] } = .next t ∧
      Sys2Proof.core.run 2 { s with pending := issue [.smult a b c] } = .next u ∧
      t.data.getB a = u.data.getB a ∧ t.done = true ∧ u.done = true

/-! ## The internal step sequence -/

/-- The internal step sequence, chosen by the opcode alone (R237), computes what the command does: loaded with the latched
sources and run, its cells hold what `exec` writes to the destinations. (Its cells are the model's own; log 9.) -/
def Obligations.MicroProgramsComputeCommands : Prop :=
  ∀ (i : Instr) (s : State) (l : InFlight), s.inFlight = some l →
    exec i s = .next { s with
      data := microStore i (microRun (microProgram i.opcode) (microLoad i l.src)) s.data, done := true, inFlight := none }

/-- The operation counts of 70_reset_and_hazards.md section 4 (its table, derived there), and of 44_inverse.md, row by row. They
count the steps of the model's own internal sequences, which read the rules' lines in order (log 9), and leave out its control
steps. -/
def Obligations.OperationCounts : Prop :=
  (∀ row ∈ [(Opcode.fadd, OpKind.add), (.fdiff, .difference), (.fsma, .scalarMultiplyAdd), (.fmul, .multiply), (.fsqr, .square),
      (.fcopy, .copy), (.decode, .decode), (.encode, .encode), (.cswap, .swap), (.clamp, .clamp)],
    ∀ k : OpKind, k ≠ .control → opCount row.1 k = if k = row.2 then 1 else 0) ∧
  (opCount .lstep .add = 3 ∧ opCount .lstep .difference = 4 ∧ opCount .lstep .multiply = 5 ∧ opCount .lstep .square = 4 ∧
    opCount .lstep .scalarMultiplyAdd = 1 ∧ opCount .lstep .copy = 3) ∧
  (opCount .ladder .add = 768 ∧ opCount .ladder .difference = 1024 ∧ opCount .ladder .multiply = 1280 ∧
    opCount .ladder .square = 1024 ∧ opCount .ladder .scalarMultiplyAdd = 256 ∧ opCount .ladder .swap = 514) ∧
  (opCount .invert .square = 254 ∧ opCount .invert .multiply = 11) ∧
  ∀ o : Opcode, o = .smult ∨ o = .dpub ∨ o = .dshared →
    opCount o .clamp = 1 ∧ opCount o .decode = 1 ∧ opCount o .encode = 1 ∧
    opCount o .multiply = opCount .ladder .multiply + opCount .invert .multiply + 1 ∧
    opCount o .square = opCount .ladder .square + opCount .invert .square ∧
    opCount o .add = 768 ∧ opCount o .difference = 1024 ∧ opCount o .scalarMultiplyAdd = 256 ∧ opCount o .swap = 514

/-! ## The ladder by primitive commands -/

/-- LADDER by the host's loop of CSWAP and LSTEP (45_toplevel.md section 3, derived there; 95_test_vectors.md, program P3), on
any distinct registers: from every state ready for a command with the ladder's start in `F[a]` to `F[d]`, the loop over the
scalar in `B[k]` leaves in `F[a]`, `F[b]` the limbs `LADDER Fa, Fb, Bk, Fe` leaves there. -/
def Obligations.LadderByHostLoop : Prop :=
  ∀ (a b c d e : FReg) (k : BReg) (s : State), [a, b, c, d, e].Nodup → s.busy = false → s.err = false →
    s.data.getF a = FE.one → s.data.getF b = FE.zero → s.data.getF c = s.data.getF e → s.data.getF d = FE.one →
    ∃ t u,
      Sys2Proof.core.run 1540 { s with pending := issue (hostLadder a b c d e (s.data.getB k) 256 0) } = .next t ∧
      Sys2Proof.core.run 2 { s with pending := issue [.ladder a b k e] } = .next u ∧
      t.data.getF a = u.data.getF a ∧ t.data.getF b = u.data.getF b ∧ t.done = true ∧ u.done = true
end

