-- ==== Sys2Proof/Laws/State.lean ====
section
/-! SUPPORT. What each shared update leaves of the state, field by field, so that later proofs unfold no update. -/

namespace Sys2Proof.Machine

variable (s : State)

@[simp] theorem State.raise_data (e : ErrorCause) (v : Word32) : (s.raise e v).data = s.data := by unfold State.raise; split <;> rfl
@[simp] theorem State.raise_cmd (e : ErrorCause) (v : Word32) : (s.raise e v).cmd = s.cmd := by unfold State.raise; split <;> rfl
@[simp] theorem State.raise_done (e : ErrorCause) (v : Word32) : (s.raise e v).done = s.done := by unfold State.raise; split <;> rfl
@[simp] theorem State.raise_inFlight (e : ErrorCause) (v : Word32) : (s.raise e v).inFlight = s.inFlight := by unfold State.raise; split <;> rfl
@[simp] theorem State.raise_pending (e : ErrorCause) (v : Word32) : (s.raise e v).pending = s.pending := by unfold State.raise; split <;> rfl
@[simp] theorem State.raise_replies (e : ErrorCause) (v : Word32) : (s.raise e v).replies = s.replies := by unfold State.raise; split <;> rfl

@[simp] theorem State.accept_data (w : Word32) (i : Instr) : (s.accept w i).data = s.data := rfl
@[simp] theorem State.accept_err (w : Word32) (i : Instr) : (s.accept w i).err = s.err := rfl
@[simp] theorem State.accept_errCode (w : Word32) (i : Instr) : (s.accept w i).errCode = s.errCode := rfl
@[simp] theorem State.accept_errInfo (w : Word32) (i : Instr) : (s.accept w i).errInfo = s.errInfo := rfl
@[simp] theorem State.accept_pending (w : Word32) (i : Instr) : (s.accept w i).pending = s.pending := rfl
@[simp] theorem State.accept_replies (w : Word32) (i : Instr) : (s.accept w i).replies = s.replies := rfl

@[simp] theorem State.reply_data (v : Limb) : (s.reply v).data = s.data := rfl
@[simp] theorem State.reply_cmd (v : Limb) : (s.reply v).cmd = s.cmd := rfl
@[simp] theorem State.reply_done (v : Limb) : (s.reply v).done = s.done := rfl
@[simp] theorem State.reply_err (v : Limb) : (s.reply v).err = s.err := rfl
@[simp] theorem State.reply_errCode (v : Limb) : (s.reply v).errCode = s.errCode := rfl
@[simp] theorem State.reply_errInfo (v : Limb) : (s.reply v).errInfo = s.errInfo := rfl
@[simp] theorem State.reply_inFlight (v : Limb) : (s.reply v).inFlight = s.inFlight := rfl
@[simp] theorem State.reply_pending (v : Limb) : (s.reply v).pending = s.pending := rfl

@[simp] theorem State.clearDone_data : (s.clearDone).data = s.data := rfl
@[simp] theorem State.clearDone_cmd : (s.clearDone).cmd = s.cmd := rfl
@[simp] theorem State.clearDone_err : (s.clearDone).err = s.err := rfl
@[simp] theorem State.clearDone_errCode : (s.clearDone).errCode = s.errCode := rfl
@[simp] theorem State.clearDone_errInfo : (s.clearDone).errInfo = s.errInfo := rfl
@[simp] theorem State.clearDone_inFlight : (s.clearDone).inFlight = s.inFlight := rfl
@[simp] theorem State.clearDone_pending : (s.clearDone).pending = s.pending := rfl
@[simp] theorem State.clearDone_replies : (s.clearDone).replies = s.replies := rfl

@[simp] theorem State.clearError_data : (s.clearError).data = s.data := rfl
@[simp] theorem State.clearError_cmd : (s.clearError).cmd = s.cmd := rfl
@[simp] theorem State.clearError_done : (s.clearError).done = s.done := rfl
@[simp] theorem State.clearError_inFlight : (s.clearError).inFlight = s.inFlight := rfl
@[simp] theorem State.clearError_pending : (s.clearError).pending = s.pending := rfl
@[simp] theorem State.clearError_replies : (s.clearError).replies = s.replies := rfl

@[simp] theorem State.writeStatus_data (w : Word32) : (s.writeStatus w).data = s.data := by unfold State.writeStatus; split <;> split <;> rfl
@[simp] theorem State.writeStatus_cmd (w : Word32) : (s.writeStatus w).cmd = s.cmd := by unfold State.writeStatus; split <;> split <;> rfl
@[simp] theorem State.writeStatus_inFlight (w : Word32) : (s.writeStatus w).inFlight = s.inFlight := by unfold State.writeStatus; split <;> split <;> rfl
@[simp] theorem State.writeStatus_pending (w : Word32) : (s.writeStatus w).pending = s.pending := by unfold State.writeStatus; split <;> split <;> rfl
@[simp] theorem State.writeStatus_replies (w : Word32) : (s.writeStatus w).replies = s.replies := by unfold State.writeStatus; split <;> split <;> rfl

@[simp] theorem State.resetEvent_pending : (s.resetEvent).pending = s.pending := rfl
@[simp] theorem State.resetEvent_replies : (s.resetEvent).replies = s.replies := rfl

@[simp] theorem State.writeCmd_data (w : Word32) : (s.writeCmd w).data = s.data := by
  unfold State.writeCmd; repeat' split
  all_goals simp
@[simp] theorem State.writeCmd_pending (w : Word32) : (s.writeCmd w).pending = s.pending := by
  unfold State.writeCmd; repeat' split
  all_goals simp
@[simp] theorem State.writeCmd_replies (w : Word32) : (s.writeCmd w).replies = s.replies := by
  unfold State.writeCmd; repeat' split
  all_goals simp

@[simp] theorem State.raise_err (e : ErrorCause) (v : Word32) : (s.raise e v).err = true := by
  unfold State.raise; split <;> simp_all
theorem State.raise_first {s : State} (h : s.err = false) (e : ErrorCause) (v : Word32) :
    s.raise e v = { s with err := true, errCode := e.code, errInfo := v } := by simp [State.raise, h]
theorem State.raise_later {s : State} (h : s.err = true) (e : ErrorCause) (v : Word32) : s.raise e v = s := by
  simp [State.raise, h]
@[simp] theorem State.accept_cmd (w : Word32) (i : Instr) : (s.accept w i).cmd = w := rfl
@[simp] theorem State.accept_done (w : Word32) (i : Instr) : (s.accept w i).done = false := rfl
@[simp] theorem State.accept_inFlight (w : Word32) (i : Instr) : (s.accept w i).inFlight = some ⟨i, s.data⟩ := rfl
@[simp] theorem State.reply_replies (v : Limb) : (s.reply v).replies = v :: s.replies := rfl
@[simp] theorem State.clearDone_done : s.clearDone.done = false := rfl
@[simp] theorem State.clearError_err : s.clearError.err = false := rfl
@[simp] theorem State.clearError_errCode : s.clearError.errCode = 0 := rfl
@[simp] theorem State.clearError_errInfo : s.clearError.errInfo = 0 := rfl
@[simp] theorem State.resetEvent_data : s.resetEvent.data = Data.zero := rfl
@[simp] theorem State.resetEvent_cmd : s.resetEvent.cmd = 0 := rfl
@[simp] theorem State.resetEvent_done : s.resetEvent.done = false := rfl
@[simp] theorem State.resetEvent_err : s.resetEvent.err = false := rfl
@[simp] theorem State.resetEvent_errCode : s.resetEvent.errCode = 0 := rfl
@[simp] theorem State.resetEvent_errInfo : s.resetEvent.errInfo = 0 := rfl
@[simp] theorem State.resetEvent_inFlight : s.resetEvent.inFlight = none := rfl

/-- BUSY depends on the command in flight only. -/
theorem State.busy_eq_false_iff : s.busy = false ↔ s.inFlight = none := by
  cases h : s.inFlight <;> simp [State.busy, h]
theorem State.busy_eq_true_iff : s.busy = true ↔ ∃ l, s.inFlight = some l := by
  cases h : s.inFlight <;> simp [State.busy, h]
theorem State.busy_congr {s t : State} (h : s.inFlight = t.inFlight) : s.busy = t.busy := by simp [State.busy, h]
@[simp] theorem State.busy_mk (d : Data) (c : Word32) (dn e : Bool) (ec : BitVec 4) (ei : Word32) (l : Option InFlight)
    (p : List Action) (r : List Limb) : State.busy ⟨d, c, dn, e, ec, ei, l, p, r⟩ = l.isSome := rfl
@[simp] theorem State.accept_busy (w : Word32) (i : Instr) : (s.accept w i).busy = true := rfl
@[simp] theorem State.raise_busy (e : ErrorCause) (v : Word32) : (s.raise e v).busy = s.busy :=
  State.busy_congr (State.raise_inFlight s e v)
@[simp] theorem State.reply_busy (v : Limb) : (s.reply v).busy = s.busy := rfl
@[simp] theorem State.writeStatus_busy (w : Word32) : (s.writeStatus w).busy = s.busy :=
  State.busy_congr (State.writeStatus_inFlight s w)
@[simp] theorem State.resetEvent_busy : s.resetEvent.busy = false := rfl

variable (d : Data)

@[simp] theorem Data.setF_b (r : FReg) (v : FE) : (d.setF r v).b = d.b := rfl
@[simp] theorem Data.setF_k (r : FReg) (v : FE) : (d.setF r v).k = d.k := rfl
@[simp] theorem Data.setB_f (k : BReg) (v : Bytes32) : (d.setB k v).f = d.f := rfl
@[simp] theorem Data.setB_k (k : BReg) (v : Bytes32) : (d.setB k v).k = d.k := rfl
@[simp] theorem Data.setK_f (v : Limb) : (d.setK v).f = d.f := rfl
@[simp] theorem Data.setK_b (v : Limb) : (d.setK v).b = d.b := rfl
@[simp] theorem Data.setK_k (v : Limb) : (d.setK v).k = v := rfl

/-- Reading a field register after one was written: the written one, or what stood there. -/
theorem Data.getF_setF (r r' : FReg) (v : FE) : (d.setF r v).getF r' = if r' = r then v else d.getF r' := by
  simp only [Data.setF, Data.getF, Vector.getElem_set, Fin.ext_iff, eq_comm]
@[simp] theorem Data.getF_setF_self (r : FReg) (v : FE) : (d.setF r v).getF r = v := by simp [Data.getF_setF]
theorem Data.getF_setF_ne {r r' : FReg} (h : r' ≠ r) (v : FE) : (d.setF r v).getF r' = d.getF r' := by
  simp [Data.getF_setF, h]
/-- Reading a buffer after one was written: the written one, or what stood there. -/
theorem Data.getB_setB (k k' : BReg) (v : Bytes32) : (d.setB k v).getB k' = if k' = k then v else d.getB k' := by
  simp only [Data.setB, Data.getB, Vector.getElem_set, Fin.ext_iff, eq_comm]
@[simp] theorem Data.getB_setB_self (k : BReg) (v : Bytes32) : (d.setB k v).getB k = v := by simp [Data.getB_setB]
theorem Data.getB_setB_ne {k k' : BReg} (h : k' ≠ k) (v : Bytes32) : (d.setB k v).getB k' = d.getB k' := by
  simp [Data.getB_setB, h]
@[simp] theorem Data.getB_setF (r : FReg) (v : FE) (k : BReg) : (d.setF r v).getB k = d.getB k := rfl
@[simp] theorem Data.getF_setB (k : BReg) (v : Bytes32) (r : FReg) : (d.setB k v).getF r = d.getF r := rfl
@[simp] theorem Data.getF_setK (v : Limb) (r : FReg) : (d.setK v).getF r = d.getF r := rfl
@[simp] theorem Data.getB_setK (v : Limb) (k : BReg) : (d.setK v).getB k = d.getB k := rfl

/-- Reading a limb after one was written. -/
theorem limb_setLimb (f : FE) (i j : Fin 5) (v : Limb) : (f.setLimb i v).limb j = if j = i then v else f.limb j := by
  fin_cases i <;> fin_cases j <;> rfl
@[simp] theorem setLimb_limb (f : FE) (j : Fin 5) : f.setLimb j (f.limb j) = f := by fin_cases j <;> rfl

/-- Two field elements are equal when their limbs are. -/
theorem FE_ext_limb {f g : FE} (h : ∀ j, f.limb j = g.limb j) : f = g := by
  obtain ⟨f0, f1, f2, f3, f4⟩ := f
  obtain ⟨g0, g1, g2, g3, g4⟩ := g
  have h0 := h 0; have h1 := h 1; have h2 := h 2; have h3 := h 3; have h4 := h 4
  simp only [FE.limb] at h0 h1 h2 h3 h4
  simp [h0, h1, h2, h3, h4]

/-- Reading a byte after one was written. -/
theorem byteAt_setByteAt (b : Bytes32) (i j : Nat) (v : Byte) :
    byteAt (setByteAt b i v) j = if j = i ∧ i < 32 then v else byteAt b j := by
  unfold byteAt setByteAt
  by_cases hi : i < 32 <;> by_cases hj : j < 32 <;> simp [hi, hj, Vector.getElem_set, @eq_comm _ j i]
  omega

end Sys2Proof.Machine
end

