-- ==== Sys2Proof/Laws/Ops.lean ====
section
/-! SUPPORT. Everything each shared operation can do, said once: completion, a `CMD` write, the accesses of the window,
the engine's step, a step. Later proofs cite these instead of unfolding the operations. -/

namespace Sys2Proof.Machine

/-! ## Completion (60_exceptions.md R209) -/

theorem finish_idle {s : State} (h : s.inFlight = none) (write : Data → Data → Data) : s.finish write = .next s := by
  simp [State.finish, h]

theorem finish_busy {s : State} {l : InFlight} (h : s.inFlight = some l) (write : Data → Data → Data) :
    s.finish write = .next { s with data := write l.src s.data, done := true, inFlight := none } := by
  simp [State.finish, h]

/-- The data writes of a command: its destinations, computed from the latched contents. -/
def writes : Instr → Data → Data → Data
  | .fadd a b => fun o d => d.setF a (feAdd (o.getF a) (o.getF b))
  | .fdiff a b => fun o d => d.setF a (feDifference (o.getF a) (o.getF b))
  | .fsma a b c => fun o d => d.setF a (feScalarMultiplyAdd (o.getF b) o.k (o.getF c))
  | .fmul a b c => fun o d => d.setF a (feMultiply (o.getF b) (o.getF c))
  | .fsqr a b => fun o d => d.setF a (feSquare (o.getF b))
  | .fcopy a b => fun o d => d.setF a (feCopy (o.getF b))
  | .decode a b => fun o d => d.setF a (decodeBytes (o.getB b))
  | .encode a b => fun o d => d.setB a (encodeFE (o.getF b))
  | .cswap a b flag => fun o d =>
    (d.setF a (feSwap (o.getF a) (o.getF b) (flag.setWidth 64)).1).setF b (feSwap (o.getF a) (o.getF b) (flag.setWidth 64)).2
  | .lstep a b c e q => fun o d =>
    let r := ladderStep ⟨o.getF a, o.getF b, o.getF c, o.getF e⟩ (o.getF q)
    (((d.setF a r.x).setF b r.z).setF c r.xp).setF e r.zp
  | .ladder a b c q => fun o d => (d.setF a (ladder (o.getB c) (o.getF q)).1).setF b (ladder (o.getB c) (o.getF q)).2
  | .invert a b => fun o d => d.setF a (invert (o.getF b))
  | .clamp a b => fun o d => d.setB a (clampBytes (o.getB b))
  | .smult a b c => fun o d => d.setB a (scalarMult (o.getB b) (o.getB c))
  | .dpub a b => fun o d => d.setB a (scalarMult (o.getB b) basePoint)
  | .dshared a b c => fun o d => d.setB a (scalarMult (o.getB b) (o.getB c))

/-- Every meaning is a completion: of every command, `exec` says this and no more. -/
theorem exec_eq_finish (i : Instr) (s : State) : exec i s = s.finish (writes i) := by cases i <;> rfl

theorem exec_idle {s : State} (h : s.inFlight = none) (i : Instr) : exec i s = .next s := by
  rw [exec_eq_finish, finish_idle h]

theorem exec_busy {s : State} {l : InFlight} (h : s.inFlight = some l) (i : Instr) :
    exec i s = .next { s with data := writes i l.src s.data, done := true, inFlight := none } := by
  rw [exec_eq_finish, finish_busy h]

/-! ## Decoding (30_encoding.md R86) -/

theorem classify_command {w : Word32} {i : Instr} : classify w = .command i ↔ decode w = .command i ∧ i.wf = true := by
  unfold classify
  cases h : decode w with
  | command j => by_cases hj : j.wf <;> simp [hj] <;> rintro rfl <;> simp_all
  | illegalOpcode => simp
  | illegalOperand => simp

/-! ## A `CMD` write (R202) -/

/-- The five cases of R202. -/
theorem writeCmd_cases (s : State) (w : Word32) :
    (s.busy = true ∧ s.writeCmd w = s.raise .busyAccess 0) ∨
    (s.busy = false ∧ s.err = true ∧ s.writeCmd w = s) ∨
    (s.busy = false ∧ s.err = false ∧ classify w = .illegalOpcode ∧ s.writeCmd w = s.raise .illegalOpcode w) ∨
    (s.busy = false ∧ s.err = false ∧ classify w = .illegalOperand ∧ s.writeCmd w = s.raise .illegalOperand w) ∨
    (s.busy = false ∧ s.err = false ∧ ∃ i, classify w = .command i ∧ s.writeCmd w = s.accept w i) := by
  unfold State.writeCmd
  cases hb : s.busy <;> cases he : s.err <;> cases hc : classify w <;> simp

/-! ## The window (20_memory.md R50 to R56) -/

theorem hostRead_illegal {off n : Nat} (h : locate off n = none) (s : State) :
    hostRead off n s = .refused (.illegalAccess off n) := by simp [hostRead, h]

theorem hostWrite_illegal {off n : Nat} (h : locate off n = none) (v : Limb) (s : State) :
    hostWrite off n v s = .refused (.illegalAccess off n) := by simp [hostWrite, h]

theorem hostRead_open {off n : Nat} {p : Place} (h : locate off n = some p) {s : State} (hs : (s.busy && p.readGuarded) = false) :
    hostRead off n s = .next (s.reply (s.peek n p)) := by simp [hostRead, h, hs]

theorem hostRead_guarded {off n : Nat} {p : Place} (h : locate off n = some p) {s : State} (hs : (s.busy && p.readGuarded) = true) :
    hostRead off n s = .next ((s.raise .busyAccess (BitVec.ofNat 32 off)).reply 0) := by simp [hostRead, h, hs]

theorem hostWrite_open {off n : Nat} {p : Place} (h : locate off n = some p) {s : State} (hs : (s.busy && p.writeGuarded) = false)
    (v : Limb) : hostWrite off n v s = .next (s.poke n v p) := by simp [hostWrite, h, hs]

theorem hostWrite_guarded {off n : Nat} {p : Place} (h : locate off n = some p) {s : State} (hs : (s.busy && p.writeGuarded) = true)
    (v : Limb) : hostWrite off n v s = .next (s.raise .busyAccess (BitVec.ofNat 32 off)) := by simp [hostWrite, h, hs]

/-- A read that answers a next state: refused while BUSY, or performed. -/
theorem hostRead_cases {off n : Nat} {s t : State} (h : hostRead off n s = .next t) :
    ∃ p, locate off n = some p ∧
      ((s.busy = true ∧ p.readGuarded = true ∧ t = (s.raise .busyAccess (BitVec.ofNat 32 off)).reply 0) ∨
       ((s.busy && p.readGuarded) = false ∧ t = s.reply (s.peek n p))) := by
  unfold hostRead at h
  split at h
  · cases h
  · next p hp =>
    refine ⟨p, hp, ?_⟩
    split at h <;> cases h <;> simp_all

/-- A write that answers a next state: refused while BUSY, or performed. -/
theorem hostWrite_cases {off n : Nat} {v : Limb} {s t : State} (h : hostWrite off n v s = .next t) :
    ∃ p, locate off n = some p ∧
      ((s.busy = true ∧ p.writeGuarded = true ∧ t = s.raise .busyAccess (BitVec.ofNat 32 off)) ∨
       ((s.busy && p.writeGuarded) = false ∧ t = s.poke n v p)) := by
  unfold hostWrite at h
  split at h
  · cases h
  · next p hp =>
    refine ⟨p, hp, ?_⟩
    split at h <;> cases h <;> simp_all

/-- What a write changes: `CMD` and `STATUS` have their own effects; every other place changes the data alone, if anything. -/
theorem poke_cases (s : State) (n : Nat) (v : Limb) (p : Place) :
    (p = .cmd ∧ s.poke n v p = s.writeCmd (v.setWidth 32)) ∨
    (p = .status ∧ s.poke n v p = s.writeStatus (v.setWidth 32)) ∨
    (p.writeGuarded = true ∧ ∃ d, s.poke n v p = { s with data := d }) ∨
    (s.poke n v p = s) := by
  cases p <;> simp [State.poke, Place.writeGuarded]

/-- What is read-guarded is write-guarded (R55). -/
theorem writeGuarded_of_readGuarded {p : Place} (h : p.readGuarded = true) : p.writeGuarded = true := by
  cases p <;> simp_all [Place.readGuarded, Place.writeGuarded]

/-! ## The engine and the step (R209, R240) -/

theorem engineStep_idle {s : State} (h : s.inFlight = none) : engineStep s = .next s := by simp [engineStep, h]

theorem engineStep_busy {s : State} {l : InFlight} (h : s.inFlight = some l) :
    engineStep s = .next { s with data := writes l.instr l.src s.data, done := true, inFlight := none } := by
  simp only [engineStep, h]; exact exec_busy h l.instr

theorem step_nil {s : State} (h : s.pending = []) : step s = engineStep s := by simp [step, h]

theorem step_cons {s : State} {a : Action} {rest : List Action} (h : s.pending = a :: rest) :
    step s = perform a { s with pending := rest } := by simp [step, h]

end Sys2Proof.Machine
end

