-- ==== Sys2Proof/Laws/Encoding.lean ====
section
/-! SUPPORT. The fields of a word built by `wordOf` (30_encoding.md R80): each is read back as it was put in. -/

namespace Sys2Proof

/-- A field of a word, as a number. -/
theorem extractLsb'_val (w : Word32) (lo n : Nat) : (w.extractLsb' lo n).toNat = w.toNat / 2 ^ lo % 2 ^ n := by
  rw [BitVec.extractLsb'_toNat, Nat.shiftRight_eq_div_pow]

theorem regField_val (lo : Nat) (w : Word32) : (regField lo w).val = w.toNat / 2 ^ lo % 2 ^ 4 := extractLsb'_val w lo 4

theorem bufField_val (lo : Nat) (w : Word32) : (bufField lo w).val = w.toNat / 2 ^ lo % 2 ^ 2 := extractLsb'_val w lo 2

theorem flagField_toNat (w : Word32) : (flagField w).toNat = w.toNat / 2 ^ 12 % 2 ^ 1 := extractLsb'_val w 12 1

theorem opField_toNat (w : Word32) : (opField w).toNat = w.toNat / 2 ^ 24 % 2 ^ 8 := extractLsb'_val w 24 8

/-- Every opcode is found by its byte. -/
theorem ofByte_byte (o : Opcode) : Opcode.ofByte o.byte = some o := by cases o <;> rfl

variable {x a b c d e : Nat}

/-- The sum of R80 stays below `2^32`. -/
theorem fields_lt (hx : x < 2 ^ 8) (ha : a < 16) (hb : b < 16) (hc : c < 16) (hd : d < 16) (he : e < 16) :
    x * 2 ^ 24 + a * 2 ^ 20 + b * 2 ^ 16 + c * 2 ^ 12 + d * 2 ^ 8 + e * 2 ^ 4 < 2 ^ 32 := by omega

/-- The opcode of the sum of R80. -/
theorem fields_op (hx : x < 2 ^ 8) (ha : a < 16) (hb : b < 16) (hc : c < 16) (hd : d < 16) (he : e < 16) :
    (x * 2 ^ 24 + a * 2 ^ 20 + b * 2 ^ 16 + c * 2 ^ 12 + d * 2 ^ 8 + e * 2 ^ 4) / 2 ^ 24 % 2 ^ 8 = x := by omega

/-- A word built of an opcode and five nibbles, as a number. -/
theorem wordOf_toNat (o : Opcode) (ha : a < 16) (hb : b < 16) (hc : c < 16) (hd : d < 16) (he : e < 16) :
    (wordOf o a b c d e).toNat
      = o.byte.toNat * 2 ^ 24 + a * 2 ^ 20 + b * 2 ^ 16 + c * 2 ^ 12 + d * 2 ^ 8 + e * 2 ^ 4 := by
  rw [wordOf, BitVec.toNat_ofNat]
  exact Nat.mod_eq_of_lt (fields_lt o.byte.isLt ha hb hc hd he)

theorem opField_wordOf (o : Opcode) (ha : a < 16) (hb : b < 16) (hc : c < 16) (hd : d < 16) (he : e < 16) :
    opField (wordOf o a b c d e) = o.byte := by
  apply BitVec.eq_of_toNat_eq
  rw [opField_toNat, wordOf_toNat o ha hb hc hd he]
  exact fields_op o.byte.isLt ha hb hc hd he

end Sys2Proof
end

