-- ==== Sys2Proof/Laws/PerInstr.lean ====
section
/-! SUPPORT. Facts about a command as a word, one lemma per constructor. Family `EncodeOpcode`: bits 31:24 of the word of a
command are its row's opcode (30_encoding.md R80, R82). -/

namespace Sys2Proof.Laws

namespace EncodeOpcode

/-- Field `op` of the word of `i` is the opcode of its row. -/
def Statement (i : Instr) : Prop := opField (Sys2Proof.encode i) = i.opcode.byte

theorem fadd (a b : FReg) : Statement (.fadd a b) := opField_wordOf _ a.isLt b.isLt (by omega) (by omega) (by omega)
theorem fdiff (a b : FReg) : Statement (.fdiff a b) := opField_wordOf _ a.isLt b.isLt (by omega) (by omega) (by omega)
theorem fsma (a b c : FReg) : Statement (.fsma a b c) := opField_wordOf _ a.isLt b.isLt c.isLt (by omega) (by omega)
theorem fmul (a b c : FReg) : Statement (.fmul a b c) := opField_wordOf _ a.isLt b.isLt c.isLt (by omega) (by omega)
theorem fsqr (a b : FReg) : Statement (.fsqr a b) := opField_wordOf _ a.isLt b.isLt (by omega) (by omega) (by omega)
theorem fcopy (a b : FReg) : Statement (.fcopy a b) := opField_wordOf _ a.isLt b.isLt (by omega) (by omega) (by omega)
theorem decode (a : FReg) (b : BReg) : Statement (.decode a b) :=
  opField_wordOf _ a.isLt (by omega) (by omega) (by omega) (by omega)
theorem encode (a : BReg) (b : FReg) : Statement (.encode a b) :=
  opField_wordOf _ (by omega) b.isLt (by omega) (by omega) (by omega)
theorem cswap (a b : FReg) (flag : BitVec 1) : Statement (.cswap a b flag) :=
  opField_wordOf _ a.isLt b.isLt (by have := flag.isLt; omega) (by omega) (by omega)
theorem lstep (a b c d e : FReg) : Statement (.lstep a b c d e) :=
  opField_wordOf _ a.isLt b.isLt c.isLt d.isLt e.isLt
theorem ladder (a b : FReg) (c : BReg) (d : FReg) : Statement (.ladder a b c d) :=
  opField_wordOf _ a.isLt b.isLt (by omega) d.isLt (by omega)
theorem invert (a b : FReg) : Statement (.invert a b) := opField_wordOf _ a.isLt b.isLt (by omega) (by omega) (by omega)
theorem clamp (a b : BReg) : Statement (.clamp a b) :=
  opField_wordOf _ (by omega) (by omega) (by omega) (by omega) (by omega)
theorem smult (a b c : BReg) : Statement (.smult a b c) :=
  opField_wordOf _ (by omega) (by omega) (by omega) (by omega) (by omega)
theorem dpub (a b : BReg) : Statement (.dpub a b) :=
  opField_wordOf _ (by omega) (by omega) (by omega) (by omega) (by omega)
theorem dshared (a b c : BReg) : Statement (.dshared a b c) :=
  opField_wordOf _ (by omega) (by omega) (by omega) (by omega) (by omega)

end EncodeOpcode

end Sys2Proof.Laws
end

