-- ==== Sys2Proof/Laws/Window.lean ====
section
/-! SUPPORT. The register window by its rows (20_memory.md R50, R51, R54): what `locate` answers, both ways. -/

namespace Sys2Proof.Machine

/-- Every legal access, by the row it reaches. -/
theorem locate_cases {off n : Nat} {p : Place} (h : locate off n = some p) :
    (p = .cmd ∧ off = 0x000 ∧ n = 4) ∨ (p = .status ∧ off = 0x004 ∧ n = 4) ∨ (p = .k ∧ off = 0x008 ∧ n = 8) ∨
    (p = .errInfo ∧ off = 0x010 ∧ n = 4) ∨
    (∃ (k : BReg) (j : Fin 32), p = .buffer k j ∧ off = 0x080 + 32 * k.val + j.val ∧ (n = 1 ∨ n = 2 ∨ n = 4 ∨ n = 8) ∧ off % n = 0) ∨
    (∃ (r : FReg) (j : Fin 5), p = .limb r j ∧ off = 0x400 + 64 * r.val + 8 * j.val ∧ n = 8) ∨
    (p = .reserved ∧ (n = 4 ∨ n = 8) ∧ off % n = 0 ∧ inReserved off n = true) := by
  unfold locate at h
  split at h
  · next h1 => cases h; exact .inl ⟨rfl, h1⟩
  split at h
  · next h1 => cases h; exact .inr (.inl ⟨rfl, h1⟩)
  split at h
  · next h1 => cases h; exact .inr (.inr (.inl ⟨rfl, h1⟩))
  split at h
  · next h1 => cases h; exact .inr (.inr (.inr (.inl ⟨rfl, h1⟩)))
  split at h
  · next h1 =>
    cases h
    refine .inr (.inr (.inr (.inr (.inl ⟨_, _, rfl, ?_, h1.2.2.1, h1.2.2.2⟩))))
    simp only [Fin.val_ofNat]
    omega
  split at h
  · next h1 =>
    cases h
    refine .inr (.inr (.inr (.inr (.inr (.inl ⟨_, _, rfl, ?_, h1.2.2.2.1⟩)))))
    simp only [Fin.val_ofNat]
    omega
  split at h
  · next h1 => cases h; exact .inr (.inr (.inr (.inr (.inr (.inr ⟨rfl, h1⟩)))))
  · cases h

theorem locate_buffer (k : BReg) {o n : Nat} (ho : o < 32) (hn : n = 1 ∨ n = 2 ∨ n = 4 ∨ n = 8) (hd : o % n = 0) :
    locate (0x080 + 32 * k.val + o) n = some (.buffer k ⟨o, ho⟩) := by
  have hm : (0x080 + 32 * k.val + o) % n = 0 := by rcases hn with rfl | rfl | rfl | rfl <;> omega
  unfold locate
  rw [if_neg (by omega), if_neg (by omega), if_neg (by omega), if_neg (by omega), if_pos ⟨by omega, by omega, hn, hm⟩]
  have hk : Fin.ofNat 4 ((0x080 + 32 * k.val + o - 0x080) / 32) = k := Fin.ext (by rw [Fin.val_ofNat]; omega)
  have hj : Fin.ofNat 32 ((0x080 + 32 * k.val + o - 0x080) % 32) = ⟨o, ho⟩ := Fin.ext (by rw [Fin.val_ofNat]; dsimp only; omega)
  rw [hk, hj]

theorem locate_limb (r : FReg) (j : Fin 5) : locate (0x400 + 64 * r.val + 8 * j.val) 8 = some (.limb r j) := by
  unfold locate
  rw [if_neg (by omega), if_neg (by omega), if_neg (by omega), if_neg (by omega), if_neg (by omega), if_pos (by omega)]
  have hr : Fin.ofNat 16 ((0x400 + 64 * r.val + 8 * j.val - 0x400) / 64) = r := Fin.ext (by rw [Fin.val_ofNat]; omega)
  have hj : Fin.ofNat 5 ((0x400 + 64 * r.val + 8 * j.val - 0x400) % 64 / 8) = j := Fin.ext (by rw [Fin.val_ofNat]; omega)
  rw [hr, hj]

theorem locate_reserved {off n : Nat} (hn : n = 4 ∨ n = 8) (hd : off % n = 0) (h : inReserved off n = true) :
    locate off n = some .reserved := by
  have hr := h
  simp only [inReserved, Bool.or_eq_true, Bool.and_eq_true, decide_eq_true_eq] at hr
  unfold locate
  rw [if_neg (by omega), if_neg (by omega), if_neg (by omega), if_neg (by omega), if_neg (by omega), if_neg (by omega),
    if_pos ⟨hn, hd, h⟩]

/-- A legal access lies in the window. -/
theorem locate_lt {off n : Nat} {p : Place} (h : locate off n = some p) : off < Config.windowSize := by
  unfold Config.windowSize
  rcases locate_cases h with ⟨-, rfl, -⟩ | ⟨-, rfl, -⟩ | ⟨-, rfl, -⟩ | ⟨-, rfl, -⟩ | ⟨k, j, -, rfl, -⟩ | ⟨r, j, -, rfl, -⟩ | ⟨-, hn, -, h⟩
  · omega
  · omega
  · omega
  · omega
  · omega
  · omega
  · simp only [inReserved, Bool.or_eq_true, Bool.and_eq_true, decide_eq_true_eq] at h; omega

end Sys2Proof.Machine
end

