-- ==== Sys2Proof/Laws/Words.lean ====
section
/-! SUPPORT. The words of 00_scope.md R6 as numbers, and the bytes of a buffer access (20_memory.md R52). -/

namespace Sys2Proof

@[simp] theorem wide_toNat (v : Limb) : (wide v).toNat = v.toNat := by
  have := v.isLt
  rw [wide, BitVec.toNat_setWidth]; omega

@[simp] theorem lo64_toNat (t : Acc) : (lo64 t).toNat = t.toNat % 2 ^ 64 := by rw [lo64, BitVec.toNat_setWidth]

@[simp] theorem and_mask51_toNat (v : Limb) : (v &&& mask51).toNat = v.toNat % 2 ^ 51 := by
  rw [mask51, BitVec.toNat_and]; exact Nat.and_two_pow_sub_one_eq_mod v.toNat 51

@[simp] theorem and_mask51Acc_toNat (t : Acc) : (t &&& mask51Acc).toNat = t.toNat % 2 ^ 51 := by
  rw [mask51Acc, BitVec.toNat_and]; exact Nat.and_two_pow_sub_one_eq_mod t.toNat 51

theorem asr63_of_neg {v : Limb} (h : 2 ^ 63 ≤ v.toNat) : asr63 v = BitVec.allOnes 64 := by
  have : v.msb = true := by rw [BitVec.msb_eq_decide]; simpa using h
  rw [asr63, if_pos this]

theorem asr63_of_nonneg {v : Limb} (h : v.toNat < 2 ^ 63) : asr63 v = 0 := by
  have : v.msb = false := by rw [BitVec.msb_eq_decide]; simpa using h
  rw [asr63, this]; rfl

/-- A product of two limbs is exact in 128 bits. -/
@[simp] theorem Machine.limbMul_toNat (x y : Limb) : (Machine.limbMul x y).toNat = x.toNat * y.toNat := by
  rw [Machine.limbMul, BitVec.toNat_mul, wide_toNat, wide_toNat]
  apply Nat.mod_eq_of_lt
  calc x.toNat * y.toNat < 2 ^ 64 * 2 ^ 64 := Nat.mul_lt_mul'' x.isLt y.isLt
    _ = 2 ^ 128 := by norm_num

/-- Which bytes a buffer write replaces, and by what (R52). -/
theorem Machine.byteAt_setBytesWord (b : Bytes32) (o : Nat) (v : Limb) (n m : Nat) (h : o + n ≤ 32) :
    byteAt (setBytesWord b o v n) m
      = if o ≤ m ∧ m < o + n then (v >>> (8 * (m - o))).setWidth 8 else byteAt b m := by
  induction n generalizing b o v with
  | zero => rw [setBytesWord, if_neg (by omega)]
  | succ n ih =>
    rw [setBytesWord, ih _ _ _ (by omega), byteAt_setByteAt]
    by_cases h1 : o + 1 ≤ m ∧ m < o + 1 + n
    · rw [if_pos h1, if_pos (by omega), ← BitVec.shiftRight_add, show 8 + 8 * (m - (o + 1)) = 8 * (m - o) by omega]
    · rw [if_neg h1]
      by_cases h2 : m = o
      · subst h2; rw [if_pos ⟨rfl, by omega⟩, if_pos (by omega)]; simp
      · rw [if_neg (by omega), if_neg (by omega)]

end Sys2Proof
end

