-- ==== Sys2Proof/Tests/Slice0.lean ====
section
/-! SUPPORT. Tests on fixed values, each expected value taken from spec/95_test_vectors.md (the section is named) or from a
table of another file of spec/; and for every statement with hypotheses a witness that meets them. -/

open Sys2Proof Sys2Proof.Machine Sys2Proof.Claims

namespace Sys2Proof.Tests

/-! ## Small states -/

/-- The next state, if there is one. -/
def nextOf : Host.Outcome State Fault Refusal → Option State
  | .next s => some s
  | .fault _ => none
  | .refused _ => none

/-- Five limbs. -/
def fe (l0 l1 l2 l3 l4 : Nat) : FE :=
  ⟨BitVec.ofNat 64 l0, BitVec.ofNat 64 l1, BitVec.ofNat 64 l2, BitVec.ofNat 64 l3, BitVec.ofNat 64 l4⟩

/-- Five equal limbs. -/
def fe5 (l : Nat) : FE := fe l l l l l

/-- `M51` and the largest limb, as 95_test_vectors.md abbreviates them. -/
def m51 : Nat := 0x7FFFFFFFFFFFF
def ones : Nat := 0xFFFFFFFFFFFFFFFF

/-- A buffer whose byte 0 is `first`, whose byte 31 is `last`, and whose other bytes are `middle`. -/
def buf (first middle last : Byte) : Bytes32 := ((Vector.replicate 32 middle).set 0 first).set 31 last

/-- The buffer `00 01 02 .. 1F`. -/
def countingBuf : Bytes32 := Vector.ofFn fun j => BitVec.ofNat 8 j.val

/-- Reset contents with `F1` to `F5` set. -/
def regs (f1 f2 f3 f4 f5 : FE) : Data :=
  ((((Data.zero.setF 1 f1).setF 2 f2).setF 3 f3).setF 4 f4).setF 5 f5

/-- Reset contents with `F1`, `F2`, `F3` set. -/
def regs3 (f1 f2 f3 : FE) : Data := regs f1 f2 f3 FE.zero FE.zero

/-- An idle block with the given contents and events to come. -/
def idle (d : Data) (p : List Action) : State := { State.reset with data := d, pending := p }

/-- A block that has just accepted `i`. -/
def busy (i : Instr) (d : Data) (p : List Action) : State :=
  { State.reset with data := d, cmd := encode i, inFlight := some ⟨i, d⟩, pending := p }

/-- The contents after `i`, accepted on `d`, completes. -/
def completed (i : Instr) (d : Data) : Option Data := (nextOf (exec i (busy i d []))).map State.data

/-- A register after `i`. -/
def regAfter (i : Instr) (d : Data) (r : FReg) : Option FE := (completed i d).map fun d => d.getF r

/-- A buffer after `i`. -/
def bufAfter (i : Instr) (d : Data) (k : BReg) : Option Bytes32 := (completed i d).map fun d => d.getB k

/-- The replies, oldest first, after the events `p` from reset. -/
def repliesAfter (p : List Action) : Option (List Limb) :=
  (nextOf (Sys2Proof.core.run p.length (idle Data.zero p))).map fun s => s.replies.reverse

/-- A write of `w` to `CMD`; a read of `CMD`, `STATUS`, `ERRINFO`; a write of `STATUS`. -/
def cmdWrite (w : Limb) : Action := .write 0x000 4 w
def cmdRead : Action := .read 0x000 4
def statusRead : Action := .read 0x004 4
def infoRead : Action := .read 0x010 4
def statusWrite (w : Limb) : Action := .write 0x004 4 w

/-! ## WellFormed refuses (30_encoding.md R85) -/

theorem test_wf_refuses_lstep_ab : Instr.wf (.lstep 1 1 2 3 4) = false := by decide
theorem test_wf_refuses_lstep_ac : Instr.wf (.lstep 1 0 1 3 4) = false := by decide
theorem test_wf_refuses_lstep_ad : Instr.wf (.lstep 1 0 2 1 4) = false := by decide
theorem test_wf_refuses_lstep_bc : Instr.wf (.lstep 0 1 1 3 4) = false := by decide
theorem test_wf_refuses_lstep_bd : Instr.wf (.lstep 0 1 2 1 4) = false := by decide
theorem test_wf_refuses_lstep_cd : Instr.wf (.lstep 0 1 2 2 4) = false := by decide
theorem test_wf_refuses_ladder_ab : Instr.wf (.ladder 0 0 0 4) = false := by decide
theorem test_wf_admits_free_operands :
    Instr.wf (.lstep 0 1 2 3 0) = true ∧ Instr.wf (.ladder 0 1 0 1) = true ∧ Instr.wf (.smult 3 3 3) = true := by decide

/-! ## Decoding: words written out from R80 to R82 (sections 2.10 and 3) -/

theorem test_decode_fadd : classify 0x01120000 = .command (.fadd 1 2) := by decide
theorem test_decode_fdiff : classify 0x02410000 = .command (.fdiff 4 1) := by decide
theorem test_decode_fsma : classify 0x03123000 = .command (.fsma 1 2 3) := by decide
theorem test_decode_fmul : classify 0x04FFF000 = .command (.fmul 15 15 15) := by decide
theorem test_decode_fsqr : classify 0x05410000 = .command (.fsqr 4 1) := by decide
theorem test_decode_fcopy : classify 0x06920000 = .command (.fcopy 9 2) := by decide
theorem test_decode_decode : classify 0x10210000 = .command (.decode 2 1) := by decide
theorem test_decode_encode : classify 0x11370000 = .command (.encode 3 7) := by decide
theorem test_decode_cswap : classify 0x20121000 = .command (.cswap 1 2 1) := by decide
theorem test_decode_lstep : classify 0x30012300 = .command (.lstep 0 1 2 3 0) := by decide
theorem test_decode_ladder : classify 0x31010100 = .command (.ladder 0 1 0 1) := by decide
theorem test_decode_invert : classify 0x40510000 = .command (.invert 5 1) := by decide
theorem test_decode_clamp : classify 0x50310000 = .command (.clamp 3 1) := by decide
theorem test_decode_smult : classify 0x51333000 = .command (.smult 3 3 3) := by decide
theorem test_decode_dpub : classify 0x52310000 = .command (.dpub 3 1) := by decide
theorem test_decode_dshared : classify 0x53302000 = .command (.dshared 3 0 2) := by decide
theorem test_decode_illegal_opcodes :
    [0x00000000, 0xFFFFFFFF, 0x07000000, 0x12000000, 0x54000000].map classify = List.replicate 5 .illegalOpcode := by decide
theorem test_decode_illegal_operands :
    [0x01120001, 0x01121000, 0x10440000, 0x11450000, 0x20122000, 0x20123000].map classify = List.replicate 6 .illegalOperand ∧
    [0x30011340, 0x30012341, 0x31000400, 0x31014400, 0x50040000, 0x52200010].map classify
      = List.replicate 6 .illegalOperand := by decide
theorem test_encode_spec_words :
    encode (.fsma 1 2 3) = 0x03123000 ∧ encode (.lstep 0 1 2 3 4) = 0x30012340 ∧ encode (.ladder 0 1 0 4) = 0x31010400 ∧
    encode (.cswap 1 1 1) = 0x20111000 ∧ encode (.smult 2 0 1) = 0x51201000 := by decide

/-! ## The commands -/

/-- Section 2.1: each limb wraps alone. -/
theorem test_fadd_wraps :
    regAfter (.fadd 1 2) (regs3 (fe ones m51 0 0x8000000000000000 7) (fe 1 1 0 0x8000000000000000 ones) FE.zero) 1
      = some (fe 0 0x8000000000000 0 0 6) := by decide
/-- Section 2.1: a source that is also the destination. -/
theorem test_fadd_doubles : regAfter (.fadd 1 1) (regs3 (fe5 m51) FE.zero FE.zero) 1 = some (fe5 0xFFFFFFFFFFFFE) := by decide

/-- Section 2.1: -2 is p - 2. -/
theorem test_fdiff_borrows :
    regAfter (.fdiff 1 2) (regs3 (fe 5 0 0 0 0) (fe 3 0 0 0 0) FE.zero) 1 = some (fe 0x7FFFFFFFFFFEB m51 m51 m51 m51) := by decide
/-- Section 2.1: the corner of R105 (d). -/
theorem test_fdiff_corner :
    regAfter (.fdiff 1 2) (regs3 (fe 0x76D037FED 0 0x8000000000000 m51 m51) (fe 0x9000 0 0 0 0) FE.zero) 1
      = some (fe 0x7FFF892FD1000 m51 m51 m51 ones) := by decide

/-- Section 2.1 and program P4. -/
theorem test_fsma_carries :
    regAfter (.fsma 1 2 3) ((regs3 FE.zero (fe5 m51) (fe 1 2 3 4 5)).setK 121665) 1
      = some (fe 0x8000000216A80 0x8000000000001 0x8000000000002 0x8000000000003 0x8000000000004) := by decide
/-- Section 2.1: far outside the discipline. -/
theorem test_fsma_wraps :
    regAfter (.fsma 1 2 3) ((regs3 FE.zero (fe5 ones) (fe5 ones)).setK (BitVec.ofNat 64 ones)) 1
      = some (fe 0xFFFFFFFFFFFD9FED 0x7FFFFFFFFC000 0x7FFFFFFFFDFFF 0x7FFFFFFFFDFFF 0x7FFFFFFFFDFFF) := by decide

/-- Section 2.1: the accumulators (2172, 2033, 1655, 1020, 110). -/
theorem test_fmul_small :
    regAfter (.fmul 3 1 2) (regs3 (fe 1 2 3 4 5) (fe 6 7 8 9 10) FE.zero) 3 = some (fe 0x87C 0x7F1 0x677 0x3FC 0x6E) := by decide
/-- Section 2.1: limb 2 is exactly `2^51`. -/
theorem test_fmul_limb2 :
    regAfter (.fmul 1 1 2) (regs3 (fe5 m51) (fe5 m51) FE.zero) 1 = some (fe 0x131 0 0x8000000000000 m51 m51) := by decide

/-- Section 2.1: outside the discipline the 128-bit accumulators wrap. -/
theorem test_fsqr_wraps :
    regAfter (.fsqr 4 1) (regs3 (fe5 ones) FE.zero FE.zero) 4
      = some (fe 0x7FFFFFFEAA03A 0x7FFFFFFECE03A 0x7FFFFFFF16028 0x7FFFFFFF5E016 0x7FFFFFFFA6004) := by decide

/-- Section 2.1. -/
theorem test_fcopy_copies : regAfter (.fcopy 9 2) (regs3 FE.zero (fe ones 0 7 0 1) FE.zero) 9 = some (fe ones 0 7 0 1) := by decide

/-- Section 2.2: every group boundary. -/
theorem test_decode_groups :
    regAfter (.decode 4 1) (Data.zero.setB 1 countingBuf) 4
      = some (fe 0x6050403020100 0x18161412100E0 0x44844403C3834 0x48C0B8B0A8A09 0x1F1E1D1C1B1A1) := by decide +kernel
/-- Section 2.2: bit 255 dropped. -/
theorem test_decode_drops_top_bit :
    regAfter (.decode 4 1) (Data.zero.setB 1 (buf 0xFF 0xFF 0xFF)) 4 = some (fe5 m51) := by decide +kernel

/-- Section 2.2: p - 1 stays, in bytes `EC FF .. FF 7F`. -/
theorem test_encode_largest :
    bufAfter (.encode 2 5) (regs FE.zero FE.zero FE.zero FE.zero (fe 0x7FFFFFFFFFFEC m51 m51 m51 m51)) 2
      = some (buf 0xEC 0xFF 0x7F) := by decide +kernel
/-- Section 2.2: any limbs are accepted; the bytes `FF5F02000000F8FF00000000C0FF0700000000FE3F00000000F0FF0100000000`. -/
theorem test_encode_any_limbs :
    bufAfter (.encode 2 5) (regs FE.zero FE.zero FE.zero FE.zero (fe5 ones)) 2
      = some ⟨#[0xFF, 0x5F, 0x02, 0, 0, 0, 0xF8, 0xFF, 0, 0, 0, 0, 0xC0, 0xFF, 0x07, 0, 0, 0, 0, 0xFE, 0x3F, 0, 0, 0, 0,
          0xF0, 0xFF, 0x01, 0, 0, 0, 0], rfl⟩ := by decide +kernel

/-- Section 2.3. -/
theorem test_cswap_exchanges :
    completed (.cswap 1 2 1) (regs3 (fe 1 2 3 4 5) (fe ones 0 m51 7 0x8000000000000000) FE.zero)
      = some (regs3 (fe ones 0 m51 7 0x8000000000000000) (fe 1 2 3 4 5) FE.zero) := by decide
/-- Section 2.3. -/
theorem test_cswap_keeps :
    completed (.cswap 1 2 0) (regs3 (fe 1 2 3 4 5) (fe ones 0 m51 7 0x8000000000000000) FE.zero)
      = some (regs3 (fe 1 2 3 4 5) (fe ones 0 m51 7 0x8000000000000000) FE.zero) := by decide

/-- Section 2.4, row 2. -/
theorem test_lstep_doubles_nine :
    completed (.lstep 1 2 3 4 5) (regs (fe 9 0 0 0 0) (fe 1 0 0 0 0) (fe 1 0 0 0 0) FE.zero (fe 9 0 0 0 0))
      = some (regs (fe 0x1900 0 0 0 0) (fe 0x9660720 0 0 0 0) (fe 0x144 0 0 0 0) (fe 0x11 0 0x8000000000000 m51 m51)
          (fe 9 0 0 0 0)) := by decide +kernel
/-- Section 2.4, last row. -/
theorem test_lstep_outside_discipline :
    completed (.lstep 1 2 3 4 5) (regs (fe5 ones) (fe5 1) (fe5 2) (fe5 3) (fe5 4))
      = some (regs FE.zero (fe 0x18026492D0 0xC344E9EF0 0x66B8C3950 0x4036F5570 0x25749E6D0)
          (fe 0x50D494 0x29165C 0x159D34 0xD82FC 0x7E194) (fe 0x1A3A7BD0 0xEAC31F0 0x897FB50 0x4CB2470 0x293B2D0)
          (fe5 4)) := by decide +kernel

/-- Section 2.6: the first three iterations of the ladder for `28 2A .. 2A 6A` and q = 9 (bits 255, 254, 253 are 0, 1, 1). -/
theorem test_ladder_iterations :
    (let n := buf 0x28 0x2A 0x6A
     let q := fe 9 0 0 0 0
     let l1 := ladderIteration n q 255 (ladderStart q)
     let l2 := ladderIteration n q 254 l1
     l1 = ⟨⟨fe 1 0 0 0 0, FE.zero, fe 0x144 0 0 0 0, fe 0x24 0 0 0 0⟩, 0⟩ ∧
     l2 = ⟨⟨fe 0x280B90000 0 0 0 0, fe 0xF0DFDC9B2000 0 0 0 0, fe 0x66840 0 0 0 0, fe 0xB640 0 0 0 0⟩, 1⟩ ∧
     ladderIteration n q 253 l2 =
       ⟨⟨fe 0 0xAB5B6D0E80C2 0x6BDFF07D6DA82 0x64536F1095 0, fe 0 0x6A397F2368C40 0x6EE625F72FA4D 0x5688BCC2 0,
         fe 0x4910000000000 0x4E4BCD3D2BC9F 0x72C8914 0 0, fe 0x5E90000000000 0x3EFE429CEDD9C 0x147198F1DB 0 0⟩, 1⟩) := by
  decide +kernel
/-- LADDER completes, with STATUS = 2 (DONE) and the other registers as they were. -/
theorem test_ladder_completes :
    (nextOf (step (busy (.ladder 1 2 0 4) (regs3 FE.zero FE.zero (fe 7 0 0 0 0)) []))).map
      (fun t => (t.statusWord, t.data.getF 3)) = some (2, fe 7 0 0 0 0) := by decide

/-- Section 2.5: the inverse of 2 is `2^254 - 9`. -/
theorem test_invert_two :
    regAfter (.invert 5 1) (regs3 (fe 2 0 0 0 0) FE.zero FE.zero) 5
      = some (fe 0x7FFFFFFFFFFF7 m51 m51 m51 0x3FFFFFFFFFFFF) := by decide +kernel

/-- Section 2.7. -/
theorem test_clamp_ones : bufAfter (.clamp 3 1) (Data.zero.setB 1 (buf 0xFF 0xFF 0xFF)) 3 = some (buf 0xF8 0xFF 0x7F) := by
  decide
/-- Section 2.7: in place. -/
theorem test_clamp_in_place : bufAfter (.clamp 0 0) (Data.zero.setB 0 (buf 0x2A 0x2A 0x2A)) 0 = some (buf 0x28 0x2A 0x6A) := by
  decide

/-- Section 2.7: the stages of SMULT and DPUB behind the ladder, for its x and z there: `r = x * zinv`, and the bytes. -/
theorem test_smult_last_stages :
    feMultiply (fe 0x119E3A5602609 0x78417568D797F 0x4340E653EE35B 0x2515D7DE50EB6 0x210075B5173DD)
        (fe 0x73B77734ED099 0x2688E3E49FEF7 0x6A1F09290CF2F 0x1C5F33E53842F 0x761972F10B696)
      = fe 0x7C19F3EFFAA07 0x4D87E888AA4EC 0x3B3C8DF61F286 0x1D8ABC566BC37 0x765A03CCB3DFE ∧
    encodeFE (fe 0x7C19F3EFFAA07 0x4D87E888AA4EC 0x3B3C8DF61F286 0x1D8ABC566BC37 0x765A03CCB3DFE)
      = ⟨#[0x07, 0xAA, 0xFF, 0x3E, 0x9F, 0xC1, 0x67, 0x27, 0x55, 0x44, 0xF4, 0xC3, 0xA6, 0xA1, 0x7C, 0xD8, 0x37, 0xF2, 0xEC, 0x6E,
          0x78, 0xCD, 0x8A, 0x57, 0xB1, 0xE3, 0xDF, 0xB3, 0xCC, 0x03, 0x5A, 0x76], rfl⟩ := by decide +kernel
/-- SMULT completes; the secret's buffer is not clamped in place (70_reset_and_hazards.md R241). -/
theorem test_smult_keeps_secret :
    (nextOf (step (busy (.smult 2 0 1) (Data.zero.setB 0 (buf 0x2A 0x2A 0x2A)) []))).map
      (fun t => (t.statusWord, t.data.getB 0)) = some (2, buf 0x2A 0x2A 0x2A) := by decide
/-- 45_toplevel.md R180: the base point is `09 00 .. 00`. -/
theorem test_dpub_base_point : basePoint = buf 9 0 0 := by decide
/-- DPUB completes and leaves the secret. -/
theorem test_dpub_keeps_secret :
    (nextOf (step (busy (.dpub 2 0) (Data.zero.setB 0 (buf 0x2A 0x2A 0x2A)) []))).map
      (fun t => (t.statusWord, t.data.getB 0)) = some (2, buf 0x2A 0x2A 0x2A) := by decide
/-- DSHARED completes; its destination may be its point's buffer (program P2). -/
theorem test_dshared_keeps_secret :
    (nextOf (step (busy (.dshared 3 0 3) (Data.zero.setB 0 (buf 0x2A 0x2A 0x2A)) []))).map
      (fun t => (t.statusWord, t.data.getB 0)) = some (2, buf 0x2A 0x2A 0x2A) := by decide

/-! ## The window (section 2.11) -/

/-- Sequence A. -/
theorem test_window_after_reset :
    repliesAfter [statusRead, cmdRead, infoRead, .read 0x400 8, .read 0x080 1, .read 0x014 4, .read 0x428 8, .write 0x428 8 0x55,
      .read 0x428 8] = some [0, 0, 0, 0, 0, 0, 0, 0] := by decide
/-- Sequence B. -/
theorem test_error_sequence :
    repliesAfter [cmdWrite 0xFFFFFFFF, statusRead, infoRead, cmdRead, cmdWrite 0x01120000, statusRead, statusWrite 4, statusRead,
      infoRead, cmdWrite 0x01120000, cmdRead, .complete, statusRead, cmdWrite 0x01120001, statusRead, infoRead, cmdWrite 0,
      statusRead, infoRead, statusWrite 6, statusRead]
      = some [0x14, 0xFFFFFFFF, 0, 0x14, 0, 0, 0x01120000, 2, 0x26, 0x01120001, 0x26, 0x01120001, 0] := by decide
/-- Sequence C, with CLAMP as the command: the write while BUSY is dropped and recorded. -/
theorem test_busy_access :
    repliesAfter [.write 0x080 1 0x2A, cmdWrite 0x50200000, statusRead, .write 0x080 1 0x55, .complete, statusRead, infoRead,
      .read 0x080 1] = some [1, 0x36, 0x80, 0x2A] := by decide
/-- 20_memory.md R55 with decision D13: a write of `ERRINFO` while BUSY is refused and recorded; when not BUSY it stores
nothing. -/
theorem test_errinfo_write :
    repliesAfter [.write 0x010 4 0x55, statusRead, infoRead, cmdWrite 0x50200000, .write 0x010 4 0x55, .complete, statusRead, infoRead]
      = some [0, 0, 0x36, 0x10] := by decide
/-- Sequence D. -/
theorem test_data_accesses :
    repliesAfter [statusWrite 0xFFFFFFF9, statusRead, .write 0x008 8 0x1DB41, .read 0x008 8, .write 0x4D0 8 0xFFFFFFFFFFFFFFFF,
      .read 0x4C8 8, .read 0x4D0 8, .write 0x080 4 0x04030201, .read 0x083 1, .read 0x080 8]
      = some [0, 0x1DB41, 0, 0xFFFFFFFFFFFFFFFF, 4, 0x04030201] := by decide
/-- 20_memory.md R51: an access of an illegal form is refused by name. -/
theorem test_illegal_access :
    step (idle Data.zero [.read 0x000 8]) = .refused (.illegalAccess 0x000 8) ∧
    step (idle Data.zero [.write 0x081 2 0]) = .refused (.illegalAccess 0x081 2) := ⟨rfl, rfl⟩
/-- 70_reset_and_hazards.md R230: a reset abandons the command in flight. -/
theorem test_reset_abandons : step (busy (.fadd 1 2) (regs3 (fe5 1) (fe5 2) (fe5 3)) [.reset]) = .next State.reset := rfl
/-! ## Witnesses: every statement's hypotheses are met, each clause at a boundary of its range -/

/-- Unlisted opcodes; an unused field; coinciding destinations of LSTEP (the first and the last pair) and of LADDER; accepted
words of the first and the last row. -/
theorem witness_ClassifyFollowsTable :
    (0x00 ∉ opcodeRows.map Prod.fst ∧ 0xFF ∉ opcodeRows.map Prod.fst ∧ 0x54 ∉ opcodeRows.map Prod.fst) ∧
    ((0x01, 0xFF00FFFF) ∈ opcodeRows ∧ (0x01120001#32).toNat / 2 ^ 24 = 0x01 ∧
      0x01120001#32 &&& BitVec.ofNat 32 0xFF00FFFF ≠ BitVec.ofNat 32 (0x01 * 2 ^ 24)) ∧
    (Coinciding 0x30001230#32 ∧ Coinciding 0x30012200#32 ∧ Coinciding 0x31FF0000#32) ∧
    ((0x53, 0xFFCCCFFF) ∈ opcodeRows ∧
      0x53302000#32 &&& BitVec.ofNat 32 0xFFCCCFFF = BitVec.ofNat 32 (0x53 * 2 ^ 24)) ∧
    (0x30012340#32 &&& BitVec.ofNat 32 0xFF00000F = BitVec.ofNat 32 (0x30 * 2 ^ 24) ∧ ¬ Coinciding 0x30012340#32) := by
  unfold Coinciding nibble; decide

/-- The five cases of R202: BUSY; not BUSY with ERR; and the three outcomes of decoding. -/
theorem witness_CmdWriteCases :
    ((busy (.fadd 1 2) Data.zero [cmdWrite 0]).pending = .write 0x000 4 0 :: [] ∧
      (busy (.fadd 1 2) Data.zero [cmdWrite 0]).busy = true) ∧
    (let s := (idle Data.zero [cmdWrite 0x01120000]).raise .illegalOpcode 0
     s.busy = false ∧ s.err = true ∧ s.pending = .write 0x000 4 0x01120000 :: []) ∧
    (let s := idle Data.zero [cmdWrite 0x01120000]
     s.busy = false ∧ s.err = false ∧ s.pending = .write 0x000 4 0x01120000 :: [] ∧
       classify ((0x01120000 : Limb).setWidth 32) = .command (.fadd 1 2) ∧
       classify ((0 : Limb).setWidth 32) = .illegalOpcode ∧ classify ((0x01120001 : Limb).setWidth 32) = .illegalOperand) := by
  decide

/-- ERR recorded, and each kind of event but the two that clear it, with BUSY = 0 and with BUSY = 1. -/
theorem witness_FirstErrorIsKept :
    (∀ a ∈ [cmdWrite 0x01120000, statusRead, .write 0x008 8 1, .complete], a ≠ Action.reset) ∧
    (∃ t, step ((idle Data.zero [cmdWrite 0x01120000]).raise .busyAccess 0x7F8) = .next t) ∧
    (∃ t, step ((busy (.fadd 1 2) Data.zero [.complete]).raise .busyAccess 0x080) = .next t) ∧
    (∃ t, step ((busy (.fadd 1 2) Data.zero [statusWrite 2]).raise .busyAccess 0x080) = .next t ∧ (2 : Limb).getLsbD 2 = false) := by
  refine ⟨by decide, ⟨_, rfl⟩, ⟨_, rfl⟩, ⟨_, rfl, rfl⟩⟩

/-- A write with bit 2 = 1, one with bit 2 = 0, and a reset. -/
theorem witness_ErrorClearedByWrite :
    (idle Data.zero [statusWrite 4]).pending = .write 0x004 4 4 :: [] ∧ (4 : Limb).getLsbD 2 = true ∧
    (idle Data.zero [statusWrite 0xFFFFFFFB]).pending = .write 0x004 4 0xFFFFFFFB :: [] ∧
    (0xFFFFFFFB : Limb).getLsbD 2 = false ∧ (idle Data.zero [.reset]).pending = .reset :: [] := by decide

/-- A command in flight with the completion next, and with no event left. -/
theorem witness_StepRunsCommandInFlight :
    (busy (.fadd 1 2) Data.zero [.complete]).inFlight = some ⟨.fadd 1 2, Data.zero⟩ ∧
    (busy (.fadd 1 2) Data.zero [.complete]).pending = .complete :: [] ∧ (busy (.fadd 1 2) Data.zero []).pending = [] := by decide

/-- A table word with operands, and one of a row with a constraint. -/
theorem witness_PlacedWordRunsNext :
    decodeTableWord 32 0x01120000 = some (.fadd 1 2) ∧ (Instr.fadd 1 2).wf = true ∧
    decodeTableWord 32 0x30012340 = some (.lstep 0 1 2 3 4) ∧ (Instr.lstep 0 1 2 3 4).wf = true := by decide

/-- An idle block with no event, and with the engine's turn. -/
theorem witness_IdleEngineDoesNothing :
    (idle Data.zero []).busy = false ∧ (idle Data.zero []).pending = [] ∧ (idle Data.zero [.complete]).busy = false ∧
    (idle Data.zero [.complete]).pending = .complete :: [] := by decide

/-- A command in flight, with a register outside and a buffer outside its destinations. -/
theorem witness_CompletionFrame :
    (busy (.fadd 1 2) Data.zero []).inFlight = some ⟨.fadd 1 2, Data.zero⟩ ∧ (15 : FReg) ∉ regDests (.fadd 1 2) ∧
    (3 : BReg) ∉ bufDests (.fadd 1 2) ∧ (3 : BReg) ∉ bufDests (.encode 2 5) := by decide

/-- Two blocks that agree on the sources of FMUL and on nothing else. -/
theorem witness_ResultDependsOnOperandsOnly :
    let l : InFlight := ⟨.fmul 3 1 2, regs3 (fe 1 2 3 4 5) (fe 6 7 8 9 10) FE.zero⟩
    let l' : InFlight := ⟨.fmul 3 1 2, (regs (fe 1 2 3 4 5) (fe 6 7 8 9 10) (fe5 9) (fe5 9) (fe5 9)).setK 5⟩
    l ≠ l' ∧ (∀ r ∈ regSources (.fmul 3 1 2), l.src.getF r = l'.src.getF r) ∧ bufSources (.fmul 3 1 2) = [] ∧
      readsK (.fmul 3 1 2) = false ∧ readsK (.fsma 3 1 2) = true := by decide

/-- For each of the sixteen commands a block in which it is in flight. -/
theorem witness_commands_in_flight :
    ∀ i ∈ [Instr.fadd 1 2, .fdiff 1 2, .fsma 1 2 3, .fmul 1 2 3, .fsqr 1 2, .fcopy 1 2, .decode 1 2, .encode 1 2, .cswap 1 2 1,
      .lstep 0 1 2 3 0, .ladder 0 1 0 1, .invert 1 2, .clamp 1 1, .smult 3 3 3, .dpub 2 0, .dshared 3 0 2],
      (busy i Data.zero []).inFlight = some ⟨i, Data.zero⟩ ∧ i.wf = true := by decide

/-- FDIFF with equal operands; FSMA with K = 0; FMUL with a zero factor, and with the factor one and the largest limbs admitted. -/
theorem witness_field_corners :
    (∃ a b : FReg, a = b) ∧ (busy (.fsma 1 2 3) Data.zero []).inFlight = some ⟨.fsma 1 2 3, Data.zero⟩ ∧ Data.zero.k = 0 ∧
    (regs3 (fe5 m51) FE.zero FE.zero).getF 2 = ⟨0, 0, 0, 0, 0⟩ ∧ (regs3 (fe5 m51) FE.one FE.zero).getF 2 = ⟨1, 0, 0, 0, 0⟩ ∧
    ((regs3 (fe5 m51) FE.one FE.zero).getF 1).below (2 ^ 51) := by
  refine ⟨⟨1, 1, rfl⟩, rfl, rfl, by decide, by decide, by decide⟩

/-- The three registers ENCODE packs to zero bytes, both flags of CSWAP, and the three fixed points of INVERT. -/
theorem witness_codec_swap_invert_corners :
    (regs3 limbsOfP (feAdd limbsOfP limbsOfP) FE.one).getF 1 = limbsOfP ∧
    (regs3 limbsOfP (feAdd limbsOfP limbsOfP) FE.one).getF 2 = feAdd limbsOfP limbsOfP ∧
    (regs3 limbsOfP (feAdd limbsOfP limbsOfP) FE.one).getF 3 = ⟨1, 0, 0, 0, 0⟩ ∧
    (regs3 limbsOfP (feAdd limbsOfP limbsOfP) FE.one).getF 4 = ⟨0, 0, 0, 0, 0⟩ ∧ (1 : BitVec 1) ≠ 0 := by decide

/-- LSTEP with distinct and with coinciding destinations and with `nq` = (1 : 0); LADDER with both, and a zero scalar. -/
theorem witness_ladder_corners :
    ((1 : FReg) ≠ 2 ∧ (1 : FReg) ≠ 3 ∧ (1 : FReg) ≠ 4 ∧ (2 : FReg) ≠ 3 ∧ (2 : FReg) ≠ 4 ∧ (3 : FReg) ≠ 4) ∧
    (regs3 FE.one FE.zero FE.zero).getF 1 = ⟨1, 0, 0, 0, 0⟩ ∧ (regs3 FE.one FE.zero FE.zero).getF 2 = ⟨0, 0, 0, 0, 0⟩ ∧
    Instr.wf (.lstep 15 1 2 15 4) = false ∧ (14 : FReg) ≠ 15 ∧ Instr.wf (.ladder 15 15 0 4) = false ∧
    Data.zero.getB 3 = zeroBytes := by decide

/-- DPUB and a buffer that holds the base point; SMULT and a zero point. -/
theorem witness_point_buffers :
    byteAt (buf 9 0 0) 0 = 9 ∧ (∀ j < 31, byteAt (buf 9 0 0) (j + 1) = 0) ∧ (Data.zero.setB 3 (buf 9 0 0)).getB 3 = buf 9 0 0 ∧
    (busy (.smult 2 0 1) (Data.zero.setB 0 (buf 1 2 3)) []).inFlight = some ⟨.smult 2 0 1, Data.zero.setB 0 (buf 1 2 3)⟩ ∧
    (Data.zero.setB 0 (buf 1 2 3)).getB 1 = zeroBytes := by decide

/-- The first and the last limb of the window, and the accesses next to them. -/
theorem witness_LegalAccessesOnly :
    LegalAccess 0x400 8 ∧ LegalAccess 0x7E0 8 ∧ LegalAccess 0x7FC 4 ∧ LegalAccess 0x0FF 1 ∧ LegalAccess 0x010 4 ∧
    ¬ LegalAccess 0x100 1 ∧ ¬ LegalAccess 0x800 4 ∧ ¬ LegalAccess 0x404 4 ∧ ¬ LegalAccess 0x000 8 ∧ ¬ LegalAccess 0x008 4 := by
  unfold LegalAccess ControlAccess DataAccess BufferAccess LimbAccess ReservedAccess
  refine ⟨.inr (.inl (.inr (.inr ⟨rfl, 0, 0, by omega⟩))), .inr (.inl (.inr (.inr ⟨rfl, 15, 4, by omega⟩))),
    .inr (.inr ⟨by omega, by omega, .inr (.inr ⟨15, by omega⟩)⟩), by omega, by omega, ?_, ?_, ?_, ?_, ?_⟩ <;>
    · rintro (h | (h | h | ⟨h, r, j, h'⟩) | ⟨h, h', h'' | h'' | ⟨r, h''⟩⟩) <;> omega

/-- An idle block with an access of the first and of the last limb. -/
theorem witness_LimbReadAndWrite :
    (idle Data.zero [.read 0x400 8]).busy = false ∧
    (idle Data.zero [.read 0x400 8]).pending = .read (0x400 + 64 * (0 : FReg).val + 8 * (0 : Fin 5).val) 8 :: [] ∧
    (idle Data.zero [.write 0x7E0 8 1]).pending = .write (0x400 + 64 * (15 : FReg).val + 8 * (4 : Fin 5).val) 8 1 :: [] := by decide

/-- The smallest access at the last byte of the last buffer, and the widest at the first byte of the first. -/
theorem witness_BufferLittleEndian :
    (idle Data.zero [.read 0x0FF 1]).busy = false ∧ 1 ∣ 31 ∧
    (idle Data.zero [.read 0x0FF 1]).pending = .read (0x080 + 32 * (3 : BReg).val + 31) 1 :: [] ∧ 8 ∣ 0 ∧ 8 ∣ 24 ∧
    (idle Data.zero [.write 0x080 8 1]).pending = .write (0x080 + 32 * (0 : BReg).val + 0) 8 1 :: [] := by decide

/-- The first and the last reserved words of the three kinds of row, and one with BUSY = 1. -/
theorem witness_ReservedReadsZero :
    ReservedAccess 0x014 4 ∧ ReservedAccess 0x07C 4 ∧ ReservedAccess 0x100 8 ∧ ReservedAccess 0x3F8 8 ∧ ReservedAccess 0x428 4 ∧
    ReservedAccess 0x7F8 8 ∧ (busy (.fadd 1 2) Data.zero [.read 0x014 4]).pending = .read 0x014 4 :: [] ∧
    (busy (.fadd 1 2) Data.zero [.write 0x7F8 8 1]).pending = .write 0x7F8 8 1 :: [] := by
  unfold ReservedAccess
  exact ⟨by omega, by omega, by omega, by omega, ⟨by omega, by omega, .inr (.inr ⟨0, by omega⟩)⟩,
    ⟨by omega, by omega, .inr (.inr ⟨15, by omega⟩)⟩, rfl, rfl⟩

/-- An idle block with each of the accesses named. -/
theorem witness_ControlRegisterAccess :
    (idle Data.zero [cmdRead]).pending = .read 0x000 4 :: [] ∧ (idle Data.zero [infoRead]).pending = .read 0x010 4 :: [] ∧
    (idle Data.zero [.write 0x010 4 1]).pending = .write 0x010 4 1 :: [] ∧ (idle Data.zero [.write 0x010 4 1]).busy = false ∧
    (idle Data.zero [.read 0x008 8]).pending = .read 0x008 8 :: [] ∧ (idle Data.zero [.read 0x008 8]).busy = false ∧
    (idle Data.zero [.write 0x008 8 1]).pending = .write 0x008 8 1 :: [] ∧ (idle Data.zero [.write 0x008 8 1]).busy = false := by
  decide

/-- A read of STATUS is next. -/
theorem witness_StatusReadLayout :
    (busy (.fadd 1 2) Data.zero [statusRead]).pending = .read 0x004 4 :: [] := by decide

/-- A busy block with a read of a buffer byte, a write of a limb, writes of `CMD` and `ERRINFO`, a read of `ERRINFO` and a write of `STATUS` next. -/
theorem witness_BusyAccessRefused :
    DataAccess 0x0FF 1 ∧ GuardedWrite 0x008 8 ∧ GuardedWrite 0x7E0 8 ∧ GuardedWrite 0x000 4 ∧ GuardedWrite 0x010 4 ∧
    ¬ GuardedWrite 0x004 4 ∧ ControlAccess 0x010 4 ∧
    (busy (.fadd 1 2) Data.zero [.read 0x0FF 1]).busy = true ∧
    (busy (.fadd 1 2) Data.zero [.read 0x0FF 1]).pending = .read 0x0FF 1 :: [] ∧
    (busy (.fadd 1 2) Data.zero [.write 0x7E0 8 1]).pending = .write 0x7E0 8 1 :: [] ∧
    (busy (.fadd 1 2) Data.zero [cmdWrite 1]).pending = .write 0x000 4 1 :: [] ∧
    (busy (.fadd 1 2) Data.zero [.write 0x010 4 1]).pending = .write 0x010 4 1 :: [] ∧
    (busy (.fadd 1 2) Data.zero [infoRead]).pending = .read 0x010 4 :: [] ∧
    (busy (.fadd 1 2) Data.zero [statusWrite 6]).pending = .write 0x004 4 6 :: [] := by
  unfold GuardedWrite DataAccess ControlAccess BufferAccess LimbAccess
  refine ⟨by omega, by omega, .inl (.inr (.inr ⟨rfl, 15, 4, by omega⟩)), by omega, by omega, ?_, by omega, rfl, rfl, rfl, rfl, rfl,
    rfl, rfl⟩
  rintro ((h | h | ⟨h, r, j, h'⟩) | h) <;> omega

/-- A busy block whose next event is a host access that gives a next state. -/
theorem witness_NothingChangesWhileBusy :
    (busy (.fadd 1 2) Data.zero [.write 0x080 1 0x55]).busy = true ∧ IsAccess (.write 0x080 1 0x55) ∧
    ∃ t, step (busy (.fadd 1 2) Data.zero [.write 0x080 1 0x55]) = .next t := by
  exact ⟨rfl, ⟨by decide, by decide⟩, _, rfl⟩

/-- Reads and writes that are not refused: of the last limb and the last buffer byte, of `ERRINFO` with BUSY = 0, and of `CMD` and
a reserved offset with BUSY = 1. -/
theorem witness_AccessSideEffects :
    (locate 0x7E0 8 = some (.limb 15 4) ∧ locate 0x0FF 1 = some (.buffer 3 31) ∧ locate 0x010 4 = some .errInfo ∧
      locate 0x008 8 = some .k ∧ (idle Data.zero [.write 0x7E0 8 1]).busy = false ∧
      (idle Data.zero [.write 0x7E0 8 1]).pending = .write 0x7E0 8 1 :: []) ∧
    (¬ DataAccess 0x000 4 ∧ locate 0x000 4 = some .cmd ∧ (busy (.fadd 1 2) Data.zero [cmdRead]).pending = .read 0x000 4 :: []) ∧
    (¬ GuardedWrite 0x7FC 4 ∧ locate 0x7FC 4 = some .reserved ∧
      (busy (.fadd 1 2) Data.zero [.write 0x7FC 4 1]).pending = .write 0x7FC 4 1 :: []) := by
  refine ⟨by decide, ⟨?_, rfl, rfl⟩, ⟨?_, rfl, rfl⟩⟩
  · unfold DataAccess BufferAccess LimbAccess
    rintro (h | h | ⟨h, r, j, h'⟩) <;> omega
  · unfold GuardedWrite DataAccess BufferAccess LimbAccess
    rintro ((h | h | ⟨h, r, j, h'⟩) | h) <;> omega

/-- A busy block that is reset. -/
theorem witness_ResetAbandonsCommand :
    (busy (.fadd 1 2) (regs3 (fe5 1) (fe5 2) (fe5 3)) [.reset]).pending = .reset :: [] := by decide

/-- A state other than reset that meets the invariant, a command in flight in it, and its step. -/
theorem witness_StepKeepsInvariant :
    (busy (.fadd 1 2) (regs3 (fe5 1) (fe5 2) (fe5 3)) [.complete]).Inv ∧
    ∃ t, step (busy (.fadd 1 2) (regs3 (fe5 1) (fe5 2) (fe5 3)) [.complete]) = .next t := by
  refine ⟨⟨.inr ⟨.fadd 1 2, by decide⟩, ?_, ?_, fun _ => rfl, .inl ⟨rfl, rfl, rfl⟩⟩, _, rfl⟩
  · intro l h; cases h; decide
  · intro l h; cases h; rfl

/-- A busy block with legal events of every kind still to come; one with no reset among them, and one with no event at all. -/
theorem witness_CommandsComplete :
    (busy (.fadd 1 2) Data.zero [.read 0x7E0 8, .write 0x0FF 1 1, .complete, cmdWrite 0x01120000, .reset]).LegalRun ∧
    (busy (.fadd 1 2) Data.zero [.read 0x7E0 8, .complete, .write 0x448 8 1]).LegalRun ∧
    (∀ a ∈ [Action.read 0x7E0 8, .complete, .write 0x448 8 1], a ≠ .reset) ∧ (busy (.fadd 1 2) Data.zero []).LegalRun ∧
    (busy (.fadd 1 2) Data.zero []).inFlight = some ⟨.fadd 1 2, Data.zero⟩ := by decide

/-- An accepted command, accesses before its completion, and an event after it. -/
theorem witness_AccessesDoNotDisturbCommand :
    let mid : List Action := [cmdRead, .write 0x080 1 0x55, cmdWrite 0x02410000, .read 0x7E0 8]
    let s := idle (regs3 (fe5 1) (fe5 2) FE.zero) (cmdWrite 0x01120000 :: (mid ++ .complete :: [statusRead]))
    s.busy = false ∧ s.err = false ∧ classify ((0x01120000 : Limb).setWidth 32) = .command (.fadd 1 2) ∧
      (∀ a ∈ mid, a.legal = true ∧ a ≠ .complete ∧ a ≠ .reset) ∧
      s.pending = .write 0x000 4 0x01120000 :: (mid ++ .complete :: [statusRead]) := by decide

/-- The largest loose factors. -/
theorem witness_MultiplyIsModularProduct : (fe5 (2 ^ 54 - 1)).loose ∧ FE.zero.loose := by decide

/-- The largest operands of the signed statement of Difference. -/
theorem witness_DifferenceKeepsSignedValue : FE.zero.below (2 ^ 62) ∧ (fe5 (2 ^ 62 - 1)).below (2 ^ 62) := by decide

/-- Both cases of the corner: the difference is exactly p, and one more. -/
theorem witness_DifferenceOfReducedLimbs :
    (fe5 m51).below (2 ^ 51) ∧ (fe 18 0 0 0 0).below (2 ^ 51) ∧ (fe 17 0 0 0 0).below (2 ^ 51) ∧
    (fe5 m51).val ≤ (fe 18 0 0 0 0).val + Config.p ∧ (fe5 m51).val > (fe 17 0 0 0 0).val + Config.p := by decide +kernel

/-- The largest scalar, factor and summand. -/
theorem witness_ScalarMultiplyAddValue :
    (0xFFFFFFFF : Limb).toNat < 2 ^ 32 ∧ (fe5 (2 ^ 54 - 1)).loose ∧ (fe5 (2 ^ 63 - 1)).below (2 ^ 63) := by decide

/-- The largest canonical register. -/
theorem witness_CodecRoundTrips :
    (fe 0x7FFFFFFFFFFEC m51 m51 m51 m51).below (2 ^ 51) ∧ (fe 0x7FFFFFFFFFFEC m51 m51 m51 m51).val < Config.p := by decide +kernel

/-- The doubling of 9 (95_test_vectors.md section 2.4, row 2): tight inputs, no Difference with bit 63 set. -/
theorem witness_LadderStepAlgebra :
    (fe 9 0 0 0 0).tight ∧ FE.one.tight ∧ FE.zero.tight ∧
    ∀ d ∈ stepDifferences ⟨fe 9 0 0 0 0, FE.one, FE.one, FE.zero⟩, d.noSign := by
  refine ⟨by decide, by decide, by decide, ?_⟩
  simp only [stepDifferences, List.mem_cons, List.not_mem_nil, or_false, forall_eq_or_imp, forall_eq]
  exact ⟨by decide +kernel, by decide +kernel, by decide +kernel, by decide +kernel⟩

/-- The largest loose operand. -/
theorem witness_InvertIsPower : (fe5 (2 ^ 54 - 1)).loose := by decide

/-- Two points that differ in bit 255. -/
theorem witness_ScalarMultOfAnyInputs : buf 9 0 0x80 ≠ buf 9 0 0 ∧ le (buf 9 0 0x80) % 2 ^ 255 = le (buf 9 0 0) % 2 ^ 255 := by
  decide +kernel

/-- A block ready for a command, the operands of R188, and operands that coincide as far as the statement admits. -/
theorem witness_SmultByPrimitives :
    (idle (Data.zero.setB 0 (buf 0x2A 0x2A 0x2A)) []).busy = false ∧
    (idle (Data.zero.setB 0 (buf 0x2A 0x2A 0x2A)) []).err = false ∧ ((3 : BReg) ≠ 1 ∧ (0 : FReg) ≠ 1 ∧ (5 : FReg) ≠ 0) ∧
    ((0 : BReg) ≠ 1 ∧ (0 : FReg) ≠ 15 ∧ (15 : FReg) ≠ 0) := by decide

/-- A block ready for a command with the ladder's start in F0 to F3 and q = 9 in F4, as in program P3. -/
theorem witness_LadderByHostLoop :
    let d := ((((Data.zero.setF 0 FE.one).setF 2 (fe 9 0 0 0 0)).setF 3 FE.one).setF 4 (fe 9 0 0 0 0)).setB 0 (buf 0x28 0x2A 0x6A)
    [(0 : FReg), 1, 2, 3, 4].Nodup ∧ (idle d []).busy = false ∧ (idle d []).err = false ∧ d.getF 0 = FE.one ∧
      d.getF 1 = FE.zero ∧ d.getF 2 = d.getF 4 ∧ d.getF 3 = FE.one ∧
      (issue (hostLadder 0 1 2 3 4 (d.getB 0) 256 0)).length = 1540 := by decide +kernel

/-- A long command in flight. -/
theorem witness_MicroProgramsComputeCommands :
    (busy (.ladder 0 1 0 4) (Data.zero.setB 0 (buf 0x2A 0x2A 0x2A)) []).inFlight
      = some ⟨.ladder 0 1 0 4, Data.zero.setB 0 (buf 0x2A 0x2A 0x2A)⟩ := by decide

end Sys2Proof.Tests
end

section
/-! SUPPORT and PROOFS. The contents of the reset data by index, and the state after reset (10_state.md R31). -/

namespace Sys2Proof.Machine

/-! ## Zero data by index -/

@[simp] theorem FE.limb_zero (j : Fin 5) : FE.zero.limb j = 0 := by
  fin_cases j <;> rfl

@[simp] theorem byteAt_replicate_zero (j : Nat) : byteAt (Vector.replicate 32 0) j = 0 := by
  unfold byteAt
  split
  case isTrue h => exact Vector.getElem_replicate h
  case isFalse => rfl

@[simp] theorem Data.getF_zero (r : FReg) : Data.zero.getF r = FE.zero :=
  Vector.getElem_replicate r.isLt

@[simp] theorem Data.getB_zero (k : BReg) : Data.zero.getB k = Vector.replicate 32 0 :=
  Vector.getElem_replicate k.isLt

/-! ## The state after reset -/

@[simp] theorem State.reset_data : State.reset.data = Data.zero := rfl

/-- No bit of `STATUS` is set after reset (10_state.md R26, R31). -/
@[simp] theorem State.reset_statusWord : State.reset.statusWord = 0 := by decide

/-- Settles O38: the registers and buffers by index from the zero data, the control registers as reset sets them. -/
theorem resetStateIsZero : Obligations.ResetStateIsZero := by
  have limbs (r : FReg) (j : Fin 5) : (State.reset.data.getF r).limb j = 0 := by
    rw [State.reset_data, Data.getF_zero, FE.limb_zero]
  have bytes (k : BReg) (j : Nat) : byteAt (State.reset.data.getB k) j = 0 := by
    rw [State.reset_data, Data.getB_zero, byteAt_replicate_zero]
  exact ⟨limbs, bytes, rfl, rfl, State.reset_statusWord, rfl, rfl⟩

end Sys2Proof.Machine
end

section
/-! SUPPORT and PROOFS. The host register window (20_memory.md R52 to R55): what a step does with a host access whose
place `locate` gives, which place each named form of access reaches, and what a buffer or limb access reads and writes. -/

namespace Sys2Proof.Machine

open Sys2Proof.Claims

/-! ## A step that takes a host access, by the place it reaches -/

section Access

/-- What a read returns does not depend on the events still to come. -/
@[simp] theorem State.peek_pending (s : State) (l : List Action) (n : Nat) (p : Place) :
    State.peek { s with pending := l } n p = s.peek n p := by
  cases p <;> rfl

variable {s : State} {off n : Nat} {v : Limb} {rest : List Action} {p : Place}

theorem step_read_open (h : s.pending = .read off n :: rest) (hp : locate off n = some p)
    (hs : (s.busy && p.readGuarded) = false) :
    step s = .next { s with pending := rest, replies := s.peek n p :: s.replies } := by
  rw [← State.peek_pending s rest n p]
  exact (step_cons h).trans (hostRead_open hp hs)

theorem step_read_guarded (h : s.pending = .read off n :: rest) (hp : locate off n = some p)
    (hs : (s.busy && p.readGuarded) = true) :
    step s = .next ((State.raise { s with pending := rest } .busyAccess (BitVec.ofNat 32 off)).reply 0) :=
  (step_cons h).trans (hostRead_guarded hp hs)

theorem step_write_open (h : s.pending = .write off n v :: rest) (hp : locate off n = some p)
    (hs : (s.busy && p.writeGuarded) = false) :
    step s = .next (State.poke { s with pending := rest } n v p) :=
  (step_cons h).trans (hostWrite_open (s := { s with pending := rest }) hp hs v)

theorem step_write_guarded (h : s.pending = .write off n v :: rest) (hp : locate off n = some p)
    (hs : (s.busy && p.writeGuarded) = true) :
    step s = .next (State.raise { s with pending := rest } .busyAccess (BitVec.ofNat 32 off)) :=
  (step_cons h).trans (hostWrite_guarded (s := { s with pending := rest }) hp hs v)

end Access

/-! ## The place each form of access reaches (R50, R51, R54) -/

section Place

variable {off n : Nat}

theorem locate_of_limbAccess (h : LimbAccess off n) : ∃ r j, locate off n = some (.limb r j) := by
  obtain ⟨rfl, r, j, hr, hj, rfl⟩ := h
  exact ⟨⟨r, hr⟩, ⟨j, hj⟩, locate_limb ⟨r, hr⟩ ⟨j, hj⟩⟩

theorem locate_of_bufferAccess (h : BufferAccess off n) : ∃ k j, locate off n = some (.buffer k j) := by
  obtain ⟨hlo, hhi, hn, hd⟩ := h
  have ho : (off - 0x080) % 32 < 32 := Nat.mod_lt _ (by omega)
  have hm : (off - 0x080) % 32 % n = 0 := by rcases hn with rfl | rfl | rfl | rfl <;> omega
  have hk : (off - 0x080) / 32 < 4 := by omega
  have hl := locate_buffer ⟨(off - 0x080) / 32, hk⟩ ho hn hm
  have he : 0x080 + 32 * ((off - 0x080) / 32) + (off - 0x080) % 32 = off := by omega
  exact ⟨_, _, he ▸ hl⟩

theorem locate_of_dataAccess (h : DataAccess off n) : ∃ p, locate off n = some p ∧ p.readGuarded = true := by
  obtain ⟨rfl, rfl⟩ | hb | hl := h
  · exact ⟨.k, rfl, rfl⟩
  · obtain ⟨k, j, hp⟩ := locate_of_bufferAccess hb
    exact ⟨_, hp, rfl⟩
  · obtain ⟨r, j, hp⟩ := locate_of_limbAccess hl
    exact ⟨_, hp, rfl⟩

theorem locate_of_reservedAccess (h : ReservedAccess off n) : locate off n = some .reserved := by
  obtain ⟨hn, hd, hrow⟩ := h
  have hin : inReserved off n = true := by
    simp only [inReserved, Bool.or_eq_true, Bool.and_eq_true, decide_eq_true_eq]
    obtain h | h | ⟨r, hr, hlo, hhi⟩ := hrow
    · exact .inl (.inl h)
    · exact .inl (.inr h)
    · exact .inr ⟨⟨by omega, by omega⟩, by omega⟩
  exact locate_reserved hn (Nat.mod_eq_zero_of_dvd hd) hin

end Place

/-! ## Reserved offsets (R54) -/

/-- Settles O32: the place is `reserved`, which BUSY guards against neither reads nor writes. -/
theorem reservedReadsZero : Obligations.ReservedReadsZero := by
  intro s off n rest hr
  have hp := locate_of_reservedAccess hr
  exact ⟨fun h => step_read_open h hp (Bool.and_false _), fun v h => step_write_open h hp (Bool.and_false _)⟩

/-! ## Limbs (R53) -/

/-- Every limb after one was written. -/
theorem limb_getF_setF_setLimb (d : Data) (r r' : FReg) (j j' : Fin 5) (v : Limb) :
    ((d.setF r ((d.getF r).setLimb j v)).getF r').limb j' = if (r', j') = (r, j) then v else (d.getF r').limb j' := by
  rw [Data.getF_setF]
  by_cases hr : r' = r
  · subst hr
    simp only [if_true, limb_setLimb, Prod.mk.injEq, true_and]
  · simp only [hr, if_false, Prod.mk.injEq, false_and]

/-- Settles O30: the access reaches its limb, which is open while BUSY = 0; the data after the write by index. -/
theorem limbReadAndWrite : Obligations.LimbReadAndWrite := by
  intro s r j rest hb
  have hp := locate_limb r j
  have hopen (g : Bool) : (s.busy && g) = false := by rw [hb, Bool.false_and]
  refine ⟨fun h => step_read_open h hp (hopen _), fun v h => ⟨_, step_write_open h hp (hopen _), ?_, ?_, ?_, rfl, rfl⟩⟩
  · exact (limb_getF_setF_setLimb s.data r r j j v).trans (if_pos rfl)
  · exact fun r' j' hne => (limb_getF_setF_setLimb s.data r r' j j' v).trans (if_neg hne)
  · exact fun k i => rfl

/-! ## Buffers (R52) -/

/-- A byte put below a word that leaves room for it. -/
theorem shiftLeft_or_byte_toNat {w : Limb} (hw : w.toNat < 2 ^ 56) (x : Byte) :
    ((w <<< 8) ||| x.setWidth 64).toNat = x.toNat + 256 * w.toNat := by
  have hx : x.toNat < 2 ^ 8 := x.isLt
  have hw' : w.toNat <<< 8 % 2 ^ 64 = w.toNat <<< 8 := by rw [Nat.shiftLeft_eq]; omega
  rw [BitVec.toNat_or, BitVec.toNat_shiftLeft, BitVec.toNat_setWidth, hw', Nat.mod_eq_of_lt (by omega),
    ← Nat.shiftLeft_add_eq_or_of_lt hx, Nat.shiftLeft_eq]
  omega

theorem two_pow_eight_mul_succ (n : Nat) : 2 ^ (8 * (n + 1)) = 256 * 2 ^ (8 * n) := by
  rw [Nat.mul_succ, Nat.pow_add, Nat.mul_comm]

/-- `n` bytes fit in `8 * n` bits. -/
theorem bytesWord_toNat_lt (b : Bytes32) (o : Nat) {n : Nat} (hn : n ≤ 8) : (bytesWord b o n).toNat < 2 ^ (8 * n) := by
  induction n generalizing o with
  | zero => exact Nat.one_pos
  | succ n ih =>
    have hrest := ih (o + 1) (by omega)
    have hroom : 2 ^ (8 * n) ≤ 2 ^ 56 := Nat.pow_le_pow_right (by omega) (by omega)
    have hbyte := (byteAt b o).isLt
    rw [bytesWord, shiftLeft_or_byte_toNat (by omega), two_pow_eight_mul_succ]
    omega

/-- The byte at the lowest offset is the least significant one. -/
theorem bytesWord_succ_toNat (b : Bytes32) (o : Nat) {n : Nat} (hn : n < 8) :
    (bytesWord b o (n + 1)).toNat = (byteAt b o).toNat + 256 * (bytesWord b (o + 1) n).toNat := by
  have hroom : 2 ^ (8 * n) ≤ 2 ^ 56 := Nat.pow_le_pow_right (by omega) (by omega)
  exact shiftLeft_or_byte_toNat (Nat.lt_of_lt_of_le (bytesWord_toNat_lt b (o + 1) (by omega)) hroom) _

/-- Byte `i` of the word read is byte `o + i` of the buffer. -/
theorem bytesWord_byte (b : Bytes32) (o : Nat) {n i : Nat} (hn : n ≤ 8) (hi : i < n) :
    (bytesWord b o n).toNat / 2 ^ (8 * i) % 256 = (byteAt b (o + i)).toNat := by
  induction n generalizing o i with
  | zero => omega
  | succ n ih =>
    have hbyte := (byteAt b o).isLt
    rw [bytesWord_succ_toNat b o hn]
    cases i with
    | zero => simp only [Nat.mul_zero, Nat.pow_zero, Nat.div_one, Nat.add_zero]; omega
    | succ i =>
      have hdrop : ((byteAt b o).toNat + 256 * (bytesWord b (o + 1) n).toNat) / 256 = (bytesWord b (o + 1) n).toNat := by
        omega
      rw [two_pow_eight_mul_succ, ← Nat.div_div_eq_div_mul, hdrop, ih (o + 1) (by omega) (by omega), Nat.add_right_comm, Nat.add_assoc]

/-- Every byte of every buffer after a write of `n` bytes. -/
theorem byteAt_getB_setB_setBytesWord (d : Data) (k k' : BReg) {o n : Nat} (v : Limb) (m : Nat) (h : o + n ≤ 32) :
    byteAt ((d.setB k (setBytesWord (d.getB k) o v n)).getB k') m
      = if k' = k ∧ o ≤ m ∧ m < o + n then (v >>> (8 * (m - o))).setWidth 8 else byteAt (d.getB k') m := by
  rw [Data.getB_setB]
  by_cases hk : k' = k
  · subst hk
    simp only [if_true, byteAt_setBytesWord _ _ _ _ _ h, true_and]
  · simp only [hk, if_false, false_and]

/-- Settles O31: the access reaches its bytes, which are open while BUSY = 0; the word read and the buffer written, byte by
byte. -/
theorem bufferLittleEndian : Obligations.BufferLittleEndian := by
  intro s k o n rest hb hn hd ho
  have hn8 : n ≤ 8 := by omega
  have hfit : o + n ≤ 32 := by rcases hn with rfl | rfl | rfl | rfl <;> omega
  have hp := locate_buffer k ho hn (Nat.mod_eq_zero_of_dvd hd)
  have hopen (g : Bool) : (s.busy && g) = false := by rw [hb, Bool.false_and]
  have hbyte := byteAt_getB_setB_setBytesWord s.data k (h := hfit)
  refine ⟨fun h => ⟨_, step_read_open h hp (hopen _), bytesWord_toNat_lt _ o hn8, fun i => bytesWord_byte _ o hn8⟩,
    fun v h => ⟨_, step_write_open h hp (hopen _), ?written, ?others, fun r => rfl, rfl, rfl⟩⟩
  case written =>
    intro i hi
    have hset := (hbyte k v (o + i)).trans (if_pos ⟨rfl, by omega, by omega⟩)
    calc _ = ((v >>> (8 * (o + i - o))).setWidth 8).toNat := congrArg BitVec.toNat hset
      _ = v.toNat / 2 ^ (8 * i) % 256 := by
        rw [BitVec.toNat_setWidth, BitVec.toNat_ushiftRight, Nat.shiftRight_eq_div_pow, Nat.add_sub_cancel_left]
  case others =>
    intro k' m hout
    refine (hbyte k' v m).trans (if_neg ?_)
    rintro ⟨hk, hlo, hhi⟩
    obtain hne | hpast := hout
    · exact hne hk
    · omega

/-! ## Accesses while BUSY (R55) -/

theorem raise_busyAccess_eq_recordFirst (s : State) (v : Word32) : s.raise .busyAccess v = recordFirst s 3 v := rfl

/-- A reply touches the replies only. -/
theorem State.reply_restore {s : State} {old : List Limb} (h : s.replies = old) (v : Limb) :
    { s.reply v with replies := old } = s := by
  subst h
  rfl

/-- Every guarded write is recorded as `BusyAccess` and does nothing else: that of `CMD` by the first case of R202, every
other by the window. -/
theorem step_guardedWrite_busy {s : State} {off n : Nat} {v : Limb} {rest : List Action} (hb : s.busy = true)
    (hg : GuardedWrite off n) (h : s.pending = .write off n v :: rest) :
    step s = .next (State.raise { s with pending := rest } .busyAccess (BitVec.ofNat 32 off)) := by
  have hguard {p : Place} (hp : p.writeGuarded = true) : (s.busy && p.writeGuarded) = true := by rw [hb, hp]; rfl
  obtain hdata | ⟨rfl, rfl | rfl⟩ := hg
  · obtain ⟨p, hp, hr⟩ := locate_of_dataAccess hdata
    exact step_write_guarded h hp (hguard (writeGuarded_of_readGuarded hr))
  · rw [step_write_open (p := .cmd) h rfl (Bool.and_false _), State.poke, State.writeCmd]
    exact congrArg _ (if_pos hb)
  · exact step_write_guarded (p := .errInfo) h rfl (hguard rfl)

/-- A read of a control register returns it, BUSY or not. -/
theorem step_controlRead {s : State} {off n : Nat} {rest : List Action} (hc : ControlAccess off n)
    (h : s.pending = .read off n :: rest) :
    step s = .next { s with
      pending := rest
      replies :=
        (if off = 0x000 then s.cmd else if off = 0x004 then s.statusWord else s.errInfo).setWidth 64 :: s.replies } := by
  obtain ⟨rfl, rfl | rfl | rfl⟩ := hc
  · exact step_read_open (p := .cmd) h rfl (Bool.and_false _)
  · exact step_read_open (p := .status) h rfl (Bool.and_false _)
  · exact step_read_open (p := .errInfo) h rfl (Bool.and_false _)

/-- Write-1-to-clear of `STATUS` (10_state.md R26), field by field. -/
theorem State.writeStatus_eq (s : State) (w : Word32) :
    s.writeStatus w = { s with
      done := s.done && !w.getLsbD 1
      err := s.err && !w.getLsbD 2
      errCode := if w.getLsbD 2 = true then 0 else s.errCode
      errInfo := if w.getLsbD 2 = true then 0 else s.errInfo } := by
  unfold State.writeStatus
  cases w.getLsbD 1 <;> cases w.getLsbD 2 <;> simp [State.clearDone, State.clearError]

/-- Settles O35: each form of access by the place it reaches, guarded or open. -/
theorem busyAccessRefused : Obligations.BusyAccessRefused := by
  intro s off n rest hb
  refine ⟨fun hd h => ?read, fun hg v h => ?write, fun hc h => step_controlRead hc h, fun v h => ?status⟩
  case read =>
    obtain ⟨p, hp, hr⟩ := locate_of_dataAccess hd
    refine ⟨_, step_read_guarded h hp (by rw [hb, hr]; rfl), ?_, ?_⟩
    · rw [State.reply_replies, State.raise_replies]
    · rw [← raise_busyAccess_eq_recordFirst]
      exact State.reply_restore (State.raise_replies _ _ _) 0
  case write =>
    rw [step_guardedWrite_busy hb hg h, raise_busyAccess_eq_recordFirst]
  case status =>
    rw [step_write_open (p := .status) h rfl (Bool.and_false _), State.poke, State.writeStatus_eq]
    simp only [BitVec.getLsbD_setWidth]
    rfl

end Sys2Proof.Machine
end

section
/-! SUPPORT and PROOFS. The decoding of every word by the table (30_encoding.md R81 to R86): which row a word belongs to,
what the row's mask fixes of it, and the word of the command assembled from its fields. -/

namespace Sys2Proof

open Sys2Proof.Claims

section Word

variable {w : Word32} {o : Opcode}

/-! ## The row of a word -/

/-- The table of the statements has one row per opcode of the model. -/
theorem opcodeRows_eq : opcodeRows = Opcode.all.map fun o => (o.byte.toNat, o.format.mask.toNat) := rfl

theorem Opcode.byte_injective {o o' : Opcode} (h : o.byte = o'.byte) : o = o' :=
  Option.some.inj (by rw [← ofByte_byte o, ← ofByte_byte o', h])

/-- Bits 31:24 are all there is of a word above bit 23. -/
theorem opField_eq_byte_iff : opField w = o.byte ↔ w.toNat / 2 ^ 24 = o.byte.toNat := by
  have hop : w.toNat / 2 ^ 24 < 2 ^ 8 := by omega
  rw [← BitVec.toNat_inj, opField_toNat, Nat.mod_eq_of_lt hop]

/-- An opcode byte that the table does not list has no row in the model. -/
theorem ofByte_eq_none (h : w.toNat / 2 ^ 24 ∉ opcodeRows.map Prod.fst) : Opcode.ofByte (opField w) = none := by
  refine List.find?_eq_none.mpr fun o ho hbyte => h ?_
  rw [opField_eq_byte_iff.mp (eq_of_beq hbyte).symm, opcodeRows_eq, List.map_map]
  exact List.mem_map_of_mem (f := fun o : Opcode => o.byte.toNat) ho

/-- The table's row test is the model's. -/
theorem Opcode.owns_iff :
    o.owns w = true ↔ w &&& BitVec.ofNat 32 o.format.mask.toNat = BitVec.ofNat 32 (o.byte.toNat * 2 ^ 24) := by
  have hmatch : o.fixedBits = BitVec.ofNat 32 (o.byte.toNat * 2 ^ 24) := by cases o <;> rfl
  rw [Opcode.owns, beq_iff_eq, hmatch, BitVec.ofNat_toNat, BitVec.setWidth_eq]

/-! ## The decoding of a word, by its row (R86) -/

theorem classify_illegalOpcode (h : Opcode.ofByte (opField w) = none) : classify w = .illegalOpcode := by
  rw [classify, decode, h]

theorem classify_of_opField (h : opField w = o.byte) :
    classify w =
      if o.owns w = true ∧ (o.assemble w).wf = true then .command (o.assemble w) else .illegalOperand := by
  have hrow : decode w = if o.owns w = true then .command (o.assemble w) else .illegalOperand := by
    rw [decode, h, ofByte_byte]
  rw [classify, hrow]
  by_cases howns : o.owns w = true
  · simp only [howns, if_true, true_and]
  · rw [if_neg howns, if_neg fun h => howns h.1]

/-! ## Coinciding destinations (R85) -/

theorem regField_eq_iff (lo lo' : Nat) : regField lo w = regField lo' w ↔ nibble w lo = nibble w lo' := by
  rw [Fin.ext_iff, regField_val, regField_val]
  rfl

/-- A word of a row other than LSTEP and LADDER has no destinations that could coincide. -/
theorem not_coinciding (h : opField w = o.byte) (hs : o ≠ .lstep) (hl : o ≠ .ladder) : ¬ Coinciding w := by
  have row {o' : Opcode} (h' : w.toNat / 2 ^ 24 = o'.byte.toNat) : o = o' :=
    Opcode.byte_injective (h.symm.trans (opField_eq_byte_iff.mpr h'))
  rintro (⟨hop, -⟩ | ⟨hop, -⟩)
  · exact hs (row hop)
  · exact hl (row hop)

/-- The constraints of R85 on a command are those on its word. -/
theorem wf_assemble_iff (h : opField w = o.byte) : (o.assemble w).wf = true ↔ ¬ Coinciding w := by
  cases o with
  | lstep =>
    have hop : w.toNat / 2 ^ 24 = 0x30 := opField_eq_byte_iff.mp h
    rw [Coinciding, hop]
    simp [Opcode.assemble, Instr.wf, regField_eq_iff, and_assoc]
  | ladder =>
    have hop : w.toNat / 2 ^ 24 = 0x31 := opField_eq_byte_iff.mp h
    rw [Coinciding, hop]
    simp [Opcode.assemble, Instr.wf, regField_eq_iff]
  | _ => exact iff_of_true rfl (not_coinciding h nofun nofun)

/-! ## The word of the assembled command -/

/-- The number of low bits of nibble `j` of a word (`a` to `e`, then `z`) that a format leaves to its operand (R81, R83). -/
def Format.width : Format → Fin 6 → Nat
  | .ff => ![4, 4, 0, 0, 0, 0]
  | .fff => ![4, 4, 4, 0, 0, 0]
  | .fb => ![4, 2, 0, 0, 0, 0]
  | .bf => ![2, 4, 0, 0, 0, 0]
  | .ffi => ![4, 4, 1, 0, 0, 0]
  | .f5 => ![4, 4, 4, 4, 4, 0]
  | .ffbf => ![4, 4, 2, 4, 0, 0]
  | .bb => ![2, 2, 0, 0, 0, 0]
  | .bbb => ![2, 2, 2, 0, 0, 0]

/-- Bits 3:0 belong to no operand (R80). -/
theorem Format.width_z (f : Format) : f.width 5 = 0 := by cases f <;> rfl

/-- The mask fixes the bits of each nibble above its operand. -/
theorem Format.mask_above_width (f : Format) (j : Fin 6) :
    f.width j ≤ 4 ∧
      f.mask.extractLsb' (20 - 4 * j + f.width j) (4 - f.width j) = BitVec.allOnes (4 - f.width j) := by
  revert j
  cases f <;> decide

/-- Bits that the mask fixes at 0 are 0 in every word of the row. -/
theorem extractLsb'_eq_zero_of_owns (h : o.owns w = true) {lo n : Nat}
    (hmask : o.format.mask.extractLsb' lo n = BitVec.allOnes n) (hlo : lo + n ≤ 24) : w.extractLsb' lo n = 0 := by
  have hfixed : (w &&& o.format.mask) = o.byte ++ 0#24 := eq_of_beq h
  calc w.extractLsb' lo n = (w &&& o.format.mask).extractLsb' lo n := by
        rw [BitVec.extractLsb'_and, hmask, BitVec.and_allOnes]
    _ = 0 := by
        rw [hfixed, BitVec.extractLsb'_append_eq_of_add_le hlo]
        exact BitVec.extractLsb'_zero

theorem nibble_lt (w : Word32) (lo : Nat) : nibble w lo < 16 := Nat.mod_lt _ (by decide)

theorem div_eq_nibble (w : Word32) (lo : Nat) : w.toNat / 2 ^ lo = 16 * (w.toNat / 2 ^ (lo + 4)) + nibble w lo := by
  rw [Nat.pow_add, ← Nat.div_div_eq_div_mul]
  exact (Nat.div_add_mod _ 16).symm

/-- A word is its fields at their weights (R80). -/
theorem toNat_eq_fields (w : Word32) :
    w.toNat = w.toNat / 2 ^ 24 * 2 ^ 24 + nibble w 20 * 2 ^ 20 + nibble w 16 * 2 ^ 16 + nibble w 12 * 2 ^ 12
      + nibble w 8 * 2 ^ 8 + nibble w 4 * 2 ^ 4 + nibble w 0 := by
  calc w.toNat = w.toNat / 2 ^ 0 := (Nat.div_one _).symm
    _ = _ := by
      rw [div_eq_nibble w 0, div_eq_nibble w 4, div_eq_nibble w 8, div_eq_nibble w 12, div_eq_nibble w 16,
        div_eq_nibble w 20]
      omega

/-- The operand in each nibble of a word of the row is the whole nibble. -/
theorem operand_eq_nibble (h : o.owns w = true) (j : Fin 6) (lo : Nat) (hlo : 20 - 4 * j.val = lo) :
    w.toNat / 2 ^ lo % 2 ^ o.format.width j = nibble w lo := by
  obtain ⟨hwidth, hmask⟩ := o.format.mask_above_width j
  have hzero := congrArg BitVec.toNat (extractLsb'_eq_zero_of_owns h hmask (by omega))
  rw [extractLsb'_val, Nat.pow_add, ← Nat.div_div_eq_div_mul, hlo] at hzero
  have h16 : 16 = 2 ^ o.format.width j * 2 ^ (4 - o.format.width j) := by
    rw [← Nat.pow_add, Nat.add_sub_cancel' hwidth]
  rw [nibble, h16, Nat.mod_mul, hzero]
  rfl

/-- The word of an assembled command, from the operand fields of its format. -/
theorem encode_assemble_eq_wordOf (w : Word32) (o : Opcode) :
    encode (o.assemble w) =
      wordOf o (w.toNat / 2 ^ 20 % 2 ^ o.format.width 0) (w.toNat / 2 ^ 16 % 2 ^ o.format.width 1)
        (w.toNat / 2 ^ 12 % 2 ^ o.format.width 2) (w.toNat / 2 ^ 8 % 2 ^ o.format.width 3)
        (w.toNat / 2 ^ 4 % 2 ^ o.format.width 4) := by
  cases o <;>
    simp [Opcode.assemble, encode, Opcode.format, Format.width, regField_val, bufField_val, flagField_toNat, Nat.mod_one]

/-- A word of a row is the word of the command assembled from it. -/
theorem encode_assemble (hop : opField w = o.byte) (h : o.owns w = true) : encode (o.assemble w) = w := by
  have hsum := toNat_eq_fields w
  have hz : nibble w 0 = 0 := by
    rw [← operand_eq_nibble h 5 0 rfl, o.format.width_z, Nat.pow_zero, Nat.mod_one]
  apply BitVec.eq_of_toNat_eq
  rw [encode_assemble_eq_wordOf, operand_eq_nibble h 0 20 rfl, operand_eq_nibble h 1 16 rfl,
    operand_eq_nibble h 2 12 rfl, operand_eq_nibble h 3 8 rfl, operand_eq_nibble h 4 4 rfl,
    wordOf_toNat o (nibble_lt w 20) (nibble_lt w 16) (nibble_lt w 12) (nibble_lt w 8) (nibble_lt w 4),
    ← opField_eq_byte_iff.mp hop]
  rw [hz, Nat.add_zero] at hsum
  exact hsum.symm

end Word

/-- Settles O3: a listed word is decoded by its row, whose mask and constraints are the table's, and the command assembled
from an accepted word encodes as that word. -/
theorem classifyFollowsTable : Obligations.ClassifyFollowsTable := by
  intro w
  refine ⟨fun hout => classify_illegalOpcode (ofByte_eq_none hout), fun row hrow hop => ?_⟩
  obtain ⟨o, -, rfl⟩ := List.mem_map.mp (opcodeRows_eq ▸ hrow)
  have hfield : opField w = o.byte := opField_eq_byte_iff.mpr hop
  have haccepted := (Opcode.owns_iff (w := w) (o := o)).and (wf_assemble_iff hfield)
  rw [classify_of_opField hfield]
  constructor
  · intro hbad
    refine if_neg fun h => ?_
    obtain ⟨hmask, hdistinct⟩ := haccepted.mp h
    exact hbad.elim (· hmask) hdistinct
  · intro h
    obtain ⟨howns, hwf⟩ := haccepted.mpr h
    exact ⟨_, if_pos ⟨howns, hwf⟩, encode_assemble hfield howns⟩

end Sys2Proof
end

section
/-! SUPPORT and PROOFS. The word of every command is decoded as that command (30_encoding.md R80 to R86): what the mask of
a row leaves free, and the fields of a word built from operands. -/

namespace Sys2Proof

open Sys2Proof.Claims

/-! ## The mask of a row, bit by bit (R81) -/

/-- Every format fixes the opcode. -/
theorem Format.mask_opcode (f : Format) (i : Fin 8) : f.mask.getLsbD (24 + i.val) = true := by
  revert i
  cases f <;> decide

/-- Below the opcode a format fixes no bit of an operand. -/
theorem Format.width_le_of_mask (f : Format) (i : Fin 24) (h : f.mask.getLsbD i.val = true) :
    f.width (Fin.ofNat 6 (5 - i.val / 4)) ≤ i.val % 4 := by
  revert i
  cases f <;> decide

theorem getLsbD_eq_testBit_nibble (w : Word32) (i : Nat) :
    w.getLsbD i = (nibble w (4 * (i / 4))).testBit (i % 4) := by
  have hi : i % 4 < 4 := Nat.mod_lt _ (by decide)
  rw [nibble, show 16 = 2 ^ 4 from rfl, Nat.testBit_mod_two_pow, Nat.testBit_div_two_pow, Nat.mod_add_div,
    decide_eq_true hi, Bool.true_and, BitVec.testBit_toNat]

/-- A word with a row's opcode belongs to the row when each nibble is an operand of the row's format. -/
theorem Opcode.owns_of_operands {w : Word32} {o : Opcode} (hop : opField w = o.byte)
    (h : ∀ j : Fin 6, nibble w (20 - 4 * j.val) < 2 ^ o.format.width j) : o.owns w = true := by
  rw [Opcode.owns, beq_iff_eq]
  refine BitVec.eq_of_getLsbD_eq fun i hi => ?_
  rw [BitVec.getLsbD_and, Opcode.fixedBits, BitVec.getLsbD_append, ← hop]
  by_cases hi24 : i < 24
  case neg =>
    have hmask := o.format.mask_opcode ⟨i - 24, by omega⟩
    have hbit : 24 + (i - 24) = i := by omega
    simp only [hbit] at hmask
    rw [hmask, Bool.and_true, if_neg hi24, opField, BitVec.getLsbD_extractLsb', hbit, decide_eq_true (by omega),
      Bool.true_and]
  case pos =>
    rw [if_pos hi24, BitVec.getLsbD_zero, Bool.and_eq_false_iff]
    refine or_iff_not_imp_right.mpr fun hmask => ?_
    have hwidth := o.format.width_le_of_mask ⟨i, hi24⟩ (Bool.eq_true_of_not_eq_false hmask)
    have hnibble := h (Fin.ofNat 6 (5 - i / 4))
    rw [Fin.val_ofNat, show 20 - 4 * ((5 - i / 4) % 6) = 4 * (i / 4) by omega] at hnibble
    rw [getLsbD_eq_testBit_nibble]
    exact Nat.testBit_lt_two_pow (hnibble.trans_le (Nat.pow_le_pow_right (by decide) hwidth))

/-! ## The word of a command, by its operands -/

/-- The operand in each nibble of a command's word (`a` to `e`, then `z`), 0 where the command has none (R80, R82). -/
def Instr.operand : Instr → Fin 6 → Nat
  | .fadd a b | .fdiff a b | .fsqr a b | .fcopy a b | .invert a b => ![a.val, b.val, 0, 0, 0, 0]
  | .fsma a b c | .fmul a b c => ![a.val, b.val, c.val, 0, 0, 0]
  | .decode a b => ![a.val, b.val, 0, 0, 0, 0]
  | .encode a b => ![a.val, b.val, 0, 0, 0, 0]
  | .cswap a b flag => ![a.val, b.val, flag.toNat, 0, 0, 0]
  | .lstep a b c d e => ![a.val, b.val, c.val, d.val, e.val, 0]
  | .ladder a b c d => ![a.val, b.val, c.val, d.val, 0, 0]
  | .clamp a b | .dpub a b => ![a.val, b.val, 0, 0, 0, 0]
  | .smult a b c | .dshared a b c => ![a.val, b.val, c.val, 0, 0, 0]

theorem encode_eq_wordOf (i : Instr) :
    encode i = wordOf i.opcode (i.operand 0) (i.operand 1) (i.operand 2) (i.operand 3) (i.operand 4) := by
  cases i <;> rfl

/-- The fields of a word built of an opcode and five nibbles are these nibbles (R80). -/
theorem nibble_wordOf (o : Opcode) {a b c d e : Nat} (ha : a < 16) (hb : b < 16) (hc : c < 16) (hd : d < 16) (he : e < 16) :
    nibble (wordOf o a b c d e) 20 = a ∧ nibble (wordOf o a b c d e) 16 = b ∧ nibble (wordOf o a b c d e) 12 = c ∧
    nibble (wordOf o a b c d e) 8 = d ∧ nibble (wordOf o a b c d e) 4 = e ∧ nibble (wordOf o a b c d e) 0 = 0 := by
  simp only [nibble, wordOf_toNat o ha hb hc hd he]
  omega

/-- Every operand fits the bits its format leaves to it. -/
theorem Instr.operand_lt (i : Instr) (j : Fin 6) : i.operand j < 2 ^ i.opcode.format.width j := by
  have flag_le (flag : BitVec 1) : flag.toNat ≤ 1 := Nat.le_of_lt_succ flag.isLt
  cases i <;> fin_cases j <;> simp [Instr.operand, Instr.opcode, Opcode.format, Format.width, flag_le]

theorem Instr.operand_lt_sixteen (i : Instr) (j : Fin 6) : i.operand j < 16 :=
  (i.operand_lt j).trans_le (Nat.pow_le_pow_right (n := 2) (by decide) (i.opcode.format.mask_above_width j).1)

theorem opField_encode (i : Instr) : opField (encode i) = i.opcode.byte := by
  rw [encode_eq_wordOf]
  exact opField_wordOf _ (i.operand_lt_sixteen 0) (i.operand_lt_sixteen 1) (i.operand_lt_sixteen 2)
    (i.operand_lt_sixteen 3) (i.operand_lt_sixteen 4)

/-- Each nibble of a command's word is its operand there (R80). -/
theorem nibble_encode (i : Instr) (j : Fin 6) : nibble (encode i) (20 - 4 * j.val) = i.operand j := by
  obtain ⟨ha, hb, hc, hd, he, hz⟩ := nibble_wordOf i.opcode (i.operand_lt_sixteen 0) (i.operand_lt_sixteen 1)
    (i.operand_lt_sixteen 2) (i.operand_lt_sixteen 3) (i.operand_lt_sixteen 4)
  rw [encode_eq_wordOf]
  match j with
  | 0 => exact ha
  | 1 => exact hb
  | 2 => exact hc
  | 3 => exact hd
  | 4 => exact he
  | 5 => exact hz.trans (by cases i <;> rfl)

theorem owns_encode (i : Instr) : i.opcode.owns (encode i) = true :=
  Opcode.owns_of_operands (opField_encode i) fun j => by rw [nibble_encode]; exact i.operand_lt j

theorem regField_encode (i : Instr) (j : Fin 6) {r : FReg} (h : i.operand j = r.val) :
    regField (20 - 4 * j.val) (encode i) = r :=
  Fin.ext (by rw [regField_val, ← h, ← nibble_encode i j]; rfl)

theorem bufField_encode (i : Instr) (j : Fin 6) {k : BReg} (h : i.operand j = k.val) :
    bufField (20 - 4 * j.val) (encode i) = k := by
  have hn := (nibble_encode i j).trans h
  rw [nibble] at hn
  exact Fin.ext (by rw [bufField_val]; omega)

theorem flagField_encode (a b : FReg) (flag : BitVec 1) : flagField (encode (.cswap a b flag)) = flag := by
  have hn : nibble (encode (.cswap a b flag)) 12 = flag.toNat := nibble_encode (.cswap a b flag) 2
  rw [nibble] at hn
  exact BitVec.eq_of_toNat_eq (by rw [flagField_toNat]; omega)

/-- The operands are read back from the fields they were put in. -/
theorem assemble_encode (i : Instr) : i.opcode.assemble (encode i) = i := by
  have reg := fun j {r} => regField_encode i j (r := r)
  have buf := fun j {k} => bufField_encode i j (k := k)
  cases i with
  | fadd a b => exact congrArg₂ Instr.fadd (reg 0 rfl) (reg 1 rfl)
  | fdiff a b => exact congrArg₂ Instr.fdiff (reg 0 rfl) (reg 1 rfl)
  | fsqr a b => exact congrArg₂ Instr.fsqr (reg 0 rfl) (reg 1 rfl)
  | fcopy a b => exact congrArg₂ Instr.fcopy (reg 0 rfl) (reg 1 rfl)
  | invert a b => exact congrArg₂ Instr.invert (reg 0 rfl) (reg 1 rfl)
  | decode a b => exact congrArg₂ Instr.decode (reg 0 rfl) (buf 1 rfl)
  | encode a b => exact congrArg₂ Instr.encode (buf 0 rfl) (reg 1 rfl)
  | clamp a b => exact congrArg₂ Instr.clamp (buf 0 rfl) (buf 1 rfl)
  | dpub a b => exact congrArg₂ Instr.dpub (buf 0 rfl) (buf 1 rfl)
  | fsma a b c => exact Instr.fsma.injEq .. ▸ ⟨reg 0 rfl, reg 1 rfl, reg 2 rfl⟩
  | fmul a b c => exact Instr.fmul.injEq .. ▸ ⟨reg 0 rfl, reg 1 rfl, reg 2 rfl⟩
  | smult a b c => exact Instr.smult.injEq .. ▸ ⟨buf 0 rfl, buf 1 rfl, buf 2 rfl⟩
  | dshared a b c => exact Instr.dshared.injEq .. ▸ ⟨buf 0 rfl, buf 1 rfl, buf 2 rfl⟩
  | cswap a b flag => exact Instr.cswap.injEq .. ▸ ⟨reg 0 rfl, reg 1 rfl, flagField_encode a b flag⟩
  | lstep a b c d e => exact Instr.lstep.injEq .. ▸ ⟨reg 0 rfl, reg 1 rfl, reg 2 rfl, reg 3 rfl, reg 4 rfl⟩
  | ladder a b c d => exact Instr.ladder.injEq .. ▸ ⟨reg 0 rfl, reg 1 rfl, buf 2 rfl, reg 3 rfl⟩

/-- R86 accepts the word of a command that meets the constraints of R85, as that command. -/
theorem classify_encode {i : Instr} (hwf : i.wf = true) : classify (encode i) = .command i := by
  rw [classify_of_opField (opField_encode i), assemble_encode, if_pos ⟨owns_encode i, hwf⟩]

section EncodingLine

variable {i : Instr} {n a b c : Nat} (o : Opcode)

/-- The word of a command with operands in `a`, `b`, `c` only, as its encoding line sums it (R80). -/
theorem classify_fields_abc (hwf : i.wf = true) (ho : i.opcode = o) (hop : o.byte.toNat * 2 ^ 24 = n)
    (hoperand : i.operand = ![a, b, c, 0, 0, 0]) :
    classify (BitVec.ofNat 32 (n + a * 2 ^ 20 + b * 2 ^ 16 + c * 2 ^ 12)) = .command i := by
  have hfields : encode i = wordOf o a b c 0 0 := by rw [encode_eq_wordOf, hoperand, ho]; rfl
  have hword : encode i = BitVec.ofNat 32 (n + a * 2 ^ 20 + b * 2 ^ 16 + c * 2 ^ 12) := by
    rw [hfields, wordOf, hop]
    simp only [Nat.zero_mul, Nat.add_zero]
  rw [← hword, classify_encode hwf]

theorem classify_fields_ab (hwf : i.wf = true) (ho : i.opcode = o) (hop : o.byte.toNat * 2 ^ 24 = n)
    (hoperand : i.operand = ![a, b, 0, 0, 0, 0]) :
    classify (BitVec.ofNat 32 (n + a * 2 ^ 20 + b * 2 ^ 16)) = .command i := by
  rw [← classify_fields_abc o hwf ho hop hoperand, Nat.zero_mul, Nat.add_zero]

end EncodingLine

end Sys2Proof
end

section
/-! SUPPORT and PROOFS. The field-arithmetic commands (40_field_arithmetic.md): what a command that writes one field register
leaves, and the limbs of each operation as the numbers of R101, R103, R106, R108 and R109. -/

namespace Sys2Proof.Machine

open Sys2Proof.Claims

/-! ## Commands that write one field register -/

/-- What completing a command that writes `v` to `F[a]` and nothing else leaves (60_exceptions.md R209). -/
theorem exec_of_writes_setF {i : Instr} {a : FReg} {v : FE} {s : State} {l : InFlight} (h : s.inFlight = some l)
    (hw : writes i l.src s.data = s.data.setF a v) :
    ∃ t, exec i s = .next t ∧ CompletedFrom s t ∧ OnlyRegs [a] s t ∧ t.data.getF a = v := by
  refine ⟨_, exec_busy h i, ?_, ?_, ?_⟩ <;> rw [hw]
  · exact ⟨rfl, rfl, rfl, rfl, rfl, rfl, rfl, rfl, rfl⟩
  · exact ⟨fun r hr => Data.getF_setF_ne _ (List.ne_of_not_mem_cons hr) v, fun k => rfl⟩
  · exact Data.getF_setF_self _ a v

/-! ## Limbs and accumulators as numbers -/

theorem limbsOf_eq (f : FE) : limbsOf f = ![f.l0.toNat, f.l1.toNat, f.l2.toNat, f.l3.toNat, f.l4.toNat] := by
  funext j
  fin_cases j <;> rfl

theorem limbsOf_injective : Function.Injective limbsOf := fun _ _ h =>
  FE_ext_limb fun j => BitVec.eq_of_toNat_eq (congrFun h j)

theorem limbsOf_lt (f : FE) (j : Fin 5) : limbsOf f j < 2 ^ 64 := (f.limb j).isLt

/-- The accumulators of R108 as numbers. -/
def accsOf (t : Acc5) : Fin 5 → Nat := ![t.t0.toNat, t.t1.toNat, t.t2.toNat, t.t3.toNat, t.t4.toNat]

/-! ## Add and Copy (R101, R114) -/

@[simp] theorem feAdd_limb (f g : FE) (j : Fin 5) : (feAdd f g).limb j = f.limb j + g.limb j := by
  fin_cases j <;> rfl

/-- Settles O13: each limb is the wrapping sum of the two limbs. -/
theorem faddAddsLimbwise : Obligations.FaddAddsLimbwise := by
  intro a b
  refine ⟨classify_fields_ab .fadd rfl rfl (by decide) rfl, fun s l h => ?_⟩
  obtain ⟨t, hexec, hdone, hframe, hres⟩ := exec_of_writes_setF (i := .fadd a b) h rfl
  refine ⟨t, hexec, hdone, hframe, fun j => ?_⟩
  rw [hres, feAdd_limb, BitVec.toNat_add]

/-- Settles O18: the register written is the one latched. -/
theorem fcopyCopies : Obligations.FcopyCopies := by
  intro a b
  refine ⟨classify_fields_ab .fcopy rfl rfl (by decide) rfl, fun s l h => ?_⟩
  obtain ⟨t, hexec, hdone, hframe, hres⟩ := exec_of_writes_setF (i := .fcopy a b) h rfl
  exact ⟨t, hexec, hdone, hframe, fun j => congrArg (FE.limb · j) hres⟩

/-! ## Difference (R103) -/

theorem limb_sub_toNat (x y : Limb) : (x - y).toNat = (x.toNat + 2 ^ 64 - y.toNat) % 2 ^ 64 := by
  rw [BitVec.toNat_sub]
  omega

theorem limbsOf_feLimbDiff (out inp : FE) :
    limbsOf (feLimbDiff out inp) = fun j => (limbsOf inp j + 2 ^ 64 - limbsOf out j) % 2 ^ 64 := by
  funext j
  fin_cases j <;> exact limb_sub_toNat _ _

section Link

variable {x y : Fin 5} {k : Limb} {d : FE}

theorem borrowLink_of_nonneg (h : (d.limb x).toNat < 2 ^ 63) : borrowLink x y k d = d := by
  simp only [borrowLink, asr63_of_nonneg h, BitVec.ofNat_eq_ofNat, BitVec.and_zero, BitVec.add_zero, BitVec.sub_zero,
    setLimb_limb]

theorem borrowLink_of_neg (hxy : y ≠ x) (h : 2 ^ 63 ≤ (d.limb x).toNat) :
    borrowLink x y k d = (d.setLimb x (d.limb x + 0x8000000000000#64)).setLimb y (d.limb y - k) := by
  simp only [borrowLink, asr63_of_neg h, BitVec.and_allOnes, limb_setLimb, if_neg hxy]

/-- A link of the borrow chain is R103's. -/
theorem limbsOf_borrowLink {n : Nat} (hxy : y ≠ x) (hk : k.toNat = n) :
    limbsOf (borrowLink x y k d) = diffLink (limbsOf d) (x, y, n) := by
  subst hk
  by_cases h : 2 ^ 63 ≤ (d.limb x).toNat
  case neg =>
    rw [borrowLink_of_nonneg (Nat.lt_of_not_le h)]
    exact (if_neg h).symm
  case pos =>
    rw [borrowLink_of_neg hxy h]
    refine Eq.trans (funext fun j => ?_) (if_pos h).symm
    by_cases hx : j = x
    · rw [limbsOf, limb_setLimb, if_neg (hx ▸ hxy.symm), limb_setLimb, if_pos hx, if_pos hx, hx, BitVec.toNat_add]
      rfl
    by_cases hy : j = y
    · rw [limbsOf, limb_setLimb, if_pos hy, if_neg hx, if_pos hy, hy, limb_sub_toNat, limbsOf]
    · rw [limbsOf, limb_setLimb, if_neg hy, limb_setLimb, if_neg hx, if_neg hx, if_neg hy, limbsOf]

end Link

/-- The four ordinary links, limb 0 to limb 4 (R103). -/
def ordinaryLinks : List (Fin 5 × Fin 5 × Nat) := [(0, 1, 1), (1, 2, 1), (2, 3, 1), (3, 4, 1)]

theorem limbsOf_borrowPass (d : FE) : limbsOf (borrowPass d) = ordinaryLinks.foldl diffLink (limbsOf d) := by
  have hk : (1 : Limb).toNat = 1 := rfl
  rw [borrowPass, limbsOf_borrowLink (by decide) hk, limbsOf_borrowLink (by decide) hk,
    limbsOf_borrowLink (by decide) hk, limbsOf_borrowLink (by decide) hk]
  simp only [ordinaryLinks, List.foldl_cons, List.foldl_nil]

/-- `Difference` is R103's, limb for limb. -/
theorem limbsOf_feDifference (out inp : FE) :
    limbsOf (feDifference out inp) = diffLimbs (limbsOf out) (limbsOf inp) := by
  have hk : (19 : Limb).toNat = 19 := rfl
  have links : [(0, 1, 1), (1, 2, 1), (2, 3, 1), (3, 4, 1), (4, 0, 19), (0, 1, 1), (1, 2, 1), (2, 3, 1), (3, 4, 1)]
      = ordinaryLinks ++ (4, 0, 19) :: ordinaryLinks := rfl
  rw [feDifference, limbsOf_borrowPass, limbsOf_borrowLink (by decide) hk, limbsOf_borrowPass, limbsOf_feLimbDiff,
    diffLimbs, links, List.foldl_append, List.foldl_cons]

theorem feDifference_self (f : FE) : feDifference f f = FE.zero := by
  have hzero : feLimbDiff f f = FE.zero := by simp only [feLimbDiff, BitVec.sub_self]; rfl
  rw [feDifference, hzero]
  rfl

/-- Settles O14: the limbs by the nine links of R103, the corner from the zero difference. -/
theorem fdiffSubtractsReversed : Obligations.FdiffSubtractsReversed := by
  intro a b
  refine ⟨classify_fields_ab .fdiff rfl rfl (by decide) rfl, fun s l h => ?_⟩
  obtain ⟨t, hexec, hdone, hframe, hres⟩ := exec_of_writes_setF (i := .fdiff a b) h rfl
  refine ⟨t, hexec, hdone, hframe, hres, fun j => ?_, ?_⟩
  · rw [hres, ← limbsOf_feDifference, limbsOf]
  · rintro rfl
    rw [hres, feDifference_self, FE.zero]

/-! ## ScalarMultiplyAdd (R106) -/

theorem low51_lo64_toNat (t : Acc) : (lo64 t &&& mask51).toNat = t.toNat % 2 ^ 51 := by
  rw [and_mask51_toNat, lo64_toNat, Nat.mod_mod_of_dvd _ (by decide)]

/-- The carry out of an accumulator, cut to 64 bits (R106, R109). -/
theorem carry_toNat (t : Acc) : (lo64 (t >>> 51)).toNat = t.toNat / 2 ^ 51 % 2 ^ 64 := by
  rw [lo64_toNat, BitVec.toNat_ushiftRight, Nat.shiftRight_eq_div_pow]

/-- The fold of a carry into limb 0 (R106, R109). -/
theorem nineteen_mul_toNat (c : Limb) : (19#64 * c).toNat = 19 * c.toNat % 2 ^ 64 := BitVec.toNat_mul 19#64 c

/-- `ScalarMultiplyAdd` is R106's, limb for limb. -/
theorem limbsOf_feScalarMultiplyAdd (f : FE) (k : Limb) (g : FE) :
    limbsOf (feScalarMultiplyAdd f k g) = smaLimbs (limbsOf f) k.toNat (limbsOf g) := by
  have product (x y : Limb) : (wide x * wide y).toNat = x.toNat * y.toNat := limbMul_toNat x y
  rw [limbsOf_eq]
  simp only [feScalarMultiplyAdd, feAdd, smaLimbs, limbsOf, FE.limb, BitVec.natCast_eq_ofNat, BitVec.toNat_add,
    product, wide_toNat, carry_toNat, low51_lo64_toNat, nineteen_mul_toNat, Nat.add_mod_mod, Nat.mod_add_mod]

theorem smaLimbs_zero (x y : Fin 5 → Nat) (j : Fin 5) : smaLimbs x 0 y j = y j % 2 ^ 64 := by
  fin_cases j <;> simp [smaLimbs]

theorem feScalarMultiplyAdd_zero (f g : FE) : feScalarMultiplyAdd f 0 g = g := by
  refine limbsOf_injective (funext fun j => ?_)
  rw [limbsOf_feScalarMultiplyAdd]
  exact (smaLimbs_zero _ _ j).trans (Nat.mod_eq_of_lt (limbsOf_lt g j))

/-- Settles O15: the limbs by R106, the corner from the zero products and carries. -/
theorem fsmaMultipliesByK : Obligations.FsmaMultipliesByK := by
  intro a b c
  refine ⟨classify_fields_abc .fsma rfl rfl (by decide) rfl, fun s l h => ?_⟩
  obtain ⟨t, hexec, hdone, hframe, hres⟩ := exec_of_writes_setF (i := .fsma a b c) h rfl
  refine ⟨t, hexec, hdone, hframe, hres, fun j => ?_, fun hk => ?_⟩
  · rw [hres, ← limbsOf_feScalarMultiplyAdd, limbsOf]
  · rw [hres, hk, feScalarMultiplyAdd_zero]

/-! ## Multiply and Square (R108, R109, R112) -/

/-- The accumulation stage is R108's. -/
theorem accsOf_mulAccumulate (f g : FE) : accsOf (mulAccumulate f g) = mulSums (limbsOf f) (limbsOf g) := by
  simp [accsOf, mulAccumulate, mulSums, limbsOf, FE.limb]

/-- The carry stage is R109's, limb for limb. -/
theorem limbsOf_carry5 (t : Acc5) : limbsOf (carry5 t) = carryLimbs (accsOf t) := by
  rw [limbsOf_eq]
  simp only [carry5, carryLimbs, accsOf, Matrix.cons_val, BitVec.ofNat_eq_ofNat, BitVec.toNat_add,
    BitVec.toNat_ushiftRight, Nat.shiftRight_eq_div_pow, wide_toNat, lo64_toNat, and_mask51_toNat,
    nineteen_mul_toNat, Nat.add_mod_mod, Nat.mod_mod_of_dvd _ (by decide : 2 ^ 51 ∣ 2 ^ 64)]

/-- `Multiply` is R108's accumulation and R109's carries, limb for limb. -/
theorem limbsOf_feMultiply (f g : FE) : limbsOf (feMultiply f g) = carryLimbs (mulSums (limbsOf f) (limbsOf g)) := by
  rw [feMultiply, limbsOf_carry5, accsOf_mulAccumulate]

/-- Accumulators without a carry pass the carry stage unchanged. -/
theorem carryLimbs_of_lt {t : Fin 5 → Nat} (h : ∀ j, t j < 2 ^ 51) : carryLimbs t = t := by
  have carry (j : Fin 5) : t j / 2 ^ 51 = 0 := Nat.div_eq_of_lt (h j)
  have mod51 (j : Fin 5) : t j % 2 ^ 51 = t j := Nat.mod_eq_of_lt (h j)
  have mod64 (j : Fin 5) : t j % 2 ^ 64 = t j := Nat.mod_eq_of_lt ((h j).trans (by decide))
  have mod128 (j : Fin 5) : t j % 2 ^ 128 = t j := Nat.mod_eq_of_lt ((h j).trans (by decide))
  simp only [carryLimbs, carry, mod51, mod64, mod128, Nat.zero_mod, Nat.mul_zero, Nat.add_zero]
  funext j
  fin_cases j <;> rfl

theorem mulSums_zero (x : Fin 5 → Nat) (j : Fin 5) : mulSums x (limbsOf FE.zero) j = 0 := by
  fin_cases j <;> simp [mulSums, limbsOf]

theorem mulSums_one (x : Fin 5 → Nat) (j : Fin 5) : mulSums x (limbsOf FE.one) j = x j % 2 ^ 128 := by
  fin_cases j <;> simp [mulSums, limbsOf_eq, FE.one]

theorem feMultiply_zero (f : FE) : feMultiply f FE.zero = FE.zero := by
  refine limbsOf_injective ?_
  rw [limbsOf_feMultiply, carryLimbs_of_lt fun j => by rw [mulSums_zero]; decide]
  exact funext fun j => (mulSums_zero _ j).trans (congrArg BitVec.toNat (FE.limb_zero j)).symm

theorem limbsOf_lt_of_below {f : FE} {n : Nat} (h : f.below n) (j : Fin 5) : limbsOf f j < n := by
  obtain ⟨h0, h1, h2, h3, h4⟩ := h
  fin_cases j <;> assumption

theorem feMultiply_one {f : FE} (h : f.below (2 ^ 51)) : feMultiply f FE.one = f := by
  have hlimb := limbsOf_lt_of_below h
  have hsums : mulSums (limbsOf f) (limbsOf FE.one) = limbsOf f := funext fun j =>
    (mulSums_one _ j).trans (Nat.mod_eq_of_lt ((hlimb j).trans (by decide)))
  exact limbsOf_injective (by rw [limbsOf_feMultiply, hsums, carryLimbs_of_lt hlimb])

/-- Settles O16: the limbs by R108 and R109; the products by zero and by one have no carry. -/
theorem fmulMultiplies : Obligations.FmulMultiplies := by
  intro a b c
  refine ⟨classify_fields_abc .fmul rfl rfl (by decide) rfl, fun s l h => ?_⟩
  obtain ⟨t, hexec, hdone, hframe, hres⟩ := exec_of_writes_setF (i := .fmul a b c) h rfl
  refine ⟨t, hexec, hdone, hframe, hres, fun j => ?_, fun hzero => ?_, fun hone hbelow => ?_⟩
  · rw [hres, ← limbsOf_feMultiply, limbsOf]
  · rw [hres, hzero]
    exact feMultiply_zero _
  · rw [hres, hone]
    exact feMultiply_one hbelow

/-- R112: FSQR writes what FMUL writes with both factors its operand. -/
theorem exec_fsqr (a b : FReg) (s : State) : exec (.fsqr a b) s = exec (.fmul a b b) s := by
  have hwrites : writes (.fsqr a b) = writes (.fmul a b b) := rfl
  rw [exec_eq_finish, exec_eq_finish, hwrites]

/-- Settles O17: FSQR is FMUL with the operand twice. -/
theorem fsqrSquares : Obligations.FsqrSquares := by
  intro a b
  refine ⟨classify_fields_ab .fsqr rfl rfl (by decide) rfl, fun s l h => ?_⟩
  obtain ⟨t, hexec, hdone, hframe, hres⟩ := exec_of_writes_setF (i := .fsqr a b) h rfl
  exact ⟨t, hexec, hdone, hframe, hres, (exec_fsqr a b s).symm.trans hexec⟩

end Sys2Proof.Machine
end

section
/-! SUPPORT and PROOFS. The codec commands (41_codec.md): the bytes of a buffer as digits of its little-endian number, the
words and the 51-bit groups cut from that number, and what a command that writes one buffer leaves. -/

namespace Sys2Proof.Machine

open Sys2Proof.Claims

/-! ## A buffer as a number (00_scope.md R5) -/

/-- A byte below a number is its lowest digit to base 256. -/
theorem byte_add_div (x : Byte) (n : Nat) : (x.toNat + 256 * n) / 256 = n := by
  have hx : x.toNat < 256 := x.isLt
  omega

/-- Dropping bytes divides the number of a byte string. -/
theorem foldr_bytes_div (l : List Byte) (o : Nat) :
    l.foldr (fun x n => x.toNat + 256 * n) 0 / 2 ^ (8 * o) = (l.drop o).foldr (fun x n => x.toNat + 256 * n) 0 := by
  induction o generalizing l with
  | zero => rw [Nat.mul_zero, Nat.pow_zero, Nat.div_one, List.drop_zero]
  | succ o ih =>
    cases l with
    | nil => rw [List.drop_nil, List.foldr_nil, Nat.zero_div]
    | cons x xs =>
      rw [two_pow_eight_mul_succ, ← Nat.div_div_eq_div_mul, List.drop_succ_cons, ← ih, List.foldr_cons, byte_add_div]

/-- Byte `o` is the lowest digit to base 256 of the number from offset `o` on. -/
theorem le_div_eq_byte_add (s : Bytes32) {o : Nat} (ho : o < 32) :
    le s / 2 ^ (8 * o) = (byteAt s o).toNat + 256 * (le s / 2 ^ (8 * (o + 1))) := by
  have hlen : o < s.toList.length := by rwa [Vector.length_toList]
  have hbyte : byteAt s o = s.toList[o] := by rw [byteAt, dif_pos ho, Vector.getElem_toList]
  rw [le, foldr_bytes_div, foldr_bytes_div, List.drop_eq_getElem_cons hlen, List.foldr_cons, hbyte]

/-- A word of a buffer is a group of bits of the buffer's number (20_memory.md R52). -/
theorem bytesWord_toNat (s : Bytes32) (o : Nat) {n : Nat} (hn : n ≤ 8) (ho : o + n ≤ 32) :
    (bytesWord s o n).toNat = le s / 2 ^ (8 * o) % 2 ^ (8 * n) := by
  induction n generalizing o with
  | zero => exact (Nat.mod_one _).symm
  | succ n ih =>
    have hbyte : (byteAt s o).toNat < 256 := (byteAt s o).isLt
    calc (bytesWord s o (n + 1)).toNat
        = (byteAt s o).toNat + 256 * (le s / 2 ^ (8 * (o + 1)) % 2 ^ (8 * n)) := by
          rw [bytesWord_succ_toNat s o hn, ih (o + 1) (by omega) (by omega)]
      _ = ((byteAt s o).toNat + 256 * (le s / 2 ^ (8 * (o + 1)))) % (256 * 2 ^ (8 * n)) := by
          rw [Nat.mod_mul, byte_add_div, Nat.add_mul_mod_self_left, Nat.mod_eq_of_lt hbyte]
      _ = le s / 2 ^ (8 * o) % 2 ^ (8 * (n + 1)) := by
          rw [← le_div_eq_byte_add s (by omega), ← two_pow_eight_mul_succ]

/-! ## Decode (R130) -/

theorem limbOfNat_toNat (n j : Nat) : (limbOfNat n j).toNat = n / 2 ^ (51 * j) % 2 ^ 51 := by
  rw [limbOfNat, BitVec.toNat_ofNat]
  omega

theorem decodeBytes_limb (s : Bytes32) (j : Fin 5) : (decodeBytes s).limb j = limbOfNat (le s) j.val := by
  fin_cases j <;> rfl

theorem decodeBytes_limb_toNat (s : Bytes32) (j : Fin 5) :
    ((decodeBytes s).limb j).toNat = le s / 2 ^ (51 * j.val) % 2 ^ 51 := by
  rw [decodeBytes_limb, limbOfNat_toNat]

theorem decodeBytes_below (s : Bytes32) : (decodeBytes s).below (2 ^ 51) := by
  have hlimb (j : Fin 5) : ((decodeBytes s).limb j).toNat < 2 ^ 51 := by
    rw [decodeBytes_limb_toNat]
    exact Nat.mod_lt _ (by decide)
  exact ⟨hlimb 0, hlimb 1, hlimb 2, hlimb 3, hlimb 4⟩

/-- Five digits to base `2^51` are the number modulo `2^255`. -/
theorem decodeBytes_val (s : Bytes32) : (decodeBytes s).val = le s % 2 ^ 255 := by
  simp only [FE.val, decodeBytes, limbOfNat_toNat]
  omega

section Words

variable {n k m : Nat} {w : Nat → Limb} (hw : ∀ k < 4, (w k).toNat = n / 2 ^ (64 * k) % 2 ^ 64)

include hw

theorem testBit_word (hk : k < 4) (i : Nat) : (w k).toNat.testBit i = (decide (i < 64) && n.testBit (64 * k + i)) := by
  rw [hw k hk, Nat.testBit_mod_two_pow, Nat.testBit_div_two_pow, Nat.add_comm]

/-- A group that lies in one word. -/
theorem one_word_group (hk : k < 4) (hm : m + 51 ≤ 64) :
    ((w k >>> m) &&& mask51).toNat = n / 2 ^ (64 * k + m) % 2 ^ 51 := by
  refine Nat.eq_of_testBit_eq fun i => ?_
  rw [and_mask51_toNat, BitVec.toNat_ushiftRight, Nat.testBit_mod_two_pow, Nat.testBit_mod_two_pow,
    Nat.testBit_div_two_pow, Nat.testBit_shiftRight, testBit_word hw hk, ← Nat.add_assoc, Nat.add_comm i]
  by_cases hi : i < 51
  · rw [decide_eq_true (by omega : m + i < 64), Bool.true_and]
  · rw [decide_eq_false hi, Bool.false_and, Bool.false_and]

/-- A group that straddles two words: the high bits of the lower one, and above them the low bits of the upper one. -/
theorem two_word_group {m' : Nat} (hk : k + 1 < 4) (hm : m + m' = 64) :
    (((w k >>> m) ||| (w (k + 1) <<< m')) &&& mask51).toNat = n / 2 ^ (64 * k + m) % 2 ^ 51 := by
  refine Nat.eq_of_testBit_eq fun i => ?_
  rw [and_mask51_toNat, BitVec.toNat_or, BitVec.toNat_ushiftRight, BitVec.toNat_shiftLeft, Nat.testBit_mod_two_pow,
    Nat.testBit_mod_two_pow, Nat.testBit_div_two_pow, Nat.testBit_or, Nat.testBit_shiftRight, Nat.testBit_mod_two_pow,
    Nat.testBit_shiftLeft, testBit_word hw (by omega), testBit_word hw hk]
  by_cases hi : i < 51
  case neg => rw [decide_eq_false hi, Bool.false_and, Bool.false_and]
  by_cases hlow : i < m'
  · have hbit : m + i < 64 ∧ ¬ i ≥ m' ∧ 64 * k + (m + i) = i + (64 * k + m) := by omega
    simp [hbit]
  · have hbit : ¬ m + i < 64 ∧ i < 64 ∧ i ≥ m' ∧ i - m' < 64 ∧ 64 * (k + 1) + (i - m') = i + (64 * k + m) := by omega
    simp [hbit]

end Words

/-- The words of R130 as bits of the buffer's number. -/
theorem bytesWord_word_toNat (s : Bytes32) {k : Nat} (hk : k < 4) :
    (bytesWord s (8 * k) 8).toNat = le s / 2 ^ (64 * k) % 2 ^ 64 := by
  rw [bytesWord_toNat s (8 * k) (by decide) (by omega), ← Nat.mul_assoc]

/-- The five groups by the four little-endian words (R130). -/
theorem decodeBytes_eq_words (s : Bytes32) {w : Nat → Limb} (hw : ∀ k < 4, (w k).toNat = le s / 2 ^ (64 * k) % 2 ^ 64) :
    decodeBytes s =
      ⟨w 0 &&& mask51, ((w 0 >>> 51) ||| (w 1 <<< 13)) &&& mask51, ((w 1 >>> 38) ||| (w 2 <<< 26)) &&& mask51,
       ((w 2 >>> 25) ||| (w 3 <<< 39)) &&& mask51, (w 3 >>> 12) &&& mask51⟩ := by
  refine FE_ext_limb fun j => BitVec.eq_of_toNat_eq ((decodeBytes_limb_toNat s j).trans (Eq.symm ?_))
  fin_cases j
  · exact one_word_group hw (k := 0) (m := 0) (by decide) (by decide)
  · exact two_word_group hw (k := 0) (m := 51) (by decide) (by decide)
  · exact two_word_group hw (k := 1) (m := 38) (by decide) (by decide)
  · exact two_word_group hw (k := 2) (m := 25) (by decide) (by decide)
  · exact one_word_group hw (k := 3) (m := 12) (by decide) (by decide)

/-- Settles O49: each clause is a reading of `le s` to base `2^51`, the words one to base `2^64`. -/
theorem decodeGroups : Obligations.DecodeGroups := by
  intro s w
  have hwords := decodeBytes_eq_words s (w := w) fun k hk => bytesWord_word_toNat s hk
  exact ⟨decodeBytes_limb_toNat s, hwords, decodeBytes_below s, decodeBytes_val s⟩

/-- Settles O19: the register written holds the groups of the latched buffer. -/
theorem decodeUnpacksBytes : Obligations.DecodeUnpacksBytes := by
  intro a b
  refine ⟨classify_fields_ab .decode rfl rfl (by decide) rfl, fun s l h => ?_⟩
  obtain ⟨t, hexec, hdone, hframe, hres⟩ := exec_of_writes_setF (i := .decode a b) h rfl
  refine ⟨t, hexec, hdone, hframe, fun j => ?_⟩
  rw [hres, decodeBytes_limb_toNat]

/-! ## Commands that write one buffer -/

/-- What completing a command that writes `v` to `B[a]` and nothing else leaves (60_exceptions.md R209). -/
theorem exec_of_writes_setB {i : Instr} {a : BReg} {v : Bytes32} {s : State} {l : InFlight} (h : s.inFlight = some l)
    (hw : writes i l.src s.data = s.data.setB a v) :
    ∃ t, exec i s = .next t ∧ CompletedFrom s t ∧ OnlyBufs [a] s t ∧ t.data.getB a = v := by
  refine ⟨_, exec_busy h i, ?_, ?_, ?_⟩ <;> rw [hw]
  · exact ⟨rfl, rfl, rfl, rfl, rfl, rfl, rfl, rfl, rfl⟩
  · exact ⟨fun r => rfl, fun k hk j => congrArg (byteAt · j) (Data.getB_setB_ne _ (List.ne_of_not_mem_cons hk) v)⟩
  · exact Data.getB_setB_self _ a v

/-! ## Encode (R132, R133) -/

theorem packBytes_zero : packBytes ⟨0, 0, 0, 0, 0⟩ = zeroBytes := by decide

theorem encodeFE_of_canonicalLimbs_zero {f : FE} (h : canonicalLimbs f = ⟨0, 0, 0, 0, 0⟩) : encodeFE f = zeroBytes := by
  rw [encodeFE, h, packBytes_zero]

/-- The three zeros modulo p that R133 names: 0, p and 2p. -/
theorem encodeFE_zeros {f : FE} (h : f = ⟨0, 0, 0, 0, 0⟩ ∨ f = limbsOfP ∨ f = feAdd limbsOfP limbsOfP) :
    encodeFE f = zeroBytes := by
  refine encodeFE_of_canonicalLimbs_zero ?_
  obtain rfl | rfl | rfl := h
  · decide
  · decide
  · decide

/-- Settles O20: the buffer written is the encoding of the latched register. -/
theorem encodePacksLimbs : Obligations.EncodePacksLimbs := by
  intro a b
  refine ⟨classify_fields_ab .encode rfl rfl (by decide) rfl, fun s l h => ?_⟩
  obtain ⟨t, hexec, hdone, hframe, hres⟩ := exec_of_writes_setB (i := .encode a b) h rfl
  exact ⟨t, hexec, hdone, hframe, hres, fun hzero => hres.trans (encodeFE_zeros hzero)⟩

end Sys2Proof.Machine
end

section
/-! SUPPORT and PROOFS. The conditional-swap command (42_cswap.md): `Swap` by its flag, and what a command that writes two
field registers leaves. -/

namespace Sys2Proof.Machine

open Sys2Proof.Claims

/-! ## Commands that write two field registers -/

/-- What completing a command that writes `u` to `F[a]`, then `v` to `F[b]`, and nothing else leaves (60_exceptions.md R209).
Where the two registers coincide, the two values must too. -/
theorem exec_of_writes_setF_setF {i : Instr} {a b : FReg} {u v : FE} {s : State} {l : InFlight} (h : s.inFlight = some l)
    (hw : writes i l.src s.data = (s.data.setF a u).setF b v) (hab : a = b → u = v) :
    ∃ t, exec i s = .next t ∧ CompletedFrom s t ∧ OnlyRegs [a, b] s t ∧ t.data.getF a = u ∧ t.data.getF b = v := by
  refine ⟨_, exec_busy h i, ?_, ?_, ?_, ?_⟩ <;> rw [hw]
  · exact ⟨rfl, rfl, rfl, rfl, rfl, rfl, rfl, rfl, rfl⟩
  · refine ⟨fun r hr => ?_, fun k => rfl⟩
    rw [Data.getF_setF_ne _ (List.ne_of_not_mem_cons (List.not_mem_of_not_mem_cons hr)),
      Data.getF_setF_ne _ (List.ne_of_not_mem_cons hr)]
  · by_cases heq : a = b
    · rw [Data.getF_setF, if_pos heq, hab heq]
    · rw [Data.getF_setF_ne _ heq, Data.getF_setF_self]
  · exact Data.getF_setF_self _ b v

/-! ## Swap (R140) -/

/-- A mask of zeros keeps the two limbs. -/
theorem swapLimb_zero (x y : Limb) : swapLimb 0 x y = (x, y) := by
  simp only [swapLimb, BitVec.ofNat_eq_ofNat, BitVec.zero_and, BitVec.xor_zero]

/-- A mask of ones exchanges the two limbs: `x ^ (x ^ y) = y`. -/
theorem swapLimb_allOnes (x y : Limb) : swapLimb (BitVec.allOnes 64) x y = (y, x) := by
  have hx : x ^^^ (x ^^^ y) = y := by rw [← BitVec.xor_assoc, BitVec.xor_self, BitVec.zero_xor]
  have hy : y ^^^ (x ^^^ y) = x := by rw [BitVec.xor_comm x, ← BitVec.xor_assoc, BitVec.xor_self, BitVec.zero_xor]
  simp only [swapLimb, BitVec.allOnes_and, hx, hy]

/-- Equal limbs have nothing to exchange, whatever the mask. -/
theorem swapLimb_self (mask x : Limb) : swapLimb mask x x = (x, x) := by
  simp only [swapLimb, BitVec.xor_self, BitVec.and_zero, BitVec.xor_zero]

theorem feSwap_zero (f g : FE) : feSwap f g 0 = (f, g) := by
  have hmask : (0 : Limb) - 0 = 0 := rfl
  simp only [feSwap, hmask, swapLimb_zero]

theorem feSwap_one (f g : FE) : feSwap f g 1 = (g, f) := by
  have hmask : (0 : Limb) - 1 = BitVec.allOnes 64 := rfl
  simp only [feSwap, hmask, swapLimb_allOnes]

/-- The corner of R141: a register swapped with itself is unchanged for either flag. -/
theorem feSwap_self (f : FE) (flag : Limb) : feSwap f f flag = (f, f) := by
  simp only [feSwap, swapLimb_self]

/-- Settles O21: `Swap` by its flag, and by `feSwap_self` the two writes agree where the registers coincide. -/
theorem cswapExchangesByFlag : Obligations.CswapExchangesByFlag := by
  intro a b flag
  refine ⟨classify_fields_abc .cswap rfl rfl (by decide) rfl, fun s l h => ?_⟩
  have hself : a = b → (feSwap (l.src.getF a) (l.src.getF b) (flag.setWidth 64)).1
      = (feSwap (l.src.getF a) (l.src.getF b) (flag.setWidth 64)).2 := by
    rintro rfl
    rw [feSwap_self]
  obtain ⟨t, hexec, hdone, hframe, ha, hb⟩ := exec_of_writes_setF_setF (i := .cswap a b flag) h rfl hself
  refine ⟨t, hexec, hdone, hframe, ?_, ?_⟩
  · rintro rfl
    have hswap := feSwap_one (l.src.getF a) (l.src.getF b)
    exact ⟨ha.trans (congrArg Prod.fst hswap), hb.trans (congrArg Prod.snd hswap)⟩
  · rintro rfl
    have hswap := feSwap_zero (l.src.getF a) (l.src.getF b)
    exact ⟨ha.trans (congrArg Prod.fst hswap), hb.trans (congrArg Prod.snd hswap)⟩

end Sys2Proof.Machine
end

section
/-! SUPPORT and PROOFS. The commands of the scalar multiplier (43_ladder.md): the words that R85 rejects, what a command that
writes four field registers leaves, the step at the point (1 : 0), and the ladder of a zero scalar. -/

namespace Sys2Proof

/-! ## Words of LSTEP and LADDER (30_encoding.md R82, R85) -/

/-- R86 rejects the word of a command that violates the constraints of R85. -/
theorem classify_encode_of_not_wf {i : Instr} (hwf : ¬ i.wf = true) : classify (encode i) = .illegalOperand := by
  rw [classify_of_opField (opField_encode i), assemble_encode, if_neg fun h => hwf h.2]

/-- The encoding line of R151. -/
theorem encode_lstep (a b c d e : FReg) :
    encode (.lstep a b c d e) =
      BitVec.ofNat 32 (0x30000000 + a.val * 2 ^ 20 + b.val * 2 ^ 16 + c.val * 2 ^ 12 + d.val * 2 ^ 8 + e.val * 2 ^ 4) := by
  have hop : Opcode.lstep.byte.toNat * 2 ^ 24 = 0x30000000 := rfl
  rw [encode, wordOf, hop]

/-- The encoding line of R153. -/
theorem encode_ladder (a b : FReg) (c : BReg) (d : FReg) :
    encode (.ladder a b c d) =
      BitVec.ofNat 32 (0x31000000 + a.val * 2 ^ 20 + b.val * 2 ^ 16 + c.val * 2 ^ 12 + d.val * 2 ^ 8) := by
  have hop : Opcode.ladder.byte.toNat * 2 ^ 24 = 0x31000000 := rfl
  rw [encode, wordOf, hop, Nat.zero_mul, Nat.add_zero]

theorem wf_lstep_iff (a b c d e : FReg) :
    (Instr.lstep a b c d e).wf = true ↔ a ≠ b ∧ a ≠ c ∧ a ≠ d ∧ b ≠ c ∧ b ≠ d ∧ c ≠ d := by
  simp only [Instr.wf, Bool.and_eq_true, decide_eq_true_eq, and_assoc]

theorem not_wf_lstep_iff (a b c d e : FReg) :
    ¬ (Instr.lstep a b c d e).wf = true ↔ a = b ∨ a = c ∨ a = d ∨ b = c ∨ b = d ∨ c = d := by
  simp only [wf_lstep_iff, ne_eq, not_and_or, not_not]

theorem wf_ladder_iff (a b : FReg) (c : BReg) (d : FReg) : (Instr.ladder a b c d).wf = true ↔ a ≠ b :=
  decide_eq_true_iff

end Sys2Proof

namespace Sys2Proof.Machine

open Sys2Proof.Claims

/-! ## Commands that write four field registers -/

/-- What completing a command that writes four distinct field registers and nothing else leaves (60_exceptions.md R209). -/
theorem exec_of_writes_four_setF {i : Instr} {a b c d : FReg} {u v w x : FE} {s : State} {l : InFlight}
    (h : s.inFlight = some l)
    (hw : writes i l.src s.data = (((s.data.setF a u).setF b v).setF c w).setF d x)
    (hdistinct : a ≠ b ∧ a ≠ c ∧ a ≠ d ∧ b ≠ c ∧ b ≠ d ∧ c ≠ d) :
    ∃ t, exec i s = .next t ∧ CompletedFrom s t ∧ OnlyRegs [a, b, c, d] s t ∧
      t.data.getF a = u ∧ t.data.getF b = v ∧ t.data.getF c = w ∧ t.data.getF d = x := by
  obtain ⟨hab, hac, had, hbc, hbd, hcd⟩ := hdistinct
  refine ⟨_, exec_busy h i, ?_, ?_, ?_, ?_, ?_, ?_⟩ <;> rw [hw]
  · exact ⟨rfl, rfl, rfl, rfl, rfl, rfl, rfl, rfl, rfl⟩
  · refine ⟨fun r hr => ?_, fun k => rfl⟩
    simp only [List.mem_cons, List.not_mem_nil, or_false, not_or] at hr
    obtain ⟨ha, hb, hc, hd⟩ := hr
    rw [Data.getF_setF_ne _ hd, Data.getF_setF_ne _ hc, Data.getF_setF_ne _ hb, Data.getF_setF_ne _ ha]
  · rw [Data.getF_setF_ne _ had, Data.getF_setF_ne _ hac, Data.getF_setF_ne _ hab, Data.getF_setF_self]
  · rw [Data.getF_setF_ne _ hbd, Data.getF_setF_ne _ hbc, Data.getF_setF_self]
  · rw [Data.getF_setF_ne _ hcd, Data.getF_setF_self]
  · exact Data.getF_setF_self _ d x

/-! ## The ladder step (R150) -/

/-- The doubled `x2` depends on `nq` alone. -/
theorem ladderStep_x (p : Pairs) (q : FE) :
    (ladderStep p q).x = feMultiply (feSquare (feAdd p.x p.z)) (feSquare (stepDiff p.x p.z)) := rfl

/-- The doubled `z2` depends on `nq` alone. -/
theorem ladderStep_z (p : Pairs) (q : FE) :
    (ladderStep p q).z =
      feMultiply (feDifference (feSquare (stepDiff p.x p.z)) (feSquare (feAdd p.x p.z)))
        (feScalarMultiplyAdd (feDifference (feSquare (stepDiff p.x p.z)) (feSquare (feAdd p.x p.z))) a24
          (feSquare (feAdd p.x p.z))) := rfl

theorem feSquare_one : feSquare FE.one = FE.one := feMultiply_one (by decide)

/-- The corner of R151: `x + z`, `x - z` and their squares are one, so their difference `E` (R154), a
factor of `z2`, is zero. -/
theorem ladderStep_one_zero {p : Pairs} (hx : p.x = FE.one) (hz : p.z = FE.zero) (q : FE) :
    (ladderStep p q).x = FE.one ∧ (ladderStep p q).z = FE.zero := by
  have hsum : feAdd p.x p.z = FE.one := by rw [hx, hz]; rfl
  have hdiff : stepDiff p.x p.z = FE.one := by rw [hx, hz]; decide
  have hzzz : feScalarMultiplyAdd FE.zero a24 FE.one = FE.one := by decide
  rw [ladderStep_x, ladderStep_z, hsum, hdiff, feSquare_one, feDifference_self, hzzz]
  exact ⟨feSquare_one, feMultiply_one (by decide)⟩

/-- Settles O22: the word by R85, the four writes go to distinct registers, the corner is that of the step. -/
theorem lstepDoublesAndAdds : Obligations.LstepDoublesAndAdds := by
  intro a b c d e
  rw [← encode_lstep]
  refine ⟨fun hdistinct => ⟨classify_encode ((wf_lstep_iff ..).mpr hdistinct), fun s l h => ?_⟩,
    fun hcoincide => classify_encode_of_not_wf ((not_wf_lstep_iff ..).mpr hcoincide)⟩
  obtain ⟨t, hexec, hdone, hframe, ha, hb, hc, hd⟩ :=
    exec_of_writes_four_setF (i := .lstep a b c d e) h rfl hdistinct
  refine ⟨t, hexec, hdone, hframe, by rw [ha, hb, hc, hd], fun hx hz => ?_⟩
  rw [ha, hb]
  exact ladderStep_one_zero hx hz _

/-! ## The ladder of a zero scalar (R152, R153) -/

theorem swapPairs_zero (p : Pairs) : swapPairs p 0 = p := by
  simp only [swapPairs, feSwap_zero]

theorem scalarBit_zeroBytes (i : Nat) : scalarBit zeroBytes i = 0 := by
  rw [scalarBit, zeroBytes, byteAt_replicate_zero]
  simp only [BitVec.ofNat_eq_ofNat, BitVec.zero_ushiftRight, BitVec.zero_and, BitVec.setWidth_zero]

/-- What every iteration of the ladder keeps, the whole loop keeps. -/
theorem ladderLoop_keeps {P : LoopState → Prop} {n : Bytes32} {q : FE}
    (hstep : ∀ i l, P l → P (ladderIteration n q i l)) (k : Nat) {l : LoopState} (hl : P l) :
    P (ladderLoop n q k l) := by
  induction k generalizing l with
  | zero => exact hl
  | succ k ih => exact ih (hstep k l hl)

/-- The loop has not swapped, and `nq` is the point (1 : 0). -/
structure LoopState.AtInfinity (l : LoopState) : Prop where
  x : l.pairs.x = FE.one
  z : l.pairs.z = FE.zero
  lastbit : l.lastbit = 0

theorem ladderStart_atInfinity (q : FE) : (ladderStart q).AtInfinity := ⟨rfl, rfl, rfl⟩

/-- With a zero scalar no iteration swaps, so each doubles (1 : 0) (R153). -/
theorem ladderIteration_atInfinity (q : FE) (i : Nat) (l : LoopState) (h : l.AtInfinity) :
    (ladderIteration zeroBytes q i l).AtInfinity := by
  obtain ⟨hx, hz, hlast⟩ := h
  have hflag : (0 : Limb) ^^^ 0 = 0 := rfl
  have hiteration : ladderIteration zeroBytes q i l = ⟨ladderStep l.pairs q, 0⟩ := by
    rw [ladderIteration, scalarBit_zeroBytes, hlast, hflag, swapPairs_zero]
  obtain ⟨hx', hz'⟩ := ladderStep_one_zero hx hz q
  rw [hiteration]
  exact ⟨hx', hz', rfl⟩

/-- The corner of R153: the final swap, like every other, does not fire and leaves `nq` at (1 : 0). -/
theorem ladder_zeroBytes (q : FE) : ladder zeroBytes q = (FE.one, FE.zero) := by
  obtain ⟨hx, hz, hlast⟩ := ladderLoop_keeps (ladderIteration_atInfinity q) 256 (ladderStart_atInfinity q)
  rw [ladder, hlast, swapPairs_zero, hx, hz]

/-- Settles O23: the word by R85, the two writes go to distinct registers, the corner by the invariant of the loop. -/
theorem ladderMultiplies : Obligations.LadderMultiplies := by
  intro a b c d
  rw [← encode_ladder]
  refine ⟨fun hab => ⟨classify_encode ((wf_ladder_iff ..).mpr hab), fun s l h => ?_⟩,
    fun hab => classify_encode_of_not_wf fun hwf => (wf_ladder_iff ..).mp hwf hab⟩
  obtain ⟨t, hexec, hdone, hframe, ha, hb⟩ :=
    exec_of_writes_setF_setF (i := .ladder a b c d) h rfl fun heq => absurd heq hab
  refine ⟨t, hexec, hdone, hframe, Prod.ext ha hb, fun hzero => ?_⟩
  rw [ha, hb, hzero, ladder_zeroBytes]
  exact ⟨rfl, rfl⟩

end Sys2Proof.Machine
end

section
/-! SUPPORT and PROOFS. The inverse command (44_inverse.md): the chain keeps every element that is its own square, limb for
limb. -/

namespace Sys2Proof.Machine

open Sys2Proof.Claims

/-! ## The chain on an element that is its own square (R170, R171) -/

section OwnSquare

variable {f : FE} (h : feSquare f = f)
include h

theorem squareTimes_of_feSquare_eq_self (k : Nat) : squareTimes k f = f := by
  induction k with
  | zero => rfl
  | succ k ih => rw [squareTimes, h, ih]

/-- Each value of the chain is a square or a product of values before it, so each of them is `f`. -/
theorem invert_of_feSquare_eq_self : invert f = f := by
  have hmul : feMultiply f f = f := h
  simp only [invert, h, hmul, squareTimes_of_feSquare_eq_self h]

end OwnSquare

theorem feSquare_zero : feSquare FE.zero = FE.zero := feMultiply_zero _

/-- The product of p with itself carries back to the limbs of p, not to those of zero. -/
theorem feSquare_limbsOfP : feSquare limbsOfP = limbsOfP := by decide

/-- The fixed points that R171 names. -/
theorem invert_fixed_points {f : FE} (h : f = ⟨0, 0, 0, 0, 0⟩ ∨ f = ⟨1, 0, 0, 0, 0⟩ ∨ f = limbsOfP) : invert f = f := by
  obtain rfl | rfl | rfl := h
  · exact invert_of_feSquare_eq_self feSquare_zero
  · exact invert_of_feSquare_eq_self feSquare_one
  · exact invert_of_feSquare_eq_self feSquare_limbsOfP

/-- Settles O24: the register written is the inverse of the one latched, and the fixed points are their own squares. -/
theorem invertInverts : Obligations.InvertInverts := by
  intro a b
  refine ⟨classify_fields_ab .invert rfl rfl (by decide) rfl, fun s l h => ?_⟩
  obtain ⟨t, hexec, hdone, hframe, hres⟩ := exec_of_writes_setF (i := .invert a b) h rfl
  exact ⟨t, hexec, hdone, hframe, hres, fun hfixed => hres.trans (invert_fixed_points hfixed)⟩

end Sys2Proof.Machine
end

section
/-! SUPPORT and PROOFS. The byte-level commands (45_toplevel.md): `Clamp` byte by byte and as a number, and DPUB and DSHARED as
SMULT. -/

namespace Sys2Proof.Machine

open Sys2Proof.Claims

/-! ## A buffer by its bytes (00_scope.md R5) -/

/-- Two buffers are equal when their bytes are. -/
theorem Bytes32_ext_byteAt {u v : Bytes32} (h : ∀ j, byteAt u j = byteAt v j) : u = v := by
  refine Vector.ext fun j hj => ?_
  have hbyte := h j
  rwa [byteAt, byteAt, dif_pos hj, dif_pos hj] at hbyte

theorem le_lt_two_pow (s : Bytes32) : le s < 2 ^ 256 := by
  have hdrop : s.toList.drop 32 = [] := List.drop_eq_nil_of_le s.length_toList.le
  have hdiv : le s / 2 ^ (8 * 32) = 0 := by rw [le, foldr_bytes_div, hdrop, List.foldr_nil]
  exact (Nat.div_eq_zero_iff_lt (by decide)).mp hdiv

/-- Byte 0 is the lowest digit to base 256. -/
theorem le_mod_eight (s : Bytes32) : le s % 8 = (byteAt s 0).toNat % 8 := by
  have hdigit := le_div_eq_byte_add s (o := 0) (by decide)
  omega

/-- Byte 31 is the highest digit to base 256. -/
theorem le_div_eq_byteAt_last (s : Bytes32) : le s / 2 ^ 248 = (byteAt s 31).toNat := by
  have hdigit := le_div_eq_byte_add s (o := 31) (by decide)
  have hlt := le_lt_two_pow s
  omega

/-! ## Clamp (R181) -/

theorem byteAt_clampBytes_zero (s : Bytes32) : byteAt (clampBytes s) 0 = byteAt s 0 &&& 248 := by
  rw [clampBytes, byteAt_setByteAt, if_neg (by decide), byteAt_setByteAt, if_pos (by decide)]

theorem byteAt_clampBytes_last (s : Bytes32) : byteAt (clampBytes s) 31 = (byteAt s 31 &&& 127) ||| 64 := by
  rw [clampBytes, byteAt_setByteAt, if_pos (by decide)]

theorem byteAt_clampBytes_of_ne (s : Bytes32) {j : Nat} (h0 : j ≠ 0) (h31 : j ≠ 31) :
    byteAt (clampBytes s) j = byteAt s j := by
  rw [clampBytes, byteAt_setByteAt, if_neg fun h => h31 h.1, byteAt_setByteAt, if_neg fun h => h0 h.1]

/-- What the first clamping clears stays clear and what it sets stays set. -/
theorem clampBytes_clampBytes (s : Bytes32) : clampBytes (clampBytes s) = clampBytes s := by
  refine Bytes32_ext_byteAt fun j => ?_
  by_cases h0 : j = 0
  · have hmask : (248 : Byte) &&& 248 = 248 := rfl
    rw [h0, byteAt_clampBytes_zero, byteAt_clampBytes_zero, BitVec.and_assoc, hmask]
  by_cases h31 : j = 31
  · have hkeep : (64 : Byte) &&& 127 = 64 := rfl
    have hmask : (127 : Byte) &&& 127 = 127 := rfl
    rw [h31, byteAt_clampBytes_last, byteAt_clampBytes_last, BitVec.and_or_distrib_right, hkeep, BitVec.and_assoc, hmask,
      BitVec.or_assoc, BitVec.or_self]
  · exact byteAt_clampBytes_of_ne _ h0 h31

/-- Bits 0 to 2 are clear. -/
theorem le_clampBytes_mod_eight (s : Bytes32) : le (clampBytes s) % 8 = 0 := by
  have hmask : (248 : Byte).toNat % 2 ^ 3 = 0 := rfl
  have hlow : ((byteAt s 0).toNat &&& (248 : Byte).toNat) % 2 ^ 3 = 0 := by
    rw [Nat.and_mod_two_pow, hmask, Nat.and_zero]
  rw [le_mod_eight, byteAt_clampBytes_zero, BitVec.toNat_and]
  exact hlow

/-- In byte 31 bit 6 is set and bit 7 is clear. -/
theorem byteAt_clampBytes_last_bounds (s : Bytes32) :
    64 ≤ (byteAt (clampBytes s) 31).toNat ∧ (byteAt (clampBytes s) 31).toNat < 128 := by
  rw [byteAt_clampBytes_last, BitVec.toNat_or, BitVec.toNat_and]
  exact ⟨Nat.right_le_or, Nat.or_lt_two_pow (n := 7) (Nat.and_lt_two_pow _ (by decide)) (by decide)⟩

/-- Bit 255 is clear and bit 254 is set. -/
theorem le_clampBytes_bounds (s : Bytes32) : 2 ^ 254 ≤ le (clampBytes s) ∧ le (clampBytes s) < 2 ^ 255 := by
  have hbyte := byteAt_clampBytes_last_bounds s
  rw [← le_div_eq_byteAt_last] at hbyte
  omega

/-- Settles O25: the buffer written is the clamped one latched, read byte by byte and as a number. -/
theorem clampFixesBits : Obligations.ClampFixesBits := by
  intro a b
  refine ⟨classify_fields_ab .clamp rfl rfl (by decide) rfl, fun s l h => ?_⟩
  obtain ⟨t, hexec, hdone, hframe, hres⟩ := exec_of_writes_setB (i := .clamp a b) h rfl
  refine ⟨t, hexec, hdone, hframe, ?_⟩
  rw [hres]
  exact ⟨byteAt_clampBytes_zero _, byteAt_clampBytes_last _,
    fun j h1 h30 => byteAt_clampBytes_of_ne _ (by omega) (by omega), clampBytes_clampBytes _,
    le_clampBytes_mod_eight _, le_clampBytes_bounds _⟩

/-! ## SMULT (R182, R183) -/

/-- The stages of R182. -/
theorem scalarMult_eq (secret point : Bytes32) :
    scalarMult secret point =
      encodeFE (feMultiply (ladder (clampBytes secret) (decodeBytes point)).1
        (invert (ladder (clampBytes secret) (decodeBytes point)).2)) := rfl

/-- Settles O26: the buffer written is the scalar multiple of the two latched. -/
theorem smultMultipliesPoint : Obligations.SmultMultipliesPoint := by
  intro a b c
  refine ⟨classify_fields_abc .smult rfl rfl (by decide) rfl, fun s l h => ?_⟩
  obtain ⟨t, hexec, hdone, hframe, hres⟩ := exec_of_writes_setB (i := .smult a b c) h rfl
  exact ⟨t, hexec, hdone, hframe, hres.trans (scalarMult_eq _ _)⟩

/-! ## DPUB (R180, R185) -/

theorem basePoint_eq_setByteAt : basePoint = setByteAt zeroBytes 0 9 := rfl

theorem byteAt_basePoint_zero : byteAt basePoint 0 = 9 := by
  rw [basePoint_eq_setByteAt, byteAt_setByteAt, if_pos (by decide)]

theorem byteAt_basePoint_of_ne {j : Nat} (h : j ≠ 0) : byteAt basePoint j = 0 := by
  rw [basePoint_eq_setByteAt, byteAt_setByteAt, if_neg fun h' => h h'.1, zeroBytes, byteAt_replicate_zero]

/-- R185: DPUB writes what SMULT writes when its point is the base point. -/
theorem exec_dpub {a b c : BReg} {s : State} {l : InFlight} (h : s.inFlight = some l) (hc : l.src.getB c = basePoint) :
    exec (.dpub a b) s = exec (.smult a b c) s := by
  have hwrites : writes (.dpub a b) l.src s.data = writes (.smult a b c) l.src s.data := by simp only [writes, hc]
  rw [exec_busy h, exec_busy h, hwrites]

/-- Settles O27: the point of R180 is the model's, and with that point in `B[c]` DPUB is SMULT. -/
theorem dpubUsesBasePoint : Obligations.DpubUsesBasePoint := by
  intro a b
  refine ⟨classify_fields_ab .dpub rfl rfl (by decide) rfl, fun s l h => ?_⟩
  obtain ⟨t, hexec, hdone, hframe, hres⟩ := exec_of_writes_setB (i := .dpub a b) h rfl
  exact ⟨t, hexec, hdone, hframe, basePoint, byteAt_basePoint_zero, fun j h1 _ => byteAt_basePoint_of_ne (by omega), hres,
    fun c hc => (exec_dpub h hc).symm.trans hexec⟩

/-! ## DSHARED (R186) -/

/-- R186: DSHARED writes what SMULT writes. -/
theorem exec_dshared (a b c : BReg) (s : State) : exec (.dshared a b c) s = exec (.smult a b c) s := by
  have hwrites : writes (.dshared a b c) = writes (.smult a b c) := rfl
  rw [exec_eq_finish, exec_eq_finish, hwrites]

/-- Settles O28: DSHARED is SMULT with the same operands. -/
theorem dsharedIsSmult : Obligations.DsharedIsSmult := by
  intro a b c
  refine ⟨classify_fields_abc .dshared rfl rfl (by decide) rfl, fun s l h => ?_⟩
  obtain ⟨t, hexec, hdone, hframe, hres⟩ := exec_of_writes_setB (i := .dshared a b c) h rfl
  exact ⟨t, hexec, hdone, hframe, hres, (exec_dshared a b c s).symm.trans hexec⟩

end Sys2Proof.Machine
end

section
/-! SUPPORT and PROOFS. Command handling and the interface errors (60_exceptions.md R202 to R204): what a step does with a
write of `CMD`, with a write of `STATUS`, and with a reset. -/

namespace Sys2Proof.Machine

open Sys2Proof.Claims

/-! ## A `CMD` write, by the case that applies (R202) -/

section WriteCmd

variable {s : State} {w : Word32} {i : Instr}

theorem State.writeCmd_busy (hb : s.busy = true) : s.writeCmd w = recordFirst s 3 0x000 := if_pos hb

theorem State.writeCmd_error (hb : s.busy = false) (he : s.err = true) : s.writeCmd w = s := by
  simp [State.writeCmd, hb, he]

theorem State.writeCmd_illegalOpcode (hb : s.busy = false) (he : s.err = false) (hc : classify w = .illegalOpcode) :
    s.writeCmd w = { s with err := true, errCode := 1, errInfo := w } := by
  simp [State.writeCmd, hb, he, hc, State.raise_first, ErrorCause.code]

theorem State.writeCmd_illegalOperand (hb : s.busy = false) (he : s.err = false) (hc : classify w = .illegalOperand) :
    s.writeCmd w = { s with err := true, errCode := 2, errInfo := w } := by
  simp [State.writeCmd, hb, he, hc, State.raise_first, ErrorCause.code]

theorem State.writeCmd_command (hb : s.busy = false) (he : s.err = false) (hc : classify w = .command i) :
    s.writeCmd w = s.accept w i := by
  simp [State.writeCmd, hb, he, hc]

end WriteCmd

/-! ## A step that takes a write of `CMD` or `STATUS`, or a reset -/

section Control

variable {s t : State} {v : Limb} {rest : List Action}

/-- A write of `CMD` always reaches it: the window leaves BUSY to R202. -/
theorem step_cmdWrite (h : s.pending = .write 0x000 4 v :: rest)
    (ht : State.writeCmd { s with pending := rest } (v.setWidth 32) = t) : step s = .next t := by
  rw [← ht]
  exact step_write_open (p := .cmd) h rfl (Bool.and_false _)

/-- A write of `STATUS` is performed, BUSY or not. -/
theorem step_statusWrite (h : s.pending = .write 0x004 4 v :: rest) :
    step s = .next { s with
      pending := rest
      done := s.done && !v.getLsbD 1
      err := s.err && !v.getLsbD 2
      errCode := if v.getLsbD 2 = true then 0 else s.errCode
      errInfo := if v.getLsbD 2 = true then 0 else s.errInfo } := by
  rw [step_write_open (p := .status) h rfl (Bool.and_false _), State.poke, State.writeStatus_eq]
  simp only [BitVec.getLsbD_setWidth]
  rfl

theorem step_reset (h : s.pending = .reset :: rest) : step s = .next (State.resetEvent { s with pending := rest }) :=
  step_cons h

end Control

/-- Settles O4: a `CMD` write is handled by the first case of R202 that applies, at the state with the write taken off. -/
theorem cmdWriteCases : Obligations.CmdWriteCases := by
  intro s v rest h
  exact ⟨fun hb => step_cmdWrite h (State.writeCmd_busy hb),
    fun hb he => step_cmdWrite h (State.writeCmd_error hb he),
    fun hb he hc => step_cmdWrite h (State.writeCmd_illegalOpcode hb he hc),
    fun hb he hc => step_cmdWrite h (State.writeCmd_illegalOperand hb he hc),
    fun _ hb he hc => step_cmdWrite h (State.writeCmd_command hb he hc)⟩

/-- Settles O6: the fields after a write of `STATUS`, by its bit 2, and those after reset. -/
theorem errorClearedByWrite : Obligations.ErrorClearedByWrite := by
  intro s v rest
  refine ⟨fun h => ⟨_, step_statusWrite h, fun h2 => ?clear, fun h2 => ?keep, rfl, rfl, rfl, rfl, rfl, rfl⟩,
    fun h => ⟨_, step_reset h, rfl, rfl, rfl⟩⟩
  case clear => simp only [h2, Bool.not_true, Bool.and_false, if_true, and_self]
  case keep => simp only [h2, Bool.not_false, Bool.and_true, Bool.false_eq_true, if_false, and_self]

end Sys2Proof.Machine
end

section
/-! SUPPORT and PROOFS. The round trip of the encoding (30_encoding.md R80 to R88): a command's word read back, and the words
the spec writes out. -/

namespace Sys2Proof

/-- The row and the fields of a command's word give the command back, whether or not R85 admits it (log 14). -/
theorem decode_encode (i : Instr) : decode (encode i) = .command i := by
  rw [decode, opField_encode, ofByte_byte]
  simp only [owns_encode, if_true, assemble_encode]

/-- Settles O2: the word is read back by its row, and R85 alone decides whether R86 accepts it. -/
theorem decodeEncodeAgree : Obligations.DecodeEncodeAgree := by
  intro i
  refine ⟨decode_encode i, ?_⟩
  by_cases hwf : i.wf = true
  · rw [if_pos hwf, classify_encode hwf]
  · rw [if_neg hwf, classify_encode_of_not_wf hwf]

/-- Settles O1: each written word is the word of its command, and the last three fail a stage of R86 each. -/
theorem specWordsDecode : Obligations.SpecWordsDecode := by
  unfold Obligations.SpecWordsDecode
  decide

end Sys2Proof
end

section
/-! SUPPORT and PROOFS. What one host access does, said once for every access (20_memory.md R55, R56, 60_exceptions.md R202,
R204), and the invariant of CORE kept by every step. -/

namespace Sys2Proof.Machine

open Sys2Proof.Claims

/-! ## The effect of a host access -/

/-- Everything a performed host access can do to the state `s`. -/
inductive AccessEffect (s : State) : Action → State → Prop
  | readRefused {off n : Nat} (hb : s.busy = true) (hoff : off < Config.windowSize) :
    AccessEffect s (.read off n) ((s.raise .busyAccess (BitVec.ofNat 32 off)).reply 0)
  | replied {off n : Nat} (v : Limb) : AccessEffect s (.read off n) (s.reply v)
  | writeRefused {off n : Nat} {v : Limb} (hb : s.busy = true) (hoff : off < Config.windowSize) :
    AccessEffect s (.write off n v) (s.raise .busyAccess (BitVec.ofNat 32 off))
  | cmdWritten (v : Limb) : AccessEffect s (.write 0x000 4 v) (s.writeCmd (v.setWidth 32))
  | statusWritten (v : Limb) : AccessEffect s (.write 0x004 4 v) (s.writeStatus (v.setWidth 32))
  | stored {off n : Nat} {v : Limb} (hb : s.busy = false) (d : Data) : AccessEffect s (.write off n v) { s with data := d }
  | ignored {off n : Nat} {v : Limb} : AccessEffect s (.write off n v) s

theorem hostRead_effect {off n : Nat} {s t : State} (h : hostRead off n s = .next t) :
    AccessEffect s (.read off n) t := by
  obtain ⟨p, hp, ⟨hb, -, rfl⟩ | ⟨-, rfl⟩⟩ := hostRead_cases h
  · exact .readRefused hb (locate_lt hp)
  · exact .replied _

theorem locate_eq_cmd {off n : Nat} (h : locate off n = some .cmd) : off = 0x000 ∧ n = 4 := by
  simpa using locate_cases h

theorem locate_eq_status {off n : Nat} (h : locate off n = some .status) : off = 0x004 ∧ n = 4 := by
  simpa using locate_cases h

theorem hostWrite_effect {off n : Nat} {v : Limb} {s t : State} (h : hostWrite off n v s = .next t) :
    AccessEffect s (.write off n v) t := by
  obtain ⟨p, hp, ⟨hb, -, rfl⟩ | ⟨hopen, rfl⟩⟩ := hostWrite_cases h
  · exact .writeRefused hb (locate_lt hp)
  obtain ⟨rfl, hpoke⟩ | ⟨rfl, hpoke⟩ | ⟨hg, d, hpoke⟩ | hpoke := poke_cases s n v p
  · obtain ⟨rfl, rfl⟩ := locate_eq_cmd hp
    rw [hpoke]
    exact .cmdWritten v
  · obtain ⟨rfl, rfl⟩ := locate_eq_status hp
    rw [hpoke]
    exact .statusWritten v
  · rw [hg, Bool.and_true] at hopen
    rw [hpoke]
    exact .stored hopen d
  · rw [hpoke]
    exact .ignored

/-- The effect of every access that is performed. -/
theorem perform_effect {a : Action} {s t : State} (ha : IsAccess a) (h : perform a s = .next t) : AccessEffect s a t := by
  obtain ⟨hcomplete, hreset⟩ := ha
  cases a with
  | read off n => exact hostRead_effect h
  | write off n v => exact hostWrite_effect h
  | complete => exact absurd rfl hcomplete
  | reset => exact absurd rfl hreset

/-- An event is an access, a completion or a reset. -/
theorem Action.eq_complete_or_eq_reset_or_isAccess (a : Action) : a = .complete ∨ a = .reset ∨ IsAccess a := by
  cases a <;> simp [IsAccess]

/-- Everything a step can do: the engine's step with no event left, or else what the first event does. -/
theorem step_cases {s t : State} (h : step s = .next t) :
    (s.pending = [] ∧ engineStep s = .next t) ∨
    (∃ rest, s.pending = .complete :: rest ∧ engineStep { s with pending := rest } = .next t) ∨
    (∃ rest, s.pending = .reset :: rest ∧ t = State.resetEvent { s with pending := rest }) ∨
    ∃ a rest, s.pending = a :: rest ∧ IsAccess a ∧ AccessEffect { s with pending := rest } a t := by
  cases hp : s.pending with
  | nil => exact .inl ⟨rfl, by rw [← step_nil hp, h]⟩
  | cons a rest =>
    rw [step_cons hp] at h
    obtain rfl | rfl | ha := a.eq_complete_or_eq_reset_or_isAccess
    · exact .inr (.inl ⟨rest, rfl, h⟩)
    · exact .inr (.inr (.inl ⟨rest, rfl, by cases h; rfl⟩))
    · exact .inr (.inr (.inr ⟨a, rest, rfl, ha, perform_effect ha h⟩))

/-- Everything the engine's step can do (60_exceptions.md R209). -/
theorem engineStep_cases {s t : State} (h : engineStep s = .next t) :
    (s.inFlight = none ∧ t = s) ∨
    ∃ l, s.inFlight = some l ∧ t = { s with data := writes l.instr l.src s.data, done := true, inFlight := none } := by
  cases hl : s.inFlight with
  | none => rw [engineStep_idle hl] at h; cases h; exact .inl ⟨rfl, rfl⟩
  | some l => rw [engineStep_busy hl] at h; cases h; exact .inr ⟨l, rfl, rfl⟩

/-! ## The invariant, update by update -/

section Inv

variable {s : State}

/-- The events still to come and the replies are no part of the invariant. -/
theorem State.Inv.setPending (h : s.Inv) (rest : List Action) : State.Inv { s with pending := rest } :=
  ⟨h.cmdAccepted, h.flightIsCmd, h.latchedHolds, h.busyOrDone, h.record⟩

theorem State.Inv.reply (h : s.Inv) (v : Limb) : (s.reply v).Inv :=
  ⟨h.cmdAccepted, h.flightIsCmd, h.latchedHolds, h.busyOrDone, h.record⟩

/-- A first error recorded with a value that deserves its code keeps the invariant; a later one changes nothing. -/
theorem State.Inv.raise (h : s.Inv) {e : ErrorCause} {v : Word32}
    (hv : s.err = false → State.RecordOk { s with err := true, errCode := e.code, errInfo := v }) : (s.raise e v).Inv := by
  cases he : s.err with
  | true => rwa [State.raise_later he]
  | false =>
    rw [State.raise_first he]
    exact ⟨h.cmdAccepted, h.flightIsCmd, h.latchedHolds, h.busyOrDone, hv he⟩

theorem State.Inv.raise_busyAccess (h : s.Inv) {off : Nat} (hoff : off < Config.windowSize) :
    (s.raise .busyAccess (BitVec.ofNat 32 off)).Inv := by
  have hval : (BitVec.ofNat 32 off).toNat = off := by
    rw [BitVec.toNat_ofNat, Nat.mod_eq_of_lt (hoff.trans (by decide))]
  exact h.raise fun _ => .inr (.inr (.inr ⟨rfl, rfl, hval.trans_lt hoff⟩))

theorem State.Inv.accept (h : s.Inv) {w : Word32} {i : Instr} (hc : classify w = .command i) : (s.accept w i).Inv where
  cmdAccepted := .inr ⟨i, hc⟩
  flightIsCmd l hl := by cases hl; exact hc
  latchedHolds l hl := by cases hl; rfl
  busyOrDone _ := rfl
  record := h.record

/-- Each case of R202 keeps the invariant. -/
theorem State.Inv.writeCmd (h : s.Inv) (w : Word32) : (s.writeCmd w).Inv := by
  obtain ⟨-, hw⟩ | ⟨-, -, hw⟩ | ⟨-, -, hc, hw⟩ | ⟨-, -, hc, hw⟩ | ⟨-, -, i, hc, hw⟩ := writeCmd_cases s w <;> rw [hw]
  · exact h.raise_busyAccess (off := 0) (by decide)
  · exact h
  · exact h.raise fun _ => .inr (.inl ⟨rfl, rfl, hc⟩)
  · exact h.raise fun _ => .inr (.inr (.inl ⟨rfl, rfl, hc⟩))
  · exact h.accept hc

theorem State.Inv.clearDone (h : s.Inv) : s.clearDone.Inv :=
  ⟨h.cmdAccepted, h.flightIsCmd, h.latchedHolds, fun _ => rfl, h.record⟩

theorem State.Inv.clearError (h : s.Inv) : s.clearError.Inv :=
  ⟨h.cmdAccepted, h.flightIsCmd, h.latchedHolds, h.busyOrDone, .inl ⟨rfl, rfl, rfl⟩⟩

theorem State.Inv.writeStatus (h : s.Inv) (w : Word32) : (s.writeStatus w).Inv := by
  unfold State.writeStatus
  cases w.getLsbD 1 <;> cases w.getLsbD 2
  · exact h
  · exact h.clearError
  · exact h.clearDone
  · exact h.clearDone.clearError

/-- With no command in flight, the contents, DONE and `CMD` as it was are unconstrained. -/
theorem State.Inv.of_idle (h : s.Inv) (d : Data) (done : Bool) :
    State.Inv { s with data := d, done := done, inFlight := none } :=
  ⟨h.cmdAccepted, nofun, nofun, nofun, h.record⟩

theorem State.Inv.setData (h : s.Inv) (hb : s.busy = false) (d : Data) : State.Inv { s with data := d } := by
  have hidle := h.of_idle d s.done
  rwa [← (State.busy_eq_false_iff s).mp hb] at hidle

theorem State.Inv.resetEvent (s : State) : s.resetEvent.Inv := ⟨.inl rfl, nofun, nofun, nofun, .inl ⟨rfl, rfl, rfl⟩⟩

theorem State.Inv.engineStep {t : State} (h : s.Inv) (ht : engineStep s = .next t) : t.Inv := by
  obtain ⟨-, rfl⟩ | ⟨l, -, rfl⟩ := engineStep_cases ht
  · exact h
  · exact h.of_idle _ true

theorem State.Inv.accessEffect {t : State} {a : Action} (h : s.Inv) (ht : AccessEffect s a t) : t.Inv := by
  cases ht with
  | readRefused hb hoff => exact (h.raise_busyAccess hoff).reply 0
  | replied v => exact h.reply v
  | writeRefused hb hoff => exact h.raise_busyAccess hoff
  | cmdWritten v => exact h.writeCmd _
  | statusWritten v => exact h.writeStatus _
  | stored hb d => exact h.setData hb d
  | ignored => exact h

end Inv

/-- Settles O41: the engine's step, a reset, and every effect of an access keep the invariant. -/
theorem stepKeepsInvariant : Obligations.StepKeepsInvariant := by
  intro s t h hstep
  obtain ⟨-, he⟩ | ⟨rest, -, he⟩ | ⟨rest, -, rfl⟩ | ⟨a, rest, -, -, he⟩ := step_cases hstep
  · exact h.engineStep he
  · exact (h.setPending rest).engineStep he
  · exact .resetEvent _
  · exact (h.setPending rest).accessEffect he

/-- Settles O40: after reset no command is in flight and no error is recorded. -/
theorem resetMeetsInvariant : Obligations.ResetMeetsInvariant := .resetEvent .reset

/-! ## Errors and BUSY under an access -/

/-- With an error recorded, a `CMD` write does nothing (R202, R205). -/
theorem State.writeCmd_of_err {s : State} (he : s.err = true) (w : Word32) : s.writeCmd w = s := by
  obtain ⟨-, hw⟩ | ⟨-, -, hw⟩ | ⟨-, he', -⟩ | ⟨-, he', -⟩ | ⟨-, he', -⟩ := writeCmd_cases s w
  · rw [hw, State.raise_later he]
  · exact hw
  all_goals exact absurd (he.symm.trans he') nofun

/-- An access that is no error-clearing write of `STATUS` keeps a recorded error and BUSY (R205). -/
theorem AccessEffect.keeps_error {s t : State} {a : Action} (h : AccessEffect s a t) (he : s.err = true)
    (ha : ∀ v, a = .write 0x004 4 v → v.getLsbD 2 = false) :
    t.err = true ∧ t.errCode = s.errCode ∧ t.errInfo = s.errInfo ∧ t.busy = s.busy := by
  cases h with
  | readRefused hb hoff => rw [State.raise_later he]; exact ⟨he, rfl, rfl, rfl⟩
  | replied v => exact ⟨he, rfl, rfl, rfl⟩
  | writeRefused hb hoff => rw [State.raise_later he]; exact ⟨he, rfl, rfl, rfl⟩
  | cmdWritten v => rw [State.writeCmd_of_err he]; exact ⟨he, rfl, rfl, rfl⟩
  | statusWritten v =>
    have hbit : (v.setWidth 32).getLsbD 2 = false := by rw [BitVec.getLsbD_setWidth, ha v rfl, Bool.and_false]
    rw [State.writeStatus_eq, hbit]
    exact ⟨by rw [he]; rfl, rfl, rfl, rfl⟩
  | stored hb d => exact ⟨he, rfl, rfl, rfl⟩
  | ignored => exact ⟨he, rfl, rfl, rfl⟩

theorem engineStep_keeps_error {s t : State} (h : engineStep s = .next t) :
    t.err = s.err ∧ t.errCode = s.errCode ∧ t.errInfo = s.errInfo ∧ t.busy = false := by
  obtain ⟨hl, rfl⟩ | ⟨l, -, rfl⟩ := engineStep_cases h
  · exact ⟨rfl, rfl, rfl, (State.busy_eq_false_iff t).mpr hl⟩
  · exact ⟨rfl, rfl, rfl, rfl⟩

/-- Settles O5: a completion does not touch the record, and an access keeps it by `AccessEffect.keeps_error`. -/
theorem firstErrorIsKept : Obligations.FirstErrorIsKept := by
  intro s t a rest hp he hreset hstatus hstep
  rw [step_cons hp] at hstep
  obtain rfl | rfl | ha := a.eq_complete_or_eq_reset_or_isAccess
  · obtain ⟨herr, hcode, hinfo, hb⟩ := engineStep_keeps_error hstep
    exact ⟨herr.trans he, hcode, hinfo, fun _ => hb⟩
  · exact absurd rfl hreset
  · obtain ⟨herr, hcode, hinfo, hb⟩ := (perform_effect ha hstep).keeps_error he hstatus
    exact ⟨herr, hcode, hinfo, hb.trans⟩

/-- While BUSY an access changes the error record, DONE and the replies at most (R55). -/
theorem AccessEffect.keeps_command {s t : State} {a : Action} (h : AccessEffect s a t) (hb : s.busy = true) :
    t.data = s.data ∧ t.cmd = s.cmd ∧ t.inFlight = s.inFlight ∧ t.pending = s.pending := by
  cases h with
  | readRefused => simp
  | replied v => simp
  | writeRefused => simp
  | cmdWritten v =>
    have hw : s.writeCmd (v.setWidth 32) = s.raise .busyAccess 0 := if_pos hb
    simp [hw]
  | statusWritten v => simp
  | stored hb' d => exact absurd (hb.symm.trans hb') nofun
  | ignored => simp

/-- Settles O36: by the effect of the access, at the state with the access taken off. -/
theorem nothingChangesWhileBusy : Obligations.NothingChangesWhileBusy := by
  intro s t a rest hb hp ha hstep
  rw [step_cons hp] at hstep
  exact (perform_effect ha hstep).keeps_command hb

end Sys2Proof.Machine
end

section
/-! SUPPORT and PROOFS. The legal accesses of the window (20_memory.md R51, R54, R56), and the reads and writes of its control
registers. -/

namespace Sys2Proof.Machine

open Sys2Proof.Claims

/-! ## The form of an access by the place it reaches -/

section Form

variable {off n : Nat} {p : Place}

theorem bufferAccess_of_locate {k : BReg} {j : Fin 32} (hoff : off = 0x080 + 32 * k.val + j.val)
    (hn : n = 1 ∨ n = 2 ∨ n = 4 ∨ n = 8) (hd : off % n = 0) : BufferAccess off n :=
  ⟨by omega, by omega, hn, Nat.dvd_of_mod_eq_zero hd⟩

theorem limbAccess_of_locate {r : FReg} {j : Fin 5} (hoff : off = 0x400 + 64 * r.val + 8 * j.val) (hn : n = 8) :
    LimbAccess off n :=
  ⟨hn, r.val, j.val, r.isLt, j.isLt, hoff⟩

/-- The rows the model calls reserved are those of R50. -/
theorem reservedAccess_of_inReserved (hn : n = 4 ∨ n = 8) (hd : off % n = 0) (h : inReserved off n = true) :
    ReservedAccess off n := by
  simp only [inReserved, Bool.or_eq_true, Bool.and_eq_true, decide_eq_true_eq] at h
  refine ⟨hn, Nat.dvd_of_mod_eq_zero hd, ?_⟩
  obtain (h | h) | ⟨⟨hlo, hhi⟩, hrow⟩ := h
  · exact .inl h
  · exact .inr (.inl h)
  · have hfit : off + n ≤ 0x400 + 64 * ((off - 0x400) / 64) + 64 := by obtain rfl | rfl := hn <;> omega
    exact .inr (.inr ⟨(off - 0x400) / 64, by omega, by omega, hfit⟩)

/-- The places that BUSY guards against reads are those of the data accesses (R55). -/
theorem readGuarded_iff_dataAccess (h : locate off n = some p) : p.readGuarded = true ↔ DataAccess off n := by
  refine ⟨fun hg => ?_, fun hdata => ?_⟩
  · obtain ⟨rfl, -⟩ | ⟨rfl, -⟩ | ⟨rfl, hk⟩ | ⟨rfl, -⟩ | ⟨k, j, rfl, hoff, hn, hd⟩ | ⟨r, j, rfl, hoff, hn⟩ | ⟨rfl, -⟩ :=
      locate_cases h
    · cases hg
    · cases hg
    · exact .inl hk
    · cases hg
    · exact .inr (.inl (bufferAccess_of_locate hoff hn hd))
    · exact .inr (.inr (limbAccess_of_locate hoff hn))
    · cases hg
  · obtain ⟨p', hp', hg⟩ := locate_of_dataAccess hdata
    cases h.symm.trans hp'
    exact hg

theorem guardedWrite_of_writeGuarded (h : locate off n = some p) (hg : p.writeGuarded = true) : GuardedWrite off n := by
  by_cases hr : p.readGuarded = true
  · exact .inl ((readGuarded_iff_dataAccess h).mp hr)
  · have herr : p = .errInfo := by cases p <;> simp_all [Place.readGuarded, Place.writeGuarded]
    subst herr
    have hform : off = 0x010 ∧ n = 4 := by simpa using locate_cases h
    exact .inr ⟨hform.2, .inr hform.1⟩

/-- An access reaches a place exactly when its form is one of R51 and R54. -/
theorem locate_isSome_iff_legalAccess : (∃ p, locate off n = some p) ↔ LegalAccess off n := by
  constructor
  · rintro ⟨p, hp⟩
    by_cases hr : p.readGuarded = true
    · exact .inr (.inl ((readGuarded_iff_dataAccess hp).mp hr))
    obtain ⟨-, hoff, hn⟩ | ⟨-, hoff, hn⟩ | ⟨rfl, -⟩ | ⟨-, hoff, hn⟩ | ⟨k, j, rfl, -⟩ | ⟨r, j, rfl, -⟩ | ⟨-, hn, hd, hin⟩ :=
      locate_cases hp
    · exact .inl ⟨hn, .inl hoff⟩
    · exact .inl ⟨hn, .inr (.inl hoff)⟩
    · exact absurd rfl hr
    · exact .inl ⟨hn, .inr (.inr hoff)⟩
    · exact absurd rfl hr
    · exact absurd rfl hr
    · exact .inr (.inr (reservedAccess_of_inReserved hn hd hin))
  · rintro (⟨rfl, rfl | rfl | rfl⟩ | hdata | hreserved)
    · exact ⟨.cmd, rfl⟩
    · exact ⟨.status, rfl⟩
    · exact ⟨.errInfo, rfl⟩
    · obtain ⟨p, hp, -⟩ := locate_of_dataAccess hdata
      exact ⟨p, hp⟩
    · exact ⟨_, locate_of_reservedAccess hreserved⟩

theorem locate_eq_none_of_not_legalAccess (h : ¬ LegalAccess off n) : locate off n = none :=
  Option.eq_none_iff_forall_ne_some.mpr fun p hp => h (locate_isSome_iff_legalAccess.mp ⟨p, hp⟩)

end Form

/-! ## Performed or refused by name (R51, 60_exceptions.md R200) -/

section Performed

variable {off n : Nat} (s : State)

theorem hostRead_of_legalAccess (h : LegalAccess off n) : ∃ t, hostRead off n s = .next t := by
  obtain ⟨p, hp⟩ := locate_isSome_iff_legalAccess.mpr h
  cases hg : s.busy && p.readGuarded with
  | true => exact ⟨_, hostRead_guarded hp hg⟩
  | false => exact ⟨_, hostRead_open hp hg⟩

theorem hostWrite_of_legalAccess (h : LegalAccess off n) (v : Limb) : ∃ t, hostWrite off n v s = .next t := by
  obtain ⟨p, hp⟩ := locate_isSome_iff_legalAccess.mpr h
  cases hg : s.busy && p.writeGuarded with
  | true => exact ⟨_, hostWrite_guarded hp hg v⟩
  | false => exact ⟨_, hostWrite_open hp hg v⟩

theorem exec_next (i : Instr) : ∃ t, exec i s = .next t := by
  cases h : s.inFlight with
  | none => exact ⟨_, exec_idle h i⟩
  | some l => exact ⟨_, exec_busy h i⟩

theorem engineStep_next : ∃ t, engineStep s = .next t := by
  cases h : s.inFlight with
  | none => exact ⟨_, engineStep_idle h⟩
  | some l => exact ⟨_, engineStep_busy h⟩

end Performed

/-- Settles O29: `locate` answers exactly for the legal forms, and then the access has a next state. -/
theorem legalAccessesOnly : Obligations.LegalAccessesOnly := by
  intro s off n rest
  refine ⟨fun hp => ⟨fun hl => ?_, fun hl => ?_⟩, fun v hp => ⟨fun hl => ?_, fun hl => ?_⟩⟩ <;> rw [step_cons hp]
  · exact hostRead_of_legalAccess _ hl
  · exact hostRead_illegal (locate_eq_none_of_not_legalAccess hl) _
  · exact hostWrite_of_legalAccess _ hl v
  · exact hostWrite_illegal (locate_eq_none_of_not_legalAccess hl) v _

/-- Settles O11: a completion always has a next state, and so has every event but an access of an illegal form. -/
theorem nothingFails : Obligations.NothingFails := by
  refine ⟨fun i s => exec_next s i, fun s => ?_⟩
  cases hp : s.pending with
  | nil => rw [step_nil hp]; exact .inl (engineStep_next s)
  | cons a rest =>
    cases a with
    | read off n =>
      obtain ⟨hread, -⟩ := legalAccessesOnly s off n rest
      obtain ⟨hlegal, hillegal⟩ := hread hp
      by_cases hl : LegalAccess off n
      · exact .inl (hlegal hl)
      · exact .inr ⟨off, n, rest, hl, .inl rfl, hillegal hl⟩
    | write off n v =>
      obtain ⟨-, hwrite⟩ := legalAccessesOnly s off n rest
      obtain ⟨hlegal, hillegal⟩ := hwrite v hp
      by_cases hl : LegalAccess off n
      · exact .inl (hlegal hl)
      · exact .inr ⟨off, n, rest, hl, .inr ⟨v, rfl⟩, hillegal hl⟩
    | complete => rw [step_cons hp]; exact .inl (engineStep_next _)
    | reset => exact .inl ⟨_, step_reset hp⟩

/-! ## Side effects of an access (R56) -/

/-- A write of any place but `CMD` and `STATUS` stores its data there and does nothing else. -/
theorem poke_eq_stored {p : Place} (hc : p ≠ .cmd) (hs : p ≠ .status) (s : State) (n : Nat) (v : Limb) :
    s.poke n v p = { s with data := stored s.data n v p } := by
  cases p with
  | cmd => exact absurd rfl hc
  | status => exact absurd rfl hs
  | k | errInfo | buffer k j | limb r j | reserved => rfl

/-- Settles O37: an access that R55 does not refuse is open at its place, and reads or stores there. -/
theorem accessSideEffects : Obligations.AccessSideEffects := by
  intro s off n p rest hp
  refine ⟨fun hopen h => step_read_open h hp ?_, fun v hcmd hstatus hopen h => ?_⟩
  · rw [Bool.eq_false_iff, ne_eq, Bool.and_eq_true, readGuarded_iff_dataAccess hp]
    exact hopen
  · have hguard : (s.busy && p.writeGuarded) = false := by
      rw [Bool.eq_false_iff, ne_eq, Bool.and_eq_true]
      exact fun ⟨hb, hg⟩ => hopen ⟨hb, guardedWrite_of_writeGuarded hp hg⟩
    have hc : p ≠ .cmd := by rintro rfl; exact hcmd (locate_eq_cmd hp).1
    have hs : p ≠ .status := by rintro rfl; exact hstatus (locate_eq_status hp).1
    rw [step_write_open h hp hguard, poke_eq_stored hc hs]

/-! ## The control registers (10_state.md R24 to R27) -/

/-- Settles O33: each register is the place its access reaches; `K` and a write of `ERRINFO` are open while BUSY = 0. -/
theorem controlRegisterAccess : Obligations.ControlRegisterAccess := by
  intro s rest
  have hopen (g : Bool) (hb : s.busy = false) : (s.busy && g) = false := by rw [hb, Bool.false_and]
  exact ⟨fun h => step_read_open (p := .cmd) h rfl (Bool.and_false _),
    fun h => step_read_open (p := .errInfo) h rfl (Bool.and_false _),
    fun v hb h => step_write_open (p := .errInfo) h rfl (hopen _ hb),
    fun hb h => step_read_open (p := .k) h rfl (hopen _ hb),
    fun v hb h => step_write_open (p := .k) h rfl (hopen _ hb)⟩

/-- A word put above another stands at the weight of the lower one's width. -/
theorem append_toNat {m n : Nat} (x : BitVec m) (y : BitVec n) : (x ++ y).toNat = x.toNat * 2 ^ n + y.toNat := by
  rw [BitVec.toNat_append, ← Nat.shiftLeft_add_eq_or_of_lt y.isLt, Nat.shiftLeft_eq]

/-- The bits of `STATUS` at their weights (R26). -/
theorem statusWord_toNat (s : State) :
    s.statusWord.toNat = s.busy.toNat + 2 * s.done.toNat + 4 * s.err.toNat + 16 * s.errCode.toNat := by
  simp only [State.statusWord, append_toNat, BitVec.toNat_ofBool, BitVec.toNat_ofNat]
  omega

/-- Settles O34: the read of `STATUS` is open, BUSY or not, and its bits stand at their weights. -/
theorem statusReadLayout : Obligations.StatusReadLayout := by
  intro s rest h
  refine ⟨_, step_read_open (p := .status) h rfl (Bool.and_false _), ?_⟩
  rw [State.peek, BitVec.toNat_setWidth, Nat.mod_eq_of_lt (s.statusWord.isLt.trans (by decide)), statusWord_toNat]

/-- Settles O39: `STATUS` and the engine after the reset event. -/
theorem resetAbandonsCommand : Obligations.ResetAbandonsCommand := by
  intro s rest h
  exact ⟨_, step_reset h, rfl, rfl, State.reset_statusWord, rfl, rfl, rfl, rfl, engineStep_idle rfl⟩

end Sys2Proof.Machine
end

section
/-! SUPPORT and PROOFS. The engine (60_exceptions.md R200, R209, R212): which command a step completes, what a completion
leaves of the contents, and what its results depend on. -/

namespace Sys2Proof.Machine

open Sys2Proof.Claims

/-! ## The command a step completes -/

theorem engineStep_eq_exec {s : State} {l : InFlight} (h : s.inFlight = some l) : engineStep s = exec l.instr s := by
  rw [engineStep, h]

/-- Settles O7: with no event left, and at a completion event, a step is the engine's. -/
theorem stepRunsCommandInFlight : Obligations.StepRunsCommandInFlight := by
  intro s l h
  exact ⟨fun rest hp => (step_cons hp).trans (engineStep_eq_exec (s := { s with pending := rest }) h),
    fun hp => (step_nil hp).trans (engineStep_eq_exec h)⟩

theorem decodeTableWord_eq_some {nbits w : Nat} {i : Instr} (h : decodeTableWord nbits w = some i) :
    decode (tableWord nbits w) = .command i := by
  unfold decodeTableWord at h
  cases hd : decode (tableWord nbits w) <;> simp_all

/-- Settles O8: a word of a command that R85 admits is accepted, and its completion is the first event. -/
theorem placedWordRunsNext : Obligations.PlacedWordRunsNext := by
  intro s nbits w i hdecode hwf
  have hc : classify (tableWord nbits w) = .command i := classify_command.mpr ⟨decodeTableWord_eq_some hdecode, hwf⟩
  have hplaced : s.withFetchWord nbits w
      = { s.accept (tableWord nbits w) i with pending := .complete :: s.pending } := by
    rw [State.withFetchWord, hc]
  rw [hplaced]
  exact (stepRunsCommandInFlight _ ⟨i, s.data⟩ rfl).1 s.pending rfl

/-- Settles O9: an idle engine has nothing to complete. -/
theorem idleEngineDoesNothing : Obligations.IdleEngineDoesNothing := by
  intro s hb
  have hidle := (State.busy_eq_false_iff s).mp hb
  exact ⟨exec_idle hidle, fun hp => (step_nil hp).trans (engineStep_idle hidle),
    fun rest hp => (step_cons hp).trans (engineStep_idle (s := { s with pending := rest }) hidle)⟩

/-! ## The frame of a completion (R209) -/

section Writes

variable (i : Instr) {o o' d d' : Data}

@[simp] theorem writes_k : (writes i o d).k = d.k := by cases i <;> rfl

/-- A command leaves every field register that is no destination. -/
theorem getF_writes_of_not_mem {r : FReg} (h : r ∉ regDests i) : (writes i o d).getF r = d.getF r := by
  cases i <;> simp only [regDests, List.mem_cons, List.not_mem_nil, or_false, not_or] at h <;>
    simp [writes, Data.getF_setF, h]

/-- A command leaves every buffer that is no destination. -/
theorem getB_writes_of_not_mem {k : BReg} (h : k ∉ bufDests i) : (writes i o d).getB k = d.getB k := by
  cases i <;> simp only [bufDests, List.mem_cons, List.not_mem_nil, or_false] at h <;>
    simp [writes, Data.getB_setB, h]

/-- What a command writes is a function of its sources among the latched contents. -/
theorem writes_congr (hf : ∀ r ∈ regSources i, o.getF r = o'.getF r) (hb : ∀ k ∈ bufSources i, o.getB k = o'.getB k)
    (hk : readsK i = true → o.k = o'.k) : writes i o = writes i o' := by
  cases i <;>
    simp only [regSources, bufSources, readsK, List.forall_mem_cons, forall_const] at hf hb hk <;>
    simp [writes, hf, hb, hk]

/-- A destination holds the result, whatever stood there. -/
theorem getF_writes_of_mem {r : FReg} (h : r ∈ regDests i) : (writes i o d).getF r = (writes i o d').getF r := by
  cases i <;> simp only [regDests, List.mem_cons, List.not_mem_nil, or_false] at h <;>
    simp only [writes, Data.getF_setF]
  case cswap | ladder => obtain rfl | rfl := h <;> simp only [if_true]
  case lstep => obtain rfl | rfl | rfl | rfl := h <;> simp only [if_true]
  all_goals rw [if_pos h, if_pos h]

theorem getB_writes_of_mem {k : BReg} (h : k ∈ bufDests i) : (writes i o d).getB k = (writes i o d').getB k := by
  cases i <;> simp only [bufDests, List.mem_cons, List.not_mem_nil, or_false] at h <;>
    simp only [h, writes, Data.getB_setB_self]

end Writes

/-- Settles O10: the destinations are the only contents that `writes` changes. -/
theorem completionFrame : Obligations.CompletionFrame := by
  intro i s l h
  refine ⟨_, exec_busy h i, ⟨rfl, rfl, rfl, rfl, rfl, rfl, writes_k i, rfl, rfl⟩, fun r hr j => ?_, fun k hk j => ?_⟩
  · exact congrArg (FE.limb · j) (getF_writes_of_not_mem i hr)
  · exact congrArg (byteAt · j) (getB_writes_of_not_mem i hk)

/-- Settles O12: `writes` reads the sources of the latched contents, and the destinations keep nothing of what they held. -/
theorem resultDependsOnOperandsOnly : Obligations.ResultDependsOnOperandsOnly := by
  intro i s s' l l' h h' hf hb hk
  refine ⟨_, _, exec_busy h i, exec_busy h' i, fun r hr => ?_, fun k hk' => ?_⟩ <;>
    rw [writes_congr i hf hb hk]
  · exact getF_writes_of_mem i hr
  · exact getB_writes_of_mem i hk'

end Sys2Proof.Machine
end

section
/-! SUPPORT and PROOFS. Runs of several steps: progress (70_reset_and_hazards.md R238), the accesses between acceptance and
completion (20_memory.md R57), and commands issued one after the other (30_encoding.md R88). -/

namespace Sys2Proof.Machine

open Sys2Proof.Claims

/-! ## Runs -/

section Run

variable {M : Host.Core} {s t : M.State} {m : Nat}

theorem run_succ (h : M.step s = .next t) (k : Nat) : M.run (k + 1) s = M.run k t := by
  rw [Host.Core.run, h]

/-- A run goes on from where a shorter one ends. -/
theorem run_add (h : M.run m s = .next t) (n : Nat) : M.run (m + n) s = M.run n t := by
  induction m generalizing s with
  | zero => cases h; rw [Nat.zero_add]
  | succ m ih =>
    rw [Host.Core.run] at h
    cases hs : M.step s with
    | next u => rw [hs] at h; rw [Nat.succ_add, run_succ hs, ih h]
    | fault r => rw [hs] at h; cases h
    | refused r => rw [hs] at h; cases h

end Run

theorem core_run_succ {s t : State} (h : step s = .next t) (k : Nat) :
    Sys2Proof.core.run (k + 1) s = Sys2Proof.core.run k t := run_succ (M := Sys2Proof.core) h k

theorem core_run_add {m : Nat} {s t : State} (h : Sys2Proof.core.run m s = .next t) (n : Nat) :
    Sys2Proof.core.run (m + n) s = Sys2Proof.core.run n t := run_add (M := Sys2Proof.core) h n

/-! ## Every event is taken off (R238, R240) -/

theorem AccessEffect.pending {s t : State} {a : Action} (h : AccessEffect s a t) : t.pending = s.pending := by
  cases h <;> simp

theorem perform_pending {a : Action} {s t : State} (h : perform a s = .next t) : t.pending = s.pending := by
  obtain rfl | rfl | ha := a.eq_complete_or_eq_reset_or_isAccess
  · obtain ⟨-, rfl⟩ | ⟨l, -, rfl⟩ := engineStep_cases h
    · rfl
    · rfl
  · cases h; rfl
  · exact (perform_effect ha h).pending

theorem perform_of_legal {a : Action} (ha : a.legal = true) (s : State) : ∃ t, perform a s = .next t := by
  cases a with
  | read off n => exact hostRead_of_legalAccess s (locate_isSome_iff_legalAccess.mp (Option.isSome_iff_exists.mp ha))
  | write off n v => exact hostWrite_of_legalAccess s (locate_isSome_iff_legalAccess.mp (Option.isSome_iff_exists.mp ha)) v
  | complete => exact engineStep_next s
  | reset => exact ⟨_, rfl⟩

/-- A legal event has a next state, with the event taken off. -/
theorem step_of_legal {s : State} {a : Action} {rest : List Action} (hp : s.pending = a :: rest) (ha : a.legal = true) :
    ∃ t, step s = .next t ∧ t.pending = rest := by
  obtain ⟨t, ht⟩ := perform_of_legal ha { s with pending := rest }
  exact ⟨t, (step_cons hp).trans ht, perform_pending ht⟩

/-- The events run out, and then the engine completes what is in flight (R238 (a)). -/
theorem run_pending_quiescent {s : State} (h : s.LegalRun) :
    ∃ t, Sys2Proof.core.run (s.pending.length + 1) s = .next t ∧ t.pending = [] ∧ t.busy = false := by
  induction hp : s.pending generalizing s with
  | nil =>
    obtain ⟨t, ht⟩ := engineStep_next s
    refine ⟨t, core_run_succ ((step_nil hp).trans ht) 0, ?_, (engineStep_keeps_error ht).2.2.2⟩
    exact (perform_pending (a := .complete) ht).trans hp
  | cons a rest ih =>
    rw [State.LegalRun, hp, List.forall_mem_cons] at h
    obtain ⟨ha, hrest⟩ := h
    obtain ⟨u, hu, hpu⟩ := step_of_legal hp ha
    obtain ⟨t, ht, hend⟩ := ih (s := u) (by rwa [State.LegalRun, hpu]) hpu
    exact ⟨t, (core_run_succ hu _).trans ht, hend⟩

/-! ## Accesses while a command is in flight (20_memory.md R55, R57) -/

/-- Legal accesses while BUSY leave the contents, `CMD` and the command in flight. -/
theorem run_accesses_busy {s : State} {mid rest : List Action} (hb : s.busy = true)
    (hmid : ∀ a ∈ mid, a.legal = true ∧ IsAccess a) (hp : s.pending = mid ++ rest) :
    ∃ t, Sys2Proof.core.run mid.length s = .next t ∧
      t.data = s.data ∧ t.cmd = s.cmd ∧ t.inFlight = s.inFlight ∧ t.pending = rest := by
  induction mid generalizing s with
  | nil => exact ⟨s, rfl, rfl, rfl, rfl, hp⟩
  | cons a mid ih =>
    rw [List.forall_mem_cons] at hmid
    obtain ⟨⟨hlegal, haccess⟩, hmid⟩ := hmid
    obtain ⟨u, hu, -⟩ := step_of_legal hp hlegal
    obtain ⟨hdata, hcmd, hfl, hpu⟩ := nothingChangesWhileBusy s u a (mid ++ rest) hb hp haccess hu
    obtain ⟨t, ht, hdata', hcmd', hfl', hpt⟩ := ih ((State.busy_congr hfl).trans hb) hmid hpu
    exact ⟨t, (core_run_succ hu _).trans ht, hdata'.trans hdata, hcmd'.trans hcmd, hfl'.trans hfl, hpt⟩

/-- The events of a run without reset, up to its first completion. -/
theorem exists_accesses_append {l : List Action} (h : ∀ a ∈ l, a ≠ .reset) :
    ∃ mid rest, l = mid ++ rest ∧ (∀ a ∈ mid, IsAccess a) ∧ (rest = [] ∨ ∃ rest', rest = .complete :: rest') := by
  induction l with
  | nil => exact ⟨[], [], rfl, nofun, .inl rfl⟩
  | cons a l ih =>
    rw [List.forall_mem_cons] at h
    obtain ⟨ha, hl⟩ := h
    obtain rfl | rfl | haccess := a.eq_complete_or_eq_reset_or_isAccess
    · exact ⟨[], _, rfl, nofun, .inr ⟨l, rfl⟩⟩
    · exact absurd rfl ha
    · obtain ⟨mid, rest, rfl, hmid, hrest⟩ := ih hl
      exact ⟨a :: mid, rest, rfl, List.forall_mem_cons.mpr ⟨haccess, hmid⟩, hrest⟩

/-- With no event left, or a completion as the next one, a step completes the command in flight. -/
theorem step_completes {s : State} {l : InFlight} (hl : s.inFlight = some l)
    (hp : s.pending = [] ∨ ∃ rest, s.pending = .complete :: rest) :
    ∃ t, step s = .next t ∧ t.data = writes l.instr l.src s.data ∧ t.cmd = s.cmd ∧ t.err = s.err ∧ t.busy = false ∧
      t.done = true ∧ t.pending = s.pending.tail := by
  obtain hp | ⟨rest, hp⟩ := hp
  · exact ⟨_, (step_nil hp).trans (engineStep_busy hl), rfl, rfl, rfl, rfl, rfl, by rw [hp, List.tail_nil, ← hp]⟩
  · exact ⟨_, (step_cons hp).trans (engineStep_busy (s := { s with pending := rest }) hl), rfl, rfl, rfl, rfl, rfl,
      by rw [hp, List.tail_cons]⟩

/-- Settles O42: the events run out by `run_pending_quiescent`; without a reset the accesses before the first completion leave
the command in flight. -/
theorem commandsComplete : Obligations.CommandsComplete := by
  intro s hlegal
  refine ⟨run_pending_quiescent hlegal, fun l hl hreset => ?_⟩
  obtain ⟨mid, rest, hp, hmid, hrest⟩ := exists_accesses_append hreset
  have hmid' : ∀ a ∈ mid, a.legal = true ∧ IsAccess a := fun a ha =>
    ⟨hlegal a (by rw [hp]; exact List.mem_append_left _ ha), hmid a ha⟩
  obtain ⟨u, hu, hdata, -, hfl, hpu⟩ := run_accesses_busy ((State.busy_eq_true_iff s).mpr ⟨l, hl⟩) hmid' hp
  obtain ⟨t, ht, hres, -, -, hb, hdone, -⟩ := step_completes (hfl.trans hl) (hpu ▸ hrest)
  refine ⟨mid.length, u, t, _, ?_, hu, hfl.trans hl, hdata, ?_, exec_busy hl l.instr, by rw [hres, hdata], hb, hdone⟩
  · rw [hp, List.length_append]
    exact Nat.le_add_right _ _
  · exact (core_run_add hu 1).trans (core_run_succ ht 0)

/-- A ready block accepts a command written to `CMD` (R202). -/
theorem step_accept {s : State} {v : Limb} {i : Instr} {rest : List Action} (hb : s.busy = false) (he : s.err = false)
    (hc : classify (v.setWidth 32) = .command i) (hp : s.pending = .write 0x000 4 v :: rest) :
    step s = .next (State.accept { s with pending := rest } (v.setWidth 32) i) :=
  step_cmdWrite hp (State.writeCmd_command hb he hc)

/-- Acceptance, legal accesses, completion: the contents are those the command writes from the ones latched. -/
theorem run_accept_accesses_complete {s : State} {v : Limb} {i : Instr} {mid rest : List Action} (hb : s.busy = false)
    (he : s.err = false) (hc : classify (v.setWidth 32) = .command i) (hmid : ∀ a ∈ mid, a.legal = true ∧ IsAccess a)
    (hp : s.pending = .write 0x000 4 v :: (mid ++ .complete :: rest)) :
    ∃ t, Sys2Proof.core.run (mid.length + 2) s = .next t ∧
      t.data = writes i s.data s.data ∧ t.cmd = v.setWidth 32 ∧ t.busy = false ∧ t.done = true ∧ t.pending = rest := by
  have haccept := step_accept hb he hc hp
  obtain ⟨u, hu, hdata, hcmd, hfl, hpu⟩ := run_accesses_busy (rest := .complete :: rest)
    (State.accept_busy { s with pending := mid ++ .complete :: rest } (v.setWidth 32) i) hmid rfl
  obtain ⟨t, ht, hres, hcmd', -, hbt, hdone, hpt⟩ := step_completes (l := ⟨i, s.data⟩) hfl (.inr ⟨rest, hpu⟩)
  refine ⟨t, ?_, by rw [hres, hdata]; rfl, by rw [hcmd', hcmd]; rfl, hbt, hdone, by rw [hpt, hpu, List.tail_cons]⟩
  calc Sys2Proof.core.run (mid.length + 2) s = Sys2Proof.core.run (mid.length + 1) _ :=
        core_run_succ haccept _
    _ = Sys2Proof.core.run 1 u := core_run_add hu 1
    _ = .next t := core_run_succ ht 0

/-- Settles O43: the contents after completion do not depend on the accesses in between. -/
theorem accessesDoNotDisturbCommand : Obligations.AccessesDoNotDisturbCommand := by
  intro s v i mid rest hb he hc hmid hp
  obtain ⟨t, ht, hdata, hcmd, hbt, hdone, hpt⟩ := run_accept_accesses_complete hb he hc hmid hp
  obtain ⟨u, hu, hdata', -⟩ := run_accept_accesses_complete (mid := []) (rest := [])
    (s := { s with pending := [.write 0x000 4 v, .complete] }) hb he hc nofun rfl
  exact ⟨t, u, ht, hu, hdata.trans hdata'.symm, hcmd, hbt, hdone, hpt⟩

/-! ## Commands issued one after the other (30_encoding.md R88) -/

/-- The contents after commands completed one after the other. -/
def dataAfter (is : List Instr) (d : Data) : Data := is.foldl (fun d i => writes i d d) d

@[simp] theorem dataAfter_nil (d : Data) : dataAfter [] d = d := rfl
@[simp] theorem dataAfter_cons (i : Instr) (is : List Instr) (d : Data) :
    dataAfter (i :: is) d = dataAfter is (writes i d d) := rfl

/-- The first command issued to a ready block is accepted and completed, and leaves the block ready for the next. -/
theorem run_issue_cons {s : State} {i : Instr} {is : List Instr} (hwf : i.wf = true) (hb : s.busy = false)
    (he : s.err = false) (hp : s.pending = issue (i :: is)) :
    ∃ t, Sys2Proof.core.run 2 s = .next t ∧
      t.data = writes i s.data s.data ∧ t.busy = false ∧ t.err = false ∧ t.done = true ∧ t.pending = issue is := by
  have hc : classify (((encode i).setWidth 64).setWidth 32) = .command i := by
    rw [BitVec.setWidth_setWidth_of_le _ (by decide), BitVec.setWidth_eq, classify_encode hwf]
  have haccept := step_accept hb he hc hp
  obtain ⟨t, ht, hdata, -, het, hbt, hdone, hpt⟩ := step_completes (l := ⟨i, s.data⟩)
    (State.accept_inFlight { s with pending := .complete :: issue is } (((encode i).setWidth 64).setWidth 32) i)
    (.inr ⟨issue is, rfl⟩)
  exact ⟨t, (core_run_succ haccept 1).trans (core_run_succ ht 0), hdata, hbt, het.trans he, hdone, hpt⟩

/-- From a ready block the commands issued all complete, and the last one leaves DONE set. -/
theorem run_issue {is : List Instr} (hwf : ∀ i ∈ is, i.wf = true) {s : State} (hb : s.busy = false) (he : s.err = false)
    (hp : s.pending = issue is) :
    ∃ t, Sys2Proof.core.run (2 * is.length) s = .next t ∧ t.data = dataAfter is s.data ∧
      (s.done = true ∨ is ≠ [] → t.done = true) := by
  induction is generalizing s with
  | nil => exact ⟨s, rfl, rfl, fun h => h.elim id (absurd rfl)⟩
  | cons i is ih =>
    rw [List.forall_mem_cons] at hwf
    obtain ⟨hi, his⟩ := hwf
    obtain ⟨u, hu, hdata, hbu, heu, hdone, hpu⟩ := run_issue_cons hi hb he hp
    obtain ⟨t, ht, hres, hdone'⟩ := ih his hbu heu hpu
    refine ⟨t, ?_, by rw [hres, hdata, dataAfter_cons], fun _ => hdone' (.inl hdone)⟩
    rw [List.length_cons, Nat.mul_succ, Nat.add_comm]
    exact (core_run_add hu _).trans ht

/-- `run_issue` from a block whose events are given in place. -/
theorem run_issue_from {is : List Instr} {n : Nat} {s : State} (hwf : ∀ i ∈ is, i.wf = true) (hn : 2 * is.length = n)
    (hne : is ≠ []) (hb : s.busy = false) (he : s.err = false) :
    ∃ t, Sys2Proof.core.run n { s with pending := issue is } = .next t ∧ t.data = dataAfter is s.data ∧ t.done = true := by
  obtain ⟨t, ht, hdata, hdone⟩ := run_issue hwf (s := { s with pending := issue is }) hb he rfl
  exact ⟨t, hn ▸ ht, hdata, hdone (.inr hne)⟩

/-- The six primitives leave in `B[a]` the stages of R182, one after the other. -/
theorem getB_dataAfter_primitives {a b c k : BReg} {q x z i m : FReg} (hkc : k ≠ c) (hxz : x ≠ z) (hix : i ≠ x) (s : Data) :
    (dataAfter [.clamp k b, .decode q c, .ladder x z k q, .invert i z, .fmul m x i, .encode a m] s).getB a =
      scalarMult (s.getB b) (s.getB c) := by
  rw [scalarMult_eq]
  simp only [dataAfter_cons, dataAfter_nil, writes]
  -- What the ladder computes plays no part; left in place, the kernel would unfold its 256 iterations.
  generalize ladder = L
  simp only [Data.getB_setB_self, Data.getF_setF_self, Data.getB_setF,
    Data.getF_setF_ne _ hxz, Data.getF_setF_ne _ hix.symm, Data.getB_setB_ne _ hkc.symm]

/-- Settles O56: both sequences complete, by `run_issue_from`, with the stages of R182 in `B[a]`. -/
theorem smultByPrimitives : Obligations.SmultByPrimitives := by
  intro a b c k q x z i m s hkc hxz hix hb he
  have hwf : ∀ j ∈ [Instr.clamp k b, .decode q c, .ladder x z k q, .invert i z, .fmul m x i, .encode a m], j.wf = true := by
    simp [Instr.wf, hxz]
  obtain ⟨t, ht, hdata, hdone⟩ := run_issue_from hwf (n := 12) rfl nofun hb he
  obtain ⟨u, hu, hdata', hdone'⟩ := run_issue_from (is := [.smult a b c]) (n := 2) (by simp [Instr.wf]) rfl nofun hb he
  refine ⟨t, u, ht, hu, ?_, hdone, hdone'⟩
  rw [hdata, hdata', getB_dataAfter_primitives hkc hxz hix, dataAfter_cons, dataAfter_nil, writes, Data.getB_setB_self]

end Sys2Proof.Machine
end

section
/-! SUPPORT and PROOFS. The ladder driven by the host (45_toplevel.md section 3): the loop of CSWAP and LSTEP computes the loop
of R152. -/

namespace Sys2Proof.Machine

open Sys2Proof.Claims

theorem dataAfter_append (is js : List Instr) (d : Data) : dataAfter (is ++ js) d = dataAfter js (dataAfter is d) :=
  List.foldl_append

/-- A bit read into a one-bit flag and back is the bit. -/
theorem setWidth_scalarBit (n : Bytes32) (i : Nat) : ((scalarBit n i).setWidth 1).setWidth 64 = scalarBit n i := by
  have hone : (1 : Byte).toNat = 2 ^ 1 - 1 := rfl
  have hbit : (scalarBit n i).toNat < 2 := by
    rw [scalarBit, BitVec.toNat_setWidth, BitVec.toNat_and, hone, Nat.and_two_pow_sub_one_eq_mod]
    omega
  apply BitVec.eq_of_toNat_eq
  rw [BitVec.toNat_setWidth, BitVec.toNat_setWidth]
  omega

/-- The pairs in four field registers. -/
def pairsAt (a b c d : FReg) (s : Data) : Pairs := ⟨s.getF a, s.getF b, s.getF c, s.getF d⟩

/-- One iteration of the host's loop. -/
def hostIteration (a b c d e : FReg) (flag : BitVec 1) : List Instr :=
  [.cswap a c flag, .cswap b d flag, .lstep a b c d e]

theorem hostLadder_succ (a b c d e : FReg) (n : Bytes32) (k : Nat) (last : BitVec 1) :
    hostLadder a b c d e n (k + 1) last =
      hostIteration a b c d e ((scalarBit n k).setWidth 1 ^^^ last) ++
        hostLadder a b c d e n k ((scalarBit n k).setWidth 1) := rfl

theorem length_hostLadder (a b c d e : FReg) (n : Bytes32) (k : Nat) (last : BitVec 1) :
    (hostLadder a b c d e n k last).length = 3 * k + 2 := by
  induction k generalizing last with
  | zero => rfl
  | succ k ih =>
    rw [hostLadder_succ, List.length_append, ih, hostIteration]
    simp only [List.length_cons, List.length_nil]
    omega

section HostLadder

variable {a b c d e : FReg} (hdistinct : [a, b, c, d, e].Nodup)
include hdistinct

theorem wf_hostLadder (n : Bytes32) (k : Nat) (last : BitVec 1) : ∀ i ∈ hostLadder a b c d e n k last, i.wf = true := by
  have hstep : (Instr.lstep a b c d e).wf = true := by
    rw [wf_lstep_iff]
    simp only [List.nodup_cons, List.mem_cons, List.not_mem_nil, or_false, not_or] at hdistinct
    obtain ⟨⟨hab, hac, had, -⟩, ⟨hbc, hbd, -⟩, ⟨hcd, -⟩, -⟩ := hdistinct
    exact ⟨hab, hac, had, hbc, hbd, hcd⟩
  induction k generalizing last with
  | zero => simp [hostLadder, Instr.wf]
  | succ k ih =>
    rw [hostLadder_succ, List.forall_mem_append]
    exact ⟨List.forall_mem_cons.mpr ⟨rfl, List.forall_mem_cons.mpr ⟨rfl, List.forall_mem_singleton.mpr hstep⟩⟩, ih _⟩

/-- Two CSWAPs swap the pairs, and keep the fifth register. -/
theorem dataAfter_two_cswaps (flag : BitVec 1) (s : Data) :
    pairsAt a b c d (dataAfter [.cswap a c flag, .cswap b d flag] s) = swapPairs (pairsAt a b c d s) (flag.setWidth 64) ∧
    (dataAfter [.cswap a c flag, .cswap b d flag] s).getF e = s.getF e := by
  simp only [List.nodup_cons, List.mem_cons, List.not_mem_nil, or_false, not_or] at hdistinct
  obtain ⟨⟨hab, hac, had, hae⟩, ⟨hbc, hbd, hbe⟩, ⟨hcd, hce⟩, hde, -⟩ := hdistinct
  simp [pairsAt, swapPairs, writes, Data.getF_setF, hab, hac, had, hbc, hbd, hcd, Ne.symm hab, Ne.symm hbc, Ne.symm hcd,
    Ne.symm had, Ne.symm hae, Ne.symm hbe, Ne.symm hce, Ne.symm hde]

/-- LSTEP does the ladder step on the pairs, and keeps the fifth register. -/
theorem writes_lstep (s : Data) :
    pairsAt a b c d (writes (.lstep a b c d e) s s) = ladderStep (pairsAt a b c d s) (s.getF e) ∧
    (writes (.lstep a b c d e) s s).getF e = s.getF e := by
  simp only [List.nodup_cons, List.mem_cons, List.not_mem_nil, or_false, not_or] at hdistinct
  obtain ⟨⟨hab, hac, had, hae⟩, ⟨hbc, hbd, hbe⟩, ⟨hcd, hce⟩, hde, -⟩ := hdistinct
  simp [pairsAt, writes, Data.getF_setF, hab, hac, had, hbc, hbd, hcd, Ne.symm hae, Ne.symm hbe, Ne.symm hce, Ne.symm hde]

theorem dataAfter_hostIteration (flag : BitVec 1) (s : Data) :
    pairsAt a b c d (dataAfter (hostIteration a b c d e flag) s) =
      ladderStep (swapPairs (pairsAt a b c d s) (flag.setWidth 64)) (s.getF e) ∧
    (dataAfter (hostIteration a b c d e flag) s).getF e = s.getF e := by
  obtain ⟨hswap, he⟩ := dataAfter_two_cswaps hdistinct flag s
  obtain ⟨hstep, he'⟩ := writes_lstep hdistinct (dataAfter [.cswap a c flag, .cswap b d flag] s)
  rw [← hswap, ← he]
  exact ⟨hstep, he'⟩

/-- From iteration `k` on, the host's loop leaves the pairs that the loop of R152 and its final swap leave. -/
theorem pairsAt_dataAfter_hostLadder (n : Bytes32) (k : Nat) (last : BitVec 1) (s : Data) {l : LoopState}
    (hl : l = ladderLoop n (s.getF e) k ⟨pairsAt a b c d s, last.setWidth 64⟩) :
    pairsAt a b c d (dataAfter (hostLadder a b c d e n k last) s) = swapPairs l.pairs l.lastbit := by
  induction k generalizing last s with
  | zero =>
    subst hl
    exact (dataAfter_two_cswaps hdistinct last s).1
  | succ k ih =>
    obtain ⟨hpairs, he⟩ := dataAfter_hostIteration hdistinct ((scalarBit n k).setWidth 1 ^^^ last) s
    rw [hostLadder_succ, dataAfter_append]
    refine ih _ _ (hl.trans ?_)
    rw [hpairs, he, BitVec.setWidth_xor, setWidth_scalarBit, ladderLoop, ladderIteration]

end HostLadder

/-- Settles O59: the host's loop, from the registers that hold the start of R152, against the ladder on the same scalar. -/
theorem ladderByHostLoop : Obligations.LadderByHostLoop := by
  intro a b c d e k s hdistinct hb he ha hbz hc hd
  have hab : a ≠ b := by rintro rfl; simp at hdistinct
  obtain ⟨t, ht, hdata, hdone⟩ := run_issue_from (wf_hostLadder hdistinct (s.data.getB k) 256 0) (n := 1540)
    (by rw [length_hostLadder]) (by rw [← List.length_pos_iff, length_hostLadder]; omega) hb he
  obtain ⟨u, hu, hdata', hdone'⟩ := run_issue_from (is := [.ladder a b k e]) (n := 2)
    (by simp [wf_ladder_iff, hab]) rfl nofun hb he
  have hpairs := pairsAt_dataAfter_hostLadder hdistinct (s.data.getB k) 256 0 s.data rfl
  have hstart : (⟨pairsAt a b c d s.data, (0 : BitVec 1).setWidth 64⟩ : LoopState) = ladderStart (s.data.getF e) := by
    rw [pairsAt, ha, hbz, hc, hd]
    rfl
  rw [hstart, ← hdata] at hpairs
  refine ⟨t, u, ht, hu, ?_, ?_, hdone, hdone'⟩
  · have hx := congrArg Pairs.x hpairs
    rw [hdata', dataAfter_cons, dataAfter_nil, writes, Data.getF_setF_ne _ hab, Data.getF_setF_self]
    exact hx
  · have hz := congrArg Pairs.z hpairs
    rw [hdata', dataAfter_cons, dataAfter_nil, writes, Data.getF_setF_self]
    exact hz

end Sys2Proof.Machine
end

section
/-! SUPPORT and PROOFS. The internal step sequences (70_reset_and_hazards.md R237, R239): what each part of them leaves in the
cells, and how many operations it performs. -/

namespace Sys2Proof.Machine

open Sys2Proof.Claims

/-! ## Internal steps

The equations are proved by `(rfl)`, in parentheses, so that `simp` uses them as rewriting steps; as definitional ones they
would leave it to the kernel to run a whole sequence again. -/

theorem microRun_append (p q : List MicroOp) (s : Scratch) : microRun (p ++ q) s = microRun q (microRun p s) :=
  List.foldl_append

section Cells

variable (s : Scratch) (c c' a b : Cell) (v : FE)

theorem microRun_nil : microRun [] s = s := (rfl)
theorem microRun_cons (op : MicroOp) (p : List MicroOp) : microRun (op :: p) s = microRun p (microStep s op) := (rfl)

theorem Scratch.set_f : (s.set c v).f c' = if c' = c then v else s.f c' := (rfl)
theorem Scratch.set_scalar : (s.set c v).scalar = s.scalar := (rfl)
theorem Scratch.set_lastbit : (s.set c v).lastbit = s.lastbit := (rfl)
theorem Scratch.set_sel : (s.set c v).sel = s.sel := (rfl)

theorem microStep_copy : microStep s (.copy c a) = s.set c (s.f a) := (rfl)
theorem microStep_add : microStep s (.add c a b) = s.set c (feAdd (s.f a) (s.f b)) := (rfl)
theorem microStep_diff : microStep s (.diff c a b) = s.set c (feDifference (s.f a) (s.f b)) := (rfl)
theorem microStep_mul : microStep s (.mul c a b) = s.set c (feMultiply (s.f a) (s.f b)) := (rfl)
theorem microStep_sqr : microStep s (.sqr c a) = s.set c (feSquare (s.f a)) := (rfl)
theorem microStep_smaA24 : microStep s (.smaA24 c a b) = s.set c (feScalarMultiplyAdd (s.f a) a24 (s.f b)) := (rfl)
theorem microStep_swap :
    microStep s (.swap a b) = (s.set a (feSwap (s.f a) (s.f b) s.sel).1).set b (feSwap (s.f a) (s.f b) s.sel).2 := (rfl)

theorem Scratch.set_set (u : FE) : (s.set c u).set c v = s.set c v := by
  have hf : ((s.set c u).set c v).f = (s.set c v).f := by
    funext c'
    by_cases h : c' = c
    · simp only [Scratch.set_f, if_pos h]
    · simp only [Scratch.set_f, if_neg h]
  exact congrArg (fun f => { s with f := f }) hf

/-- The pairs in the cells of the ladder (R152). -/
def Scratch.pairs : Pairs := ⟨s.f .x, s.f .z, s.f .xp, s.f .zp⟩

/-- What the ladder's loop carries, in its cells (R152). -/
def Scratch.loop : LoopState := ⟨s.pairs, s.lastbit⟩

end Cells

/-! ## The ladder (R150, R152) -/

/-- `t` still holds the scalar and the point of `s`, which the ladder only reads. -/
def Scratch.SameInputs (s t : Scratch) : Prop := t.scalar = s.scalar ∧ t.f .q = s.f .q

/-- The twenty lines of the step compute `LadderStep` on the cells of the pairs. -/
theorem microRun_stepProgram (s : Scratch) :
    (microRun stepProgram s).pairs = ladderStep s.pairs (s.f .q) ∧ s.SameInputs (microRun stepProgram s) ∧
    (microRun stepProgram s).lastbit = s.lastbit := by
  simp only [stepProgram, microRun_cons, microRun_nil, microStep_copy, microStep_add, microStep_diff, microStep_mul,
    microStep_sqr, microStep_smaA24]
  refine ⟨?pairs, ⟨?_, ?_⟩, ?_⟩
  case pairs =>
    simp only [Scratch.set_f, Scratch.pairs, reduceCtorEq, if_true, if_false, ladderStep, stepXxprime, stepZzprime, stepDiff]
  all_goals simp only [Scratch.set_f, Scratch.set_scalar, Scratch.set_lastbit, reduceCtorEq, if_false]

/-- The two swaps exchange the pairs by the selector. -/
theorem microRun_swapProgram (s : Scratch) :
    (microRun swapProgram s).pairs = swapPairs s.pairs s.sel ∧ s.SameInputs (microRun swapProgram s) ∧
    (microRun swapProgram s).lastbit = s.lastbit := by
  simp only [swapProgram, microRun_cons, microRun_nil, microStep_swap]
  refine ⟨?pairs, ⟨?_, ?_⟩, ?_⟩
  case pairs => simp only [Scratch.set_f, Scratch.set_sel, Scratch.pairs, swapPairs, reduceCtorEq, if_true, if_false]
  all_goals simp only [Scratch.set_f, Scratch.set_scalar, Scratch.set_lastbit, reduceCtorEq, if_false]

/-- One iteration of the ladder: a bit, the swap, the step. -/
theorem microRun_iteration (s : Scratch) (k : Nat) :
    (microRun (.bit k :: swapProgram ++ stepProgram) s).loop = ladderIteration s.scalar (s.f .q) k s.loop ∧
    s.SameInputs (microRun (.bit k :: swapProgram ++ stepProgram) s) := by
  rw [List.cons_append, microRun_cons, microRun_append]
  obtain ⟨hswap, ⟨hscalar, hq⟩, hlast⟩ := microRun_swapProgram (microStep s (.bit k))
  obtain ⟨hstep, ⟨hscalar', hq'⟩, hlast'⟩ := microRun_stepProgram (microRun swapProgram (microStep s (.bit k)))
  refine ⟨?_, hscalar'.trans hscalar, hq'.trans hq⟩
  rw [Scratch.loop, hstep, hlast', hlast, hswap, hq]
  rfl

/-- The sequence of the loop computes the loop. -/
theorem microRun_loopProgram (s : Scratch) (k : Nat) :
    (microRun (loopProgram k) s).loop = ladderLoop s.scalar (s.f .q) k s.loop := by
  induction k generalizing s with
  | zero => rfl
  | succ k ih =>
    obtain ⟨hloop, hscalar, hq⟩ := microRun_iteration s k
    rw [loopProgram, microRun_append, ih, hscalar, hq, hloop, ladderLoop]

theorem microStep_start_loop (s : Scratch) : (microStep s .start).loop = ladderStart (s.f .q) := rfl

theorem microStep_last (s : Scratch) : (microStep s .last).pairs = s.loop.pairs ∧ (microStep s .last).sel = s.loop.lastbit :=
  ⟨rfl, rfl⟩

/-- The sequence of the ladder leaves `Ladder` of its scalar and point in the cells of `nq`. -/
theorem microRun_ladderProgram (s : Scratch) :
    ((microRun ladderProgram s).f .x, (microRun ladderProgram s).f .z) = ladder s.scalar (s.f .q) := by
  have hloop := microRun_loopProgram (microStep s .start) 256
  obtain ⟨hpairs, hsel⟩ := microStep_last (microRun (loopProgram 256) (microStep s .start))
  obtain ⟨hswap, -, -⟩ := microRun_swapProgram (microStep (microRun (loopProgram 256) (microStep s .start)) .last)
  rw [hpairs, hsel, hloop, microStep_start_loop] at hswap
  unfold ladderProgram
  simp only [List.cons_append, microRun_cons, microRun_append]
  exact Prod.ext (congrArg Pairs.x hswap) (congrArg Pairs.z hswap)

/-! ## The inversion chain (R170) -/

theorem squareTimes_one (v : FE) : squareTimes 1 v = feSquare v := rfl

/-- Squarings in cell `t` change no other cell. -/
theorem microRun_replicate_sqr (s : Scratch) (k : Nat) (v : FE) :
    microRun (List.replicate k (.sqr .t .t)) (s.set .t v) = s.set .t (squareTimes k v) := by
  induction k generalizing v with
  | zero => rfl
  | succ k ih =>
    rw [List.replicate_succ, microRun_cons, microStep_sqr, Scratch.set_set, Scratch.set_f, if_pos rfl, ih, squareTimes]

/-- Squarings in a row leave their result in cell `t` and change no other. -/
theorem microRun_squaresProgram (s : Scratch) (src : Cell) (k : Nat) :
    microRun (squaresProgram src k) s = s.set .t (squareTimes (k + 1) (s.f src)) := by
  rw [squaresProgram, microRun_cons, microStep_sqr, microRun_replicate_sqr, squareTimes]

/-- The sequence of the chain leaves the inverse of cell `z` in `zinv`, and cell `x` as it was. -/
theorem microRun_invertProgram (s : Scratch) :
    (microRun invertProgram s).f .zinv = invert (s.f .z) ∧ (microRun invertProgram s).f .x = s.f .x := by
  unfold invertProgram
  simp only [microRun_append, microRun_squaresProgram, microRun_cons, microRun_nil, microStep_mul, microStep_sqr]
  simp only [Scratch.set_f, reduceCtorEq, if_true, if_false, Nat.reduceAdd, squareTimes_one, invert, and_true]

/-! ## The commands -/

theorem microRun_product_encode (s : Scratch) :
    (microRun [.mul .x .x .zinv, .encode] s).out = encodeFE (feMultiply (s.f .x) (s.f .zinv)) := rfl

/-- CLAMP and DECODE put the scalar and the point of the ladder into their cells. -/
theorem microRun_clamp_decode (s : Scratch) :
    (microRun [.clamp, .decode] s).scalar = clampBytes s.secret ∧ (microRun [.clamp, .decode] s).f .q = decodeBytes s.point :=
  ⟨rfl, rfl⟩

/-- The sequence of SMULT leaves the scalar multiple of the latched secret and point in cell `out`. -/
theorem microRun_scalarMultProgram (s : Scratch) : (microRun scalarMultProgram s).out = scalarMult s.secret s.point := by
  obtain ⟨hscalar, hq⟩ := microRun_clamp_decode s
  have hladder := microRun_ladderProgram (microRun [.clamp, .decode] s)
  obtain ⟨hinv, hx⟩ := microRun_invertProgram (microRun ladderProgram (microRun [.clamp, .decode] s))
  unfold scalarMultProgram
  rw [microRun_append, microRun_append, microRun_append, microRun_product_encode, hx, hinv, scalarMult_eq, ← hscalar, ← hq,
    ← hladder]

section Store

variable {s : Scratch} {d : Data}

theorem microStore_lstep (a b c e q : FReg) {p : Pairs} (h : s.pairs = p) :
    microStore (.lstep a b c e q) s d = (((d.setF a p.x).setF b p.z).setF c p.xp).setF e p.zp := by
  subst h
  rfl

theorem microStore_ladder (a b : FReg) (c : BReg) (q : FReg) {r : FE × FE} (h : (s.f .x, s.f .z) = r) :
    microStore (.ladder a b c q) s d = (d.setF a r.1).setF b r.2 := by
  subst h
  rfl

end Store

/-- The data written by the results of the internal sequence is the data the completion writes, command by command. -/
theorem writes_eq_microStore (i : Instr) (o d : Data) :
    writes i o d = microStore i (microRun (microProgram i.opcode) (microLoad i o)) d := by
  cases i with
  | fadd | fdiff | fsma | fmul | fsqr | fcopy | decode | encode | cswap | clamp => rfl
  | lstep a b c e q => exact (microStore_lstep a b c e q (microRun_stepProgram (microLoad (.lstep a b c e q) o)).1).symm
  | ladder a b c q => exact (microStore_ladder a b c q (microRun_ladderProgram (microLoad (.ladder a b c q) o))).symm
  | invert a b => exact (congrArg (d.setF a) (microRun_invertProgram (microLoad (.invert a b) o)).1).symm
  | smult a b c => exact (congrArg (d.setB a) (microRun_scalarMultProgram (microLoad (.smult a b c) o))).symm
  | dpub a b => exact (congrArg (d.setB a) (microRun_scalarMultProgram (microLoad (.dpub a b) o))).symm
  | dshared a b c => exact (congrArg (d.setB a) (microRun_scalarMultProgram (microLoad (.dshared a b c) o))).symm

/-- Settles O57: a completion writes what the internal sequence stores. -/
theorem microProgramsComputeCommands : Obligations.MicroProgramsComputeCommands := by
  intro i s l h
  rw [exec_busy h, writes_eq_microStore]

/-! ## Operation counts (R239) -/

/-- How many steps of kind `k` a sequence performs. -/
def countOf (k : OpKind) (p : List MicroOp) : Nat := p.countP fun op => decide (op.kind = k)

section Count

variable (k : OpKind)

theorem countOf_cons (op : MicroOp) (p : List MicroOp) : countOf k (op :: p) = countOf k [op] + countOf k p :=
  List.countP_append (l₁ := [op])

theorem countOf_append (p q : List MicroOp) : countOf k (p ++ q) = countOf k p + countOf k q := List.countP_append

theorem countOf_replicate (n : Nat) (op : MicroOp) : countOf k (List.replicate n op) = n * countOf k [op] := by
  induction n with
  | zero => rw [Nat.zero_mul]; rfl
  | succ n ih => rw [List.replicate_succ, countOf_cons, ih, Nat.succ_mul, Nat.add_comm]

/-- The operations of one iteration of the ladder; the selection of its bit counts as `control`. -/
def iterationCount : Nat := countOf k (.bit 0 :: swapProgram ++ stepProgram)

theorem countOf_loopProgram (n : Nat) : countOf k (loopProgram n) = n * iterationCount k := by
  induction n with
  | zero => rw [Nat.zero_mul]; rfl
  | succ n ih =>
    have hiteration : countOf k (.bit n :: swapProgram ++ stepProgram) = iterationCount k := rfl
    rw [loopProgram, countOf_append, hiteration, ih, Nat.succ_mul, Nat.add_comm]

theorem countOf_squaresProgram (src : Cell) (n : Nat) :
    countOf k (squaresProgram src n) = (n + 1) * countOf k [.sqr .t .t] := by
  have hfirst : countOf k [.sqr .t src] = countOf k [.sqr .t .t] := rfl
  rw [squaresProgram, countOf_cons, countOf_replicate, hfirst, Nat.succ_mul, Nat.add_comm]

theorem countOf_singleton (op : MicroOp) : countOf k [op] = if k = op.kind then 1 else 0 := by
  by_cases h : op.kind = k
  · rw [if_pos h.symm]; simp [countOf, h]
  · rw [if_neg (Ne.symm h)]; simp [countOf, h]

theorem opCount_eq_countOf (o : Opcode) : opCount o k = countOf k (microProgram o) := rfl

theorem opCount_of_singleton {o : Opcode} {op : MicroOp} {kind : OpKind} (h : microProgram o = [op]) (hkind : op.kind = kind) :
    opCount o k = if k = kind then 1 else 0 := by
  rw [opCount_eq_countOf, h, countOf_singleton, hkind]

theorem opCount_cswap (hk : k ≠ .control) : opCount .cswap k = if k = .swap then 1 else 0 := by
  have hflag : countOf k [.flag] = 0 := (countOf_singleton k .flag).trans (if_neg hk)
  rw [opCount_eq_countOf, microProgram, countOf_cons, hflag, Nat.zero_add, countOf_singleton]
  rfl

theorem countOf_ladderProgram :
    countOf k ladderProgram = countOf k [.start] + 256 * iterationCount k + countOf k (.last :: swapProgram) := by
  unfold ladderProgram
  rw [countOf_append, countOf_cons, countOf_loopProgram]

/-- The chain is 254 squarings and 11 multiplications. -/
theorem countOf_invertProgram :
    countOf k invertProgram = 254 * countOf k [.sqr .t .t] + 11 * countOf k [.mul .t .t .t] := by
  have hsqr (c a : Cell) : countOf k [.sqr c a] = countOf k [.sqr .t .t] := rfl
  have hmul (c a b : Cell) : countOf k [.mul c a b] = countOf k [.mul .t .t .t] := rfl
  have hpair : countOf k [.mul .z9 .t .z, .mul .z11 .z9 .z2] = 2 * countOf k [.mul .t .t .t] := by
    rw [countOf_cons, hmul .z9, hmul .z11, Nat.two_mul]
  unfold invertProgram
  simp only [countOf_append, countOf_squaresProgram, hpair, hsqr, hmul]
  omega

/-- ScalarMult performs the stages of R182. -/
theorem countOf_scalarMultProgram :
    countOf k scalarMultProgram =
      countOf k [.clamp, .decode] + countOf k ladderProgram + countOf k invertProgram + countOf k [.mul .x .x .zinv, .encode] := by
  unfold scalarMultProgram
  rw [countOf_append, countOf_append, countOf_append]

end Count

/-- Settles O58: the sequences of one operation by their kind, the long ones by the counts of their parts. -/
theorem operationCounts : Obligations.OperationCounts := by
  refine ⟨?single, by decide, ?ladder, ?invert, fun o ho => ?scalarMult⟩
  case single =>
    simp only [List.forall_mem_cons, List.not_mem_nil, false_imp_iff, implies_true, and_true]
    refine ⟨?_, ?_, ?_, ?_, ?_, ?_, ?_, ?_, opCount_cswap, ?_⟩ <;> exact fun k _ => opCount_of_singleton k rfl rfl
  case ladder =>
    simp only [opCount_eq_countOf, microProgram, countOf_ladderProgram]
    decide
  case invert =>
    simp only [opCount_eq_countOf, microProgram, countOf_invertProgram]
    decide
  case scalarMult =>
    have hprogram : microProgram o = scalarMultProgram := by obtain rfl | rfl | rfl := ho <;> unfold microProgram <;> rfl
    have hladder : microProgram .ladder = ladderProgram := rfl
    have hinvert : microProgram .invert = invertProgram := rfl
    simp only [opCount_eq_countOf, hprogram, hladder, hinvert, countOf_scalarMultProgram, countOf_ladderProgram,
      countOf_invertProgram]
    decide

end Sys2Proof.Machine
end

section
/-! SUPPORT and PROOFS. Multiply and ScalarMultiplyAdd as arithmetic modulo p (40_field_arithmetic.md sections 3 and 4), and the
inversion chain as a power (44_inverse.md). -/

namespace Sys2Proof.Machine

open Sys2Proof.Claims

/-! ## Values (00_scope.md R5) -/

/-- Five numbers at the weights of the limbs. -/
def weigh (x : Fin 5 → Nat) : Nat := x 0 + x 1 * 2 ^ 51 + x 2 * 2 ^ 102 + x 3 * 2 ^ 153 + x 4 * 2 ^ 204

theorem weigh_limbsOf (f : FE) : weigh (limbsOf f) = f.val := rfl

/-- Numbers that differ by a multiple of p are congruent. -/
theorem modEq_of_add_mul {x y c : Nat} (h : x + Config.p * c = y) : x ≡ y [MOD Config.p] := by
  rw [← h]
  exact (Nat.add_mul_mod_self_left x Config.p c).symm

theorem FE.below_mono {f : FE} {m n : Nat} (h : f.below m) (hmn : m ≤ n) : f.below n := by
  obtain ⟨h0, h1, h2, h3, h4⟩ := h
  exact ⟨h0.trans_le hmn, h1.trans_le hmn, h2.trans_le hmn, h3.trans_le hmn, h4.trans_le hmn⟩

theorem FE.below_of_tight {f : FE} (h : f.tight) : f.below (2 ^ 51 + 1) := by
  obtain ⟨h0, h1, h2, h3, h4⟩ := h
  exact ⟨by omega, by omega, by omega, by omega, by omega⟩

theorem FE.loose_of_tight {f : FE} (h : f.tight) : f.loose := FE.below_mono (FE.below_of_tight h) (by norm_num)

/-! ## A carry from limb 0 to limb 4 (R106, R109, R132) -/

/-- Each number with the carry out of the one below it. -/
def chain (t : Fin 5 → Nat) : Fin 5 → Nat :=
  let u1 := t 1 + t 0 / 2 ^ 51
  let u2 := t 2 + u1 / 2 ^ 51
  let u3 := t 3 + u2 / 2 ^ 51
  ![t 0, u1, u2, u3, t 4 + u3 / 2 ^ 51]

section Chain

variable (t : Fin 5 → Nat)

theorem chain_zero : chain t 0 = t 0 := rfl
theorem chain_one : chain t 1 = t 1 + chain t 0 / 2 ^ 51 := rfl
theorem chain_two : chain t 2 = t 2 + chain t 1 / 2 ^ 51 := rfl
theorem chain_three : chain t 3 = t 3 + chain t 2 / 2 ^ 51 := rfl
theorem chain_four : chain t 4 = t 4 + chain t 3 / 2 ^ 51 := rfl

/-- What stays of each number after its carry. -/
def chainRest : Fin 5 → Nat := fun j => chain t j % 2 ^ 51

theorem chainRest_lt (j : Fin 5) : chainRest t j < 2 ^ 51 := Nat.mod_lt _ (by decide)

theorem chain_eq (j : Fin 5) : chain t j = 2 ^ 51 * (chain t j / 2 ^ 51) + chainRest t j := (Nat.div_add_mod _ _).symm

/-- The carry keeps the value; what comes out of limb 4 has weight `2^255`. -/
theorem weigh_chainRest : weigh (chainRest t) + 2 ^ 255 * (chain t 4 / 2 ^ 51) = weigh t := by
  have h0 := chain_eq t 0
  have h1 := chain_eq t 1
  have h2 := chain_eq t 2
  have h3 := chain_eq t 3
  have h4 := chain_eq t 4
  have u0 := chain_zero t
  have u1 := chain_one t
  have u2 := chain_two t
  have u3 := chain_three t
  have u4 := chain_four t
  generalize chain t 0 / 2 ^ 51 = c0 at *
  generalize chain t 1 / 2 ^ 51 = c1 at *
  generalize chain t 2 / 2 ^ 51 = c2 at *
  generalize chain t 3 / 2 ^ 51 = c3 at *
  generalize chain t 4 / 2 ^ 51 = c4 at *
  simp only [weigh]
  omega

variable {t} {n : Nat}

/-- Numbers that leave room below `n` for a carry stay below `n` with it. -/
theorem chain_lt (h : ∀ j, t j + n / 2 ^ 51 < n) (j : Fin 5) : chain t j < n := by
  have next {u : Nat} (hu : u < n) (j : Fin 5) : t j + u / 2 ^ 51 < n :=
    (Nat.add_le_add_left (Nat.div_le_div_right hu.le) _).trans_lt (h j)
  have h0 : chain t 0 < n := (Nat.le_add_right _ _).trans_lt (h 0)
  have h1 : chain t 1 < n := next h0 1
  have h2 : chain t 2 < n := next h1 2
  have h3 : chain t 3 < n := next h2 3
  have h4 : chain t 4 < n := next h3 4
  match j with
  | 0 => exact h0
  | 1 => exact h1
  | 2 => exact h2
  | 3 => exact h3
  | 4 => exact h4

end Chain

/-! ## Multiply (R108, R109) -/

theorem mulSums_comm (x y : Fin 5 → Nat) : mulSums x y = mulSums y x := by
  simp only [mulSums, Nat.mul_comm, Nat.add_comm, Nat.add_left_comm, Nat.add_assoc]

theorem feMultiply_comm (a b : FE) : feMultiply a b = feMultiply b a :=
  limbsOf_injective (by rw [limbsOf_feMultiply, limbsOf_feMultiply, mulSums_comm])

/-- Settles O44: the accumulators are R108's, in which the factors stand symmetrically. -/
theorem multiplyAccumulators : Obligations.MultiplyAccumulators := by
  intro a b x y t
  have hsums := accsOf_mulAccumulate a b
  exact ⟨congrFun hsums 0, congrFun hsums 1, congrFun hsums 2, congrFun hsums 3, congrFun hsums 4, feMultiply_comm a b⟩

/-- Carries of accumulators below `80 * 2^108` fit in 64 bits. -/
theorem chain_lt_of_accumulators {t : Fin 5 → Nat} (h : ∀ j, t j < 80 * 2 ^ 108) (j : Fin 5) : chain t j < 81 * 2 ^ 108 :=
  chain_lt (fun j => by have := h j; omega) j

/-- The first stage of R109 on accumulators whose carries are not cut: the carry chain, folded by 19. -/
theorem carryLimbs_eq {t : Fin 5 → Nat} (h : ∀ j, t j < 80 * 2 ^ 108) :
    carryLimbs t =
      let r0 := (chainRest t 0 + 19 * (chain t 4 / 2 ^ 51)) % 2 ^ 64
      let r1 := (chainRest t 1 + r0 / 2 ^ 51) % 2 ^ 64
      ![r0 % 2 ^ 51, r1 % 2 ^ 51, (chainRest t 2 + r1 / 2 ^ 51) % 2 ^ 64, chainRest t 3, chainRest t 4] := by
  have hlt := chain_lt_of_accumulators h
  have hcarry (j : Fin 5) : chain t j / 2 ^ 51 % 2 ^ 64 = chain t j / 2 ^ 51 := by
    have := hlt j
    exact Nat.mod_eq_of_lt (by omega)
  have hsum (j : Fin 5) : chain t j % 2 ^ 128 = chain t j := Nat.mod_eq_of_lt ((hlt j).trans (by norm_num))
  simp only [carryLimbs, ← chain_zero t, hcarry, ← chain_one, ← chain_two, ← chain_three, ← chain_four, hsum, chainRest]

/-- The second stage of R109: limb 0 carries into limb 1, which carries at most 1 into limb 2. -/
theorem second_stage {r0 r1 r2 s1 : Nat} (h0 : r0 < 2 ^ 64) (h1 : r1 < 2 ^ 51) (h2 : r2 < 2 ^ 51)
    (hs1 : s1 = (r1 + r0 / 2 ^ 51) % 2 ^ 64) :
    r0 % 2 ^ 51 + s1 % 2 ^ 51 * 2 ^ 51 + (r2 + s1 / 2 ^ 51) % 2 ^ 64 * 2 ^ 102 = r0 + r1 * 2 ^ 51 + r2 * 2 ^ 102 ∧
    (r2 + s1 / 2 ^ 51) % 2 ^ 64 ≤ 2 ^ 51 := by
  rw [Nat.mod_eq_of_lt (by omega)] at hs1
  have hcarry : s1 / 2 ^ 51 ≤ 1 := by omega
  rw [Nat.mod_eq_of_lt (by omega : r2 + s1 / 2 ^ 51 < 2 ^ 64)]
  omega

/-- The limbs come out tight with the same value modulo p. -/
theorem carryLimbs_value {t : Fin 5 → Nat} (h : ∀ j, t j < 80 * 2 ^ 108) (h4 : t 4 < 6 * 2 ^ 108) :
    weigh (carryLimbs t) ≡ weigh t [MOD Config.p] ∧
    carryLimbs t 0 < 2 ^ 51 ∧ carryLimbs t 1 < 2 ^ 51 ∧ carryLimbs t 2 ≤ 2 ^ 51 ∧ carryLimbs t 3 < 2 ^ 51 ∧
    carryLimbs t 4 < 2 ^ 51 := by
  have hr := chainRest_lt t
  have hfold : chainRest t 0 + 19 * (chain t 4 / 2 ^ 51) < 2 ^ 64 := by
    have h3 := chain_lt_of_accumulators h 3
    have hr0 := hr 0
    rw [chain_four]
    omega
  obtain ⟨hsame, hr2⟩ := second_stage hfold (hr 1) (hr 2) rfl
  have hweigh := weigh_chainRest t
  rw [carryLimbs_eq h]
  simp only [weigh, Matrix.cons_val, Nat.mod_eq_of_lt hfold] at hweigh ⊢
  refine ⟨modEq_of_add_mul (c := chain t 4 / 2 ^ 51) ?_, Nat.mod_lt _ (by decide), Nat.mod_lt _ (by decide), hr2, hr 3, hr 4⟩
  rw [hsame, Config.p]
  omega

/-- The accumulators of R108 before they are cut to 128 bits. -/
def exactSums (x y : Fin 5 → Nat) : Fin 5 → Nat :=
  ![x 0 * y 0 + 19 * (x 1 * y 4 + x 2 * y 3 + x 3 * y 2 + x 4 * y 1),
    x 0 * y 1 + x 1 * y 0 + 19 * (x 2 * y 4 + x 3 * y 3 + x 4 * y 2),
    x 0 * y 2 + x 1 * y 1 + x 2 * y 0 + 19 * (x 3 * y 4 + x 4 * y 3),
    x 0 * y 3 + x 1 * y 2 + x 2 * y 1 + x 3 * y 0 + 19 * (x 4 * y 4),
    x 0 * y 4 + x 1 * y 3 + x 2 * y 2 + x 3 * y 1 + x 4 * y 0]

theorem mulSums_eq_mod (x y : Fin 5 → Nat) : mulSums x y = fun j => exactSums x y j % 2 ^ 128 := by
  funext j
  fin_cases j <;> rfl

/-- The exact accumulators have the value of the product modulo p: terms of weight `2^255` and up come back times 19. -/
theorem weigh_exactSums (x y : Fin 5 → Nat) : weigh (exactSums x y) ≡ weigh x * weigh y [MOD Config.p] := by
  refine modEq_of_add_mul (c := (x 1 * y 4 + x 2 * y 3 + x 3 * y 2 + x 4 * y 1)
    + (x 2 * y 4 + x 3 * y 3 + x 4 * y 2) * 2 ^ 51 + (x 3 * y 4 + x 4 * y 3) * 2 ^ 102 + x 4 * y 4 * 2 ^ 153) ?_
  simp only [weigh, exactSums, Config.p, Matrix.cons_val]
  ring

/-- On operands below `2^54` the accumulators leave room in the first carry stage. -/
theorem exactSums_lt {x y : Fin 5 → Nat} (hx : ∀ j, x j < 2 ^ 54) (hy : ∀ j, y j < 2 ^ 54) :
    (∀ j, exactSums x y j < 80 * 2 ^ 108) ∧ exactSums x y 4 < 6 * 2 ^ 108 := by
  have hprod (i j : Fin 5) : x i * y j < 2 ^ 108 := by
    calc x i * y j < 2 ^ 54 * 2 ^ 54 := Nat.mul_lt_mul'' (hx i) (hy j)
      _ = 2 ^ 108 := by norm_num
  have hlast : exactSums x y 4 < 6 * 2 ^ 108 := by
    have := hprod 0 4; have := hprod 1 3; have := hprod 2 2; have := hprod 3 1; have := hprod 4 0
    simp only [exactSums, Matrix.cons_val]
    omega
  refine ⟨fun j => ?_, hlast⟩
  match j with
  | 0 =>
    have := hprod 0 0; have := hprod 1 4; have := hprod 2 3; have := hprod 3 2; have := hprod 4 1
    simp only [exactSums, Matrix.cons_val]
    omega
  | 1 =>
    have := hprod 0 1; have := hprod 1 0; have := hprod 2 4; have := hprod 3 3; have := hprod 4 2
    simp only [exactSums, Matrix.cons_val]
    omega
  | 2 =>
    have := hprod 0 2; have := hprod 1 1; have := hprod 2 0; have := hprod 3 4; have := hprod 4 3
    simp only [exactSums, Matrix.cons_val]
    omega
  | 3 =>
    have := hprod 0 3; have := hprod 1 2; have := hprod 2 1; have := hprod 3 0; have := hprod 4 4
    simp only [exactSums, Matrix.cons_val]
    omega
  | 4 => exact hlast.trans (by norm_num)

/-- On operands below `2^54` no accumulator is cut. -/
theorem mulSums_eq_exactSums {x y : Fin 5 → Nat} (hx : ∀ j, x j < 2 ^ 54) (hy : ∀ j, y j < 2 ^ 54) :
    mulSums x y = exactSums x y := by
  rw [mulSums_eq_mod]
  exact funext fun j => Nat.mod_eq_of_lt (((exactSums_lt hx hy).1 j).trans (by norm_num))

/-- Multiply under the carry discipline. -/
theorem feMultiply_value {a b : FE} (ha : a.loose) (hb : b.loose) :
    (feMultiply a b).tight ∧ (feMultiply a b).val ≡ a.val * b.val [MOD Config.p] := by
  have hx := limbsOf_lt_of_below ha
  have hy := limbsOf_lt_of_below hb
  obtain ⟨hlt, hlt4⟩ := exactSums_lt hx hy
  obtain ⟨hcarry, htight⟩ := carryLimbs_value hlt hlt4
  have hlimbs : limbsOf (feMultiply a b) = carryLimbs (exactSums (limbsOf a) (limbsOf b)) := by
    rw [limbsOf_feMultiply, mulSums_eq_exactSums hx hy]
  rw [← hlimbs] at hcarry htight
  exact ⟨htight, hcarry.trans (weigh_exactSums _ _)⟩

/-- Settles O45: the accumulators are the product modulo p, and the carry stage keeps the value modulo p. -/
theorem multiplyIsModularProduct : Obligations.MultiplyIsModularProduct := fun _ _ => feMultiply_value

/-! ## ScalarMultiplyAdd (R106) -/

section ScalarMultiplyAdd

variable {x y t : Fin 5 → Nat} {k : Nat} (hx : ∀ j, x j < 2 ^ 54) (hk : k < 2 ^ 32) (ht : ∀ j, x j * k = t j)
include hx hk ht

theorem chain_products_lt (j : Fin 5) : chain t j < 2 ^ 86 := by
  refine chain_lt (fun j => ?_) j
  have hprod : x j * k ≤ (2 ^ 54 - 1) * (2 ^ 32 - 1) := Nat.mul_le_mul (Nat.le_pred_of_lt (hx j)) (Nat.le_pred_of_lt hk)
  rw [ht] at hprod
  omega

/-- In its range ScalarMultiplyAdd cuts nothing: it is the carry chain of the products, folded by 19, and the sum. -/
theorem smaLimbs_eq (hy : ∀ j, y j < 2 ^ 63) :
    smaLimbs x k y =
      ![chainRest t 0 + 19 * (chain t 4 / 2 ^ 51) + y 0, chainRest t 1 + y 1, chainRest t 2 + y 2, chainRest t 3 + y 3,
        chainRest t 4 + y 4] := by
  have hlt := chain_products_lt hx hk ht
  have hcarry (j : Fin 5) : chain t j / 2 ^ 51 % 2 ^ 64 = chain t j / 2 ^ 51 := by
    have := hlt j
    exact Nat.mod_eq_of_lt (by omega)
  have hsum (j : Fin 5) : chain t j % 2 ^ 128 = chain t j := Nat.mod_eq_of_lt ((hlt j).trans (by norm_num))
  have hrest (j : Fin 5) : chain t j % 2 ^ 51 = chainRest t j := rfl
  have hlimb (j : Fin 5) : (chainRest t j + y j) % 2 ^ 64 = chainRest t j + y j := by
    have := chainRest_lt t j
    have := hy j
    exact Nat.mod_eq_of_lt (by omega)
  have hlimb0 : (chainRest t 0 + 19 * (chain t 4 / 2 ^ 51) + y 0) % 2 ^ 64 = chainRest t 0 + 19 * (chain t 4 / 2 ^ 51) + y 0 := by
    have := chainRest_lt t 0
    have := hlt 4
    have := hy 0
    exact Nat.mod_eq_of_lt (by omega)
  simp only [smaLimbs, ht, ← chain_zero t, hcarry, ← chain_one, ← chain_two, ← chain_three, ← chain_four, hsum, hrest,
    hlimb, hlimb0]

/-- The value is right modulo p, and every limb stays near the summand's. -/
theorem smaLimbs_value (hy : ∀ j, y j < 2 ^ 63) :
    weigh (smaLimbs x k y) ≡ weigh x * k + weigh y [MOD Config.p] ∧
    smaLimbs x k y 0 < y 0 + 2 ^ 51 + 2 ^ 40 ∧ ∀ j, j ≠ 0 → smaLimbs x k y j < y j + 2 ^ 51 := by
  have hrest := chainRest_lt t
  have hweigh := weigh_chainRest t
  have htop := chain_products_lt hx hk ht 4
  have hproducts : weigh x * k = weigh t := by simp only [weigh, ← ht]; ring
  rw [smaLimbs_eq hx hk ht hy, hproducts]
  refine ⟨modEq_of_add_mul (c := chain t 4 / 2 ^ 51) ?_, ?_, fun j hj => ?_⟩
  · simp only [weigh, Config.p, Matrix.cons_val] at hweigh ⊢
    omega
  · have hrest0 := hrest 0
    simp only [Matrix.cons_val]
    omega
  · have hlimb : chainRest t j + y j < y j + 2 ^ 51 := by have := hrest j; omega
    match j with
    | 0 => exact absurd rfl hj
    | 1 | 2 | 3 | 4 => exact hlimb

end ScalarMultiplyAdd

theorem feScalarMultiplyAdd_value {inp add : FE} {k : Limb} (hk : k.toNat < 2 ^ 32) (hinp : inp.loose)
    (hadd : add.below (2 ^ 63)) :
    (feScalarMultiplyAdd inp k add).val ≡ inp.val * k.toNat + add.val [MOD Config.p] ∧
    (feScalarMultiplyAdd inp k add).l0.toNat < add.l0.toNat + 2 ^ 51 + 2 ^ 40 ∧
    ∀ j : Fin 5, j ≠ 0 → ((feScalarMultiplyAdd inp k add).limb j).toNat < (add.limb j).toNat + 2 ^ 51 := by
  have hvalue := smaLimbs_value (limbsOf_lt_of_below hinp) hk (fun _ => rfl) (limbsOf_lt_of_below hadd)
  rwa [← limbsOf_feScalarMultiplyAdd] at hvalue

/-- Settles O48: the carry chain keeps the value of the products, and its top carry is below `2^35`. -/
theorem scalarMultiplyAddValue : Obligations.ScalarMultiplyAddValue := fun _ _ _ => feScalarMultiplyAdd_value

/-! ## The inversion chain (R170) -/

/-- `v` stands for the power `n` of `z`, in limbs that Multiply may take. -/
def IsPower (z : ZMod Config.p) (n : Nat) (v : FE) : Prop := v.loose ∧ (v.val : ZMod Config.p) = z ^ n

section Power

variable {z : ZMod Config.p} {u v : FE} {m n : Nat}

theorem IsPower.feMultiply (hu : IsPower z m u) (hv : IsPower z n v) : IsPower z (m + n) (feMultiply u v) := by
  obtain ⟨hul, hu⟩ := hu
  obtain ⟨hvl, hv⟩ := hv
  obtain ⟨htight, hval⟩ := feMultiply_value hul hvl
  refine ⟨FE.loose_of_tight htight, ?_⟩
  rw [(ZMod.natCast_eq_natCast_iff _ _ _).mpr hval, Nat.cast_mul, hu, hv, pow_add]

theorem IsPower.feSquare (hu : IsPower z n u) : IsPower z (n + n) (feSquare u) := hu.feMultiply hu

theorem IsPower.squareTimes (hu : IsPower z n u) (k : Nat) : IsPower z (2 ^ k * n) (squareTimes k u) := by
  induction k generalizing n u with
  | zero => rwa [Nat.pow_zero, Nat.one_mul]
  | succ k ih =>
    have h := ih hu.feSquare
    rwa [← Nat.two_mul, ← Nat.mul_assoc, ← Nat.pow_succ] at h

end Power

/-- Settles O53: the exponents along the chain end at `2^255 - 21`, and the last value is a product, so tight. -/
theorem invertIsPower : Obligations.InvertIsPower := by
  intro z hz
  have h1 : IsPower (z.val : ZMod Config.p) 1 z := ⟨hz, (pow_one _).symm⟩
  have h2 := h1.feSquare
  have h9 := (h2.squareTimes 2).feMultiply h1
  have h11 := h9.feMultiply h2
  have h5_0 := h11.feSquare.feMultiply h9
  have h10_0 := (h5_0.squareTimes 5).feMultiply h5_0
  have h20_0 := (h10_0.squareTimes 10).feMultiply h10_0
  have h40_0 := (h20_0.squareTimes 20).feMultiply h20_0
  have h50_0 := (h40_0.squareTimes 10).feMultiply h10_0
  have h100_0 := (h50_0.squareTimes 50).feMultiply h50_0
  have h200_0 := (h100_0.squareTimes 100).feMultiply h100_0
  have h250_0 := (h200_0.squareTimes 50).feMultiply h50_0
  obtain ⟨-, hval⟩ := (h250_0.squareTimes 5).feMultiply h11
  have htight := (feMultiply_value (h250_0.squareTimes 5).1 h11.1).1
  simp only [invert]
  refine ⟨htight, hval.trans (congrArg _ ?_)⟩
  norm_num [Config.p]

end Sys2Proof.Machine
end

section
/-! SUPPORT and PROOFS. Difference as arithmetic (40_field_arithmetic.md section 2): its limbs as signed numbers, of which the
links of R103 lend and take without overflow. -/

namespace Sys2Proof.Machine

open Sys2Proof.Claims

/-! ## Signed limbs (00_scope.md R5) -/

/-- The limbs of `f`, each read as a signed number. -/
def ints (f : FE) : Fin 5 → Int := fun j => (f.limb j).toInt

/-- Five signed numbers at the weights of the limbs. -/
def weighInt (d : Fin 5 → Int) : Int := d 0 + d 1 * 2 ^ 51 + d 2 * 2 ^ 102 + d 3 * 2 ^ 153 + d 4 * 2 ^ 204

theorem weighInt_ints (f : FE) : weighInt (ints f) = f.sval := rfl

/-- Every number is at least `-lo` and below `hi`. -/
def Within (lo hi : Int) (d : Fin 5 → Int) : Prop := ∀ j, -lo ≤ d j ∧ d j < hi

/-- 1 for a negative number, which borrows, and 0 for any other. -/
def borrow (v : Int) : Int := if v < 0 then 1 else 0

theorem borrow_cases (v : Int) : (v < 0 ∧ borrow v = 1) ∨ (0 ≤ v ∧ borrow v = 0) := by
  by_cases h : v < 0
  · exact .inl ⟨h, if_pos h⟩
  · exact .inr ⟨not_lt.mp h, if_neg h⟩

/-- `link(x, y, n)` of R103 on signed numbers. -/
def signedLink (x y : Fin 5) (n : Int) (d : Fin 5 → Int) : Fin 5 → Int := fun j =>
  if j = x then d j + 2 ^ 51 * borrow (d x) else if j = y then d j - n * borrow (d x) else d j

section Link

variable {x y : Fin 5} {k : Limb} {n lo hi : Int}

theorem Within.signedLink {d : Fin 5 → Int} (h : Within lo hi d) (hn : 0 ≤ n) (hhi : 2 ^ 51 ≤ hi) :
    Within (lo + n) hi (signedLink x y n d) := by
  intro j
  have hj := h j
  obtain ⟨hneg, hb⟩ | ⟨hneg, hb⟩ := borrow_cases (d x)
  · by_cases hjx : j = x
    · subst hjx
      simp only [Machine.signedLink, hb, if_true]
      omega
    · simp only [Machine.signedLink, hb, if_neg hjx]
      split <;> omega
  · simp only [Machine.signedLink, hb, mul_zero, add_zero, sub_zero, ite_self]
    omega

theorem toInt_add_of_bounds {a b : Limb} (hlo : -2 ^ 63 ≤ a.toInt + b.toInt) (hhi : a.toInt + b.toInt < 2 ^ 63) :
    (a + b).toInt = a.toInt + b.toInt := by
  rw [BitVec.toInt_add]
  exact Int.bmod_eq_of_le hlo hhi

theorem toInt_sub_of_bounds {a b : Limb} (hlo : -2 ^ 63 ≤ a.toInt - b.toInt) (hhi : a.toInt - b.toInt < 2 ^ 63) :
    (a - b).toInt = a.toInt - b.toInt := by
  rw [BitVec.toInt_sub]
  exact Int.bmod_eq_of_le hlo hhi

theorem toInt_neg_iff (v : Limb) : v.toInt < 0 ↔ 2 ^ 63 ≤ v.toNat := by
  rw [BitVec.toInt_eq_toNat_cond]
  split <;> omega

/-- A link of the borrow chain is R103's on signed numbers, when it has room for them. -/
theorem ints_borrowLink {d : FE} (h : Within lo hi (ints d)) (hhi : 2 ^ 51 ≤ hi ∧ hi ≤ 2 ^ 62) (hlo : lo + n ≤ 2 ^ 63)
    (hxy : y ≠ x) (hk : k.toInt = n) (hn : 0 ≤ n) :
    ints (borrowLink x y k d) = signedLink x y n (ints d) ∧ Within (lo + n) hi (ints (borrowLink x y k d)) := by
  have heq : ints (borrowLink x y k d) = signedLink x y n (ints d) := by
    funext j
    have hx : -lo ≤ (d.limb x).toInt ∧ (d.limb x).toInt < hi := h x
    have hy : -lo ≤ (d.limb y).toInt ∧ (d.limb y).toInt < hi := h y
    obtain ⟨hneg, hb⟩ | ⟨hneg, hb⟩ := borrow_cases (d.limb x).toInt
    · have hlend : (0x8000000000000#64 : Limb).toInt = 2 ^ 51 := by decide
      simp only [borrowLink_of_neg hxy ((toInt_neg_iff _).mp hneg), signedLink, ints, hb, mul_one, limb_setLimb]
      by_cases hjx : j = x
      · rw [if_neg (hjx ▸ hxy.symm), if_pos hjx, if_pos hjx, toInt_add_of_bounds (by omega) (by omega), hlend, hjx]
      by_cases hjy : j = y
      · rw [if_pos hjy, if_neg hjx, if_pos hjy, toInt_sub_of_bounds (by omega) (by omega), hk, hjy]
      · rw [if_neg hjy, if_neg hjx, if_neg hjx, if_neg hjy]
    · rw [borrowLink_of_nonneg (lt_of_not_ge fun hge => not_lt.mpr hneg ((toInt_neg_iff _).mpr hge))]
      simp only [signedLink, ints, hb, mul_zero, add_zero, sub_zero, ite_self]
  exact ⟨heq, heq ▸ h.signedLink hn hhi.1⟩

end Link

/-! ## The passes of R103 on signed numbers -/

/-- The four ordinary links, each borrow handed on. -/
def signedPass (d : Fin 5 → Int) : Fin 5 → Int :=
  let b0 := borrow (d 0)
  let b1 := borrow (d 1 - b0)
  let b2 := borrow (d 2 - b1)
  let b3 := borrow (d 3 - b2)
  ![d 0 + 2 ^ 51 * b0, d 1 - b0 + 2 ^ 51 * b1, d 2 - b1 + 2 ^ 51 * b2, d 3 - b2 + 2 ^ 51 * b3, d 4 - b3]

/-- The link from limb 4 to limb 0: the fold by 19. -/
def signedFold (d : Fin 5 → Int) : Fin 5 → Int :=
  ![d 0 - 19 * borrow (d 4), d 1, d 2, d 3, d 4 + 2 ^ 51 * borrow (d 4)]

theorem signedFold_zero (d : Fin 5 → Int) : signedFold d 0 = d 0 - 19 * borrow (d 4) := rfl

theorem signedFold_four (d : Fin 5 → Int) : signedFold d 4 = d 4 + 2 ^ 51 * borrow (d 4) := rfl

theorem signedFold_of_ne {d : Fin 5 → Int} {j : Fin 5} (h0 : j ≠ 0) (h4 : j ≠ 4) : signedFold d j = d j := by
  fin_cases j
  · exact absurd rfl h0
  · rfl
  · rfl
  · rfl
  · exact absurd rfl h4

/-- Difference on signed numbers, from the limb-wise difference on. -/
def signedDifference (d : Fin 5 → Int) : Fin 5 → Int := signedPass (signedFold (signedPass d))

theorem signedPass_eq_links (d : Fin 5 → Int) :
    signedLink 3 4 1 (signedLink 2 3 1 (signedLink 1 2 1 (signedLink 0 1 1 d))) = signedPass d := by
  funext j
  fin_cases j <;> simp [signedLink, signedPass]

theorem signedFold_eq_link (d : Fin 5 → Int) : signedLink 4 0 19 d = signedFold d := by
  funext j
  fin_cases j <;> simp [signedLink, signedFold]

section Pass

variable {d : FE} {lo hi : Int}

theorem ints_borrowPass (h : Within lo hi (ints d)) (hhi : 2 ^ 51 ≤ hi ∧ hi ≤ 2 ^ 62) (hlo : lo + 4 ≤ 2 ^ 63) :
    ints (borrowPass d) = signedPass (ints d) ∧ Within (lo + 4) hi (ints (borrowPass d)) := by
  have hk : (1 : Limb).toInt = 1 := by decide
  obtain ⟨h1, w1⟩ := ints_borrowLink (x := 0) (y := 1) h hhi (by omega) (by decide) hk (by decide)
  obtain ⟨h2, w2⟩ := ints_borrowLink (x := 1) (y := 2) w1 hhi (by omega) (by decide) hk (by decide)
  obtain ⟨h3, w3⟩ := ints_borrowLink (x := 2) (y := 3) w2 hhi (by omega) (by decide) hk (by decide)
  obtain ⟨h4, w4⟩ := ints_borrowLink (x := 3) (y := 4) w3 hhi (by omega) (by decide) hk (by decide)
  have hlo4 : lo + 1 + 1 + 1 + 1 = lo + 4 := by omega
  rw [h3, h2, h1, signedPass_eq_links] at h4
  exact ⟨h4, hlo4 ▸ w4⟩

/-- The limb-wise difference of limbs below `2^62` does not overflow. -/
theorem ints_feLimbDiff {out inp : FE} (hout : out.below (2 ^ 62)) (hinp : inp.below (2 ^ 62)) :
    ints (feLimbDiff out inp) = fun j => (limbsOf inp j : Int) - limbsOf out j := by
  have hlimb {u v : Limb} (hu : u.toNat < 2 ^ 62) (hv : v.toNat < 2 ^ 62) : (v - u).toInt = (v.toNat : Int) - u.toNat := by
    have hu' : u.toInt = u.toNat := BitVec.toInt_eq_toNat_of_lt (by omega)
    have hv' : v.toInt = v.toNat := BitVec.toInt_eq_toNat_of_lt (by omega)
    rw [toInt_sub_of_bounds (by omega) (by omega), hu', hv']
  obtain ⟨o0, o1, o2, o3, o4⟩ := hout
  obtain ⟨i0, i1, i2, i3, i4⟩ := hinp
  funext j
  match j with
  | 0 => exact hlimb o0 i0
  | 1 => exact hlimb o1 i1
  | 2 => exact hlimb o2 i2
  | 3 => exact hlimb o3 i3
  | 4 => exact hlimb o4 i4

/-- Difference on signed numbers, with the bound of its minuend. -/
theorem ints_feDifference {out inp : FE} {n : Nat} (hout : out.below (2 ^ 62)) (hinp : inp.below n)
    (hn : 2 ^ 51 ≤ n ∧ n ≤ 2 ^ 62) :
    ints (feDifference out inp) = signedDifference (fun j => (limbsOf inp j : Int) - limbsOf out j) ∧
    Within (2 ^ 62 + 27) n (ints (feDifference out inp)) := by
  have hk : (19 : Limb).toInt = 19 := by decide
  have hhi : (2 ^ 51 : Int) ≤ n ∧ (n : Int) ≤ 2 ^ 62 := by omega
  have hinp' : inp.below (2 ^ 62) := FE.below_mono hinp hn.2
  have hdiff := ints_feLimbDiff hout hinp'
  have w0 : Within (2 ^ 62) n (ints (feLimbDiff out inp)) := by
    intro j
    have hi := limbsOf_lt_of_below hinp j
    have ho := limbsOf_lt_of_below hout j
    rw [hdiff]
    dsimp only
    omega
  obtain ⟨h1, w1⟩ := ints_borrowPass w0 hhi (by omega)
  obtain ⟨h2, w2⟩ := ints_borrowLink (x := 4) (y := 0) w1 hhi (by omega) (by decide) hk (by decide)
  obtain ⟨h3, w3⟩ := ints_borrowPass w2 hhi (by omega)
  have hlo : (2 ^ 62 + 4 + 19 + 4 : Int) = 2 ^ 62 + 27 := by norm_num
  rw [h2, h1, hdiff, signedFold_eq_link] at h3
  exact ⟨h3, hlo ▸ w3⟩

end Pass

/-! ## The value of a Difference -/

theorem weighInt_signedPass (d : Fin 5 → Int) : weighInt (signedPass d) = weighInt d := by
  simp only [weighInt, signedPass, Matrix.cons_val]
  ring

/-- Lending to limb 4 and taking 19 from limb 0 adds p. -/
theorem weighInt_signedFold (d : Fin 5 → Int) : weighInt (signedFold d) = weighInt d + borrow (d 4) * Config.p := by
  simp only [weighInt, signedFold, Matrix.cons_val, Config.p]
  ring

theorem weighInt_signedDifference (d : Fin 5 → Int) :
    weighInt (signedDifference d) = weighInt d + borrow (signedPass d 4) * Config.p := by
  rw [signedDifference, weighInt_signedPass, weighInt_signedFold, weighInt_signedPass]

theorem weighInt_sub (inp out : FE) :
    weighInt (fun j => (limbsOf inp j : Int) - limbsOf out j) = (inp.val : Int) - out.val := by
  simp only [weighInt, ← weigh_limbsOf, weigh]
  push_cast
  ring

/-- The signed value of a Difference is right modulo p. -/
theorem feDifference_sval {out inp : FE} (hout : out.below (2 ^ 62)) (hinp : inp.below (2 ^ 62)) :
    (feDifference out inp).sval ≡ (inp.val : Int) - out.val [ZMOD Config.p] := by
  obtain ⟨hints, -⟩ := ints_feDifference hout hinp (by norm_num)
  rw [← weighInt_ints, hints, weighInt_signedDifference, weighInt_sub, mul_comm]
  exact Int.modEq_iff_dvd.mpr ⟨-borrow _, by ring⟩

/-! ## The unsigned value -/

/-- 1 for a limb with bit 63 set, and 0 for any other. -/
def signBit (v : Limb) : Nat := v.toNat / 2 ^ 63

theorem toNat_eq_toInt_add (v : Limb) : (v.toNat : Int) = v.toInt + 2 ^ 64 * signBit v := by
  rw [BitVec.toInt_eq_toNat_cond, signBit]
  split <;> omega

theorem signBit_le_one (v : Limb) : signBit v ≤ 1 := by
  rw [signBit]
  omega

/-- The sign bits of the limbs, at their weights. -/
def signBits (f : FE) : Nat := weigh fun j => signBit (f.limb j)

theorem signBits_lt (f : FE) : signBits f < Config.p := by
  have h := fun j => signBit_le_one (f.limb j)
  have h0 := h 0
  have h1 := h 1
  have h2 := h 2
  have h3 := h 3
  have h4 := h 4
  simp only [signBits, weigh, Config.p]
  omega

/-- Reading a limb with bit 63 set unsigned adds `2^64` at its weight. -/
theorem val_eq_sval_add (f : FE) : (f.val : Int) = f.sval + 2 ^ 64 * signBits f := by
  have h := fun j => toNat_eq_toInt_add (f.limb j)
  have h0 := h 0
  have h1 := h 1
  have h2 := h 2
  have h3 := h 3
  have h4 := h 4
  simp only [FE.limb] at h0 h1 h2 h3 h4
  simp only [FE.val, FE.sval, signBits, weigh, FE.limb]
  push_cast
  linarith

theorem signBits_eq_zero_iff (f : FE) : signBits f = 0 ↔ f.noSign := by
  simp only [signBits, weigh, signBit, FE.limb, FE.noSign, FE.below]
  omega

/-- `2^64` has an inverse modulo p. -/
theorem dvd_of_dvd_two_pow_mul {m : Nat} (h : Config.p ∣ 2 ^ 64 * m) : Config.p ∣ m := by
  have hcoprime : Nat.Coprime Config.p (2 ^ 64) := by norm_num [Config.p]
  exact hcoprime.dvd_of_dvd_mul_left h

/-- The two readings agree modulo p exactly when no limb has bit 63 set. -/
theorem val_modEq_sval_iff (f : FE) : (f.val : Int) ≡ f.sval [ZMOD Config.p] ↔ f.noSign := by
  rw [← signBits_eq_zero_iff, Int.modEq_comm, Int.modEq_iff_dvd, val_eq_sval_add, add_sub_cancel_left]
  constructor
  · intro h
    have hdvd : Config.p ∣ 2 ^ 64 * signBits f := by exact_mod_cast h
    exact Nat.eq_zero_of_dvd_of_lt (dvd_of_dvd_two_pow_mul hdvd) (signBits_lt f)
  · intro h
    rw [h]
    exact dvd_zero _

/-- Settles O46: lending and folding keep the signed value modulo p, and the sign bits are all that the unsigned one adds. -/
theorem differenceKeepsSignedValue : Obligations.DifferenceKeepsSignedValue := by
  intro out inp hout hinp
  have hsval := feDifference_sval hout hinp
  refine ⟨hsval, ?_⟩
  rw [← val_modEq_sval_iff]
  exact ⟨fun h => h.trans hsval.symm, fun h => h.trans hsval⟩

/-! ## Reduced limbs -/

/-- One loan makes a number of at least `-2^51` nonnegative. -/
theorem borrow_lends {v : Int} (h : -2 ^ 51 ≤ v ∧ v < 2 ^ 51) :
    (0 ≤ v + 2 ^ 51 * borrow v ∧ v + 2 ^ 51 * borrow v < 2 ^ 51) ∧ 0 ≤ borrow v ∧ borrow v ≤ 1 := by
  have hb := borrow_cases v
  omega

/-- A pass over such numbers leaves limbs 0 to 3 reduced, and takes at most 1 from limb 4. -/
theorem signedPass_reduced {d : Fin 5 → Int} (h : ∀ j, j ≠ 4 → -2 ^ 51 < d j ∧ d j < 2 ^ 51) :
    (∀ j, j ≠ 4 → 0 ≤ signedPass d j ∧ signedPass d j < 2 ^ 51) ∧ d 4 - 1 ≤ signedPass d 4 ∧ signedPass d 4 ≤ d 4 := by
  have h0 := h 0 (by decide)
  have h1 := h 1 (by decide)
  have h2 := h 2 (by decide)
  have h3 := h 3 (by decide)
  obtain ⟨r0, c0⟩ := borrow_lends (v := d 0) (by omega)
  obtain ⟨r1, c1⟩ := borrow_lends (v := d 1 - borrow (d 0)) (by omega)
  obtain ⟨r2, c2⟩ := borrow_lends (v := d 2 - borrow (d 1 - borrow (d 0))) (by omega)
  obtain ⟨r3, c3⟩ := borrow_lends (v := d 3 - borrow (d 2 - borrow (d 1 - borrow (d 0)))) (by omega)
  refine ⟨fun j hj => ?_, ?_⟩
  · match j with
    | 0 => exact r0
    | 1 => exact r1
    | 2 => exact r2
    | 3 => exact r3
    | 4 => exact absurd rfl hj
  · simp only [signedPass, Matrix.cons_val]
    omega

/-- With limbs 0 to 3 reduced, the sign of the value is that of limb 4. -/
theorem weighInt_neg_iff {d : Fin 5 → Int} (h : ∀ j, j ≠ 4 → 0 ≤ d j ∧ d j < 2 ^ 51) : weighInt d < 0 ↔ d 4 < 0 := by
  have h0 := h 0 (by decide)
  have h1 := h 1 (by decide)
  have h2 := h 2 (by decide)
  have h3 := h 3 (by decide)
  rw [weighInt]
  omega

/-- Difference of reduced limbs: limbs 0 to 3 are reduced, and limb 4 is -1 exactly when p does not make up for the
difference. -/
theorem signedDifference_reduced {d : Fin 5 → Int} (h : ∀ j, -2 ^ 51 < d j ∧ d j < 2 ^ 51) :
    (∀ j, j ≠ 4 → 0 ≤ signedDifference d j ∧ signedDifference d j < 2 ^ 51) ∧
    -1 ≤ signedDifference d 4 ∧ signedDifference d 4 < 2 ^ 51 ∧
    (signedDifference d 4 < 0 ↔ weighInt d + Config.p < 0) := by
  obtain ⟨hr1, hlo1, hhi1⟩ := signedPass_reduced fun j _ => h j
  have h4 := h 4
  have hlend := borrow_lends (v := signedPass d 4) (by omega)
  have hfold (j : Fin 5) (hj : j ≠ 4) : -2 ^ 51 < signedFold (signedPass d) j ∧ signedFold (signedPass d) j < 2 ^ 51 := by
    have hj' := hr1 j hj
    by_cases h0 : j = 0
    · subst h0
      rw [signedFold_zero]
      omega
    · rw [signedFold_of_ne h0 hj]
      omega
  obtain ⟨hr2, hlo2, hhi2⟩ := signedPass_reduced hfold
  have hfold4 : signedFold (signedPass d) 4 = signedPass d 4 + 2 ^ 51 * borrow (signedPass d 4) := signedFold_four _
  have hneg := weighInt_neg_iff hr1
  have hneg' := weighInt_neg_iff hr2
  have hsign := borrow_cases (signedPass d 4)
  have hvalue := weighInt_signedDifference d
  rw [weighInt_signedPass] at hneg
  rw [← signedDifference] at hr2 hlo2 hhi2 hneg'
  refine ⟨hr2, by omega, by omega, ?_⟩
  have hp : (0 : Int) < Config.p := by norm_num [Config.p]
  rw [← hneg', hvalue]
  obtain ⟨hs, hb⟩ | ⟨hs, hb⟩ := hsign
  · rw [hb, one_mul]
  · rw [hb, zero_mul]
    omega

theorem toNat_lt_of_toInt {v : Limb} (h : 0 ≤ v.toInt ∧ v.toInt < 2 ^ 51) : v.toNat < 2 ^ 51 := by
  have hv := toNat_eq_toInt_add v
  have hs : ¬ 2 ^ 63 ≤ v.toNat := fun hge => not_lt.mpr h.1 ((toInt_neg_iff v).mpr hge)
  rw [signBit] at hv
  omega

/-- Settles O47: limb 4 is -1, all ones, when it is negative. -/
theorem differenceOfReducedLimbs : Obligations.DifferenceOfReducedLimbs := by
  intro out inp hout hinp
  obtain ⟨hints, -⟩ := ints_feDifference (FE.below_mono hout (by norm_num)) hinp (by norm_num)
  have hdiff (j : Fin 5) : -2 ^ 51 < (limbsOf inp j : Int) - limbsOf out j ∧ (limbsOf inp j : Int) - limbsOf out j < 2 ^ 51 := by
    have hi := limbsOf_lt_of_below hinp j
    have ho := limbsOf_lt_of_below hout j
    omega
  obtain ⟨hlow, hlo, hhi, hneg⟩ := signedDifference_reduced hdiff
  rw [weighInt_sub] at hneg
  rw [← hints] at hlow hlo hhi hneg
  generalize feDifference out inp = f at hlow hlo hhi hneg ⊢
  have hlimb (j : Fin 5) (hj : j ≠ 4) : (f.limb j).toNat < 2 ^ 51 := toNat_lt_of_toInt (hlow j hj)
  refine ⟨hlimb 0 (by decide), hlimb 1 (by decide), hlimb 2 (by decide), hlimb 3 (by decide), fun hle => ?_, fun hgt => ?_⟩
  · exact toNat_lt_of_toInt (v := f.l4) ⟨not_lt.mp fun h => by have := hneg.mp h; omega, hhi⟩
  · have hminus : ints f 4 = -1 := by
      have := hneg.mpr (by omega)
      omega
    have hones : (0xFFFFFFFFFFFFFFFF#64).toInt = -1 := by decide
    exact BitVec.eq_of_toInt_eq (hminus.trans hones.symm)

/-! ## Under the carry discipline -/

/-- While no limb has bit 63 set, a Difference of limbs below `n` is a value below `n` limb by limb, right modulo p. -/
theorem feDifference_value {out inp : FE} {n : Nat} (hout : out.below (2 ^ 62)) (hinp : inp.below n)
    (hn : 2 ^ 51 ≤ n ∧ n ≤ 2 ^ 62) (hsign : (feDifference out inp).noSign) :
    (feDifference out inp).below n ∧ ((feDifference out inp).val : Int) ≡ (inp.val : Int) - out.val [ZMOD Config.p] := by
  obtain ⟨-, hwithin⟩ := ints_feDifference hout hinp hn
  have hlimb {v : Limb} (hv : v.toNat < 2 ^ 63) (hi : v.toInt < n) : v.toNat < n := by
    have := toNat_eq_toInt_add v
    rw [signBit] at this
    omega
  have hvalue := feDifference_sval hout (FE.below_mono hinp hn.2)
  generalize feDifference out inp = f at hsign hwithin hvalue ⊢
  obtain ⟨s0, s1, s2, s3, s4⟩ := hsign
  exact ⟨⟨hlimb s0 (hwithin 0).2, hlimb s1 (hwithin 1).2, hlimb s2 (hwithin 2).2, hlimb s3 (hwithin 3).2,
    hlimb s4 (hwithin 4).2⟩, ((val_modEq_sval_iff _).mpr ⟨s0, s1, s2, s3, s4⟩).trans hvalue⟩

end Sys2Proof.Machine
end

section
/-! SUPPORT and PROOFS. Encode as arithmetic (41_codec.md section 2): the value of its accumulators pass by pass, the bytes it
packs, and the round trips of the codec. -/

namespace Sys2Proof.Machine

open Sys2Proof.Claims

/-! ## A buffer by its number (00_scope.md R5) -/

theorem byteAt_toNat (s : Bytes32) {o : Nat} (ho : o < 32) : (byteAt s o).toNat = le s / 2 ^ (8 * o) % 256 := by
  have hbyte : (byteAt s o).toNat < 256 := (byteAt s o).isLt
  rw [le_div_eq_byte_add s ho]
  omega

/-- A number below `2^256` is the number of the buffer that holds its digits. -/
theorem le_eq_of_bytes {s : Bytes32} {n : Nat} (hn : n < 2 ^ 256) (h : ∀ o < 32, (byteAt s o).toNat = n / 2 ^ (8 * o) % 256) :
    le s = n := by
  have hfrom (k : Nat) (hk : k ≤ 32) : le s / 2 ^ (8 * (32 - k)) = n / 2 ^ (8 * (32 - k)) := by
    induction k with
    | zero => rw [Nat.div_eq_of_lt (le_lt_two_pow s), Nat.div_eq_of_lt hn]
    | succ k ih =>
      have hnext : 32 - (k + 1) + 1 = 32 - k := by omega
      have hdigit := h (32 - (k + 1)) (by omega)
      have hdrop : n / 2 ^ (8 * (32 - (k + 1))) / 256 = n / 2 ^ (8 * (32 - k)) := by
        rw [← hnext, two_pow_eight_mul_succ, Nat.div_div_eq_div_mul, Nat.mul_comm]
      rw [le_div_eq_byte_add s (by omega), hnext, ih (by omega), hdigit]
      omega
  simpa using hfrom 32 le_rfl

theorem le_injective {s s' : Bytes32} (h : le s = le s') : s = s' := by
  refine Bytes32_ext_byteAt fun j => ?_
  by_cases hj : j < 32
  · exact BitVec.eq_of_toNat_eq (by rw [byteAt_toNat s hj, byteAt_toNat s' hj, h])
  · rw [byteAt, byteAt, dif_neg hj, dif_neg hj]

/-! ## The passes of R132 -/

section Passes

variable {t : Acc5} {u : Fin 5 → Nat}

/-- Below `2^66` the passes cut nothing. -/
theorem chain_lt_of_small (h : ∀ j, accsOf t j < 2 ^ 66) (j : Fin 5) : chain (accsOf t) j < 2 ^ 67 :=
  chain_lt (fun j => by have := h j; omega) j

/-- The pass from limb 0 to limb 4 is the carry chain, limb 4 not masked. -/
theorem carryUp_toNat (h : ∀ j, accsOf t j < 2 ^ 66) :
    (carryUp t).t0.toNat = chainRest (accsOf t) 0 ∧ (carryUp t).t1.toNat = chainRest (accsOf t) 1 ∧
    (carryUp t).t2.toNat = chainRest (accsOf t) 2 ∧ (carryUp t).t3.toNat = chainRest (accsOf t) 3 ∧
    (carryUp t).t4.toNat = chain (accsOf t) 4 := by
  have hsum (j : Fin 5) : chain (accsOf t) j % 2 ^ 128 = chain (accsOf t) j :=
    Nat.mod_eq_of_lt ((chain_lt_of_small h j).trans (by norm_num))
  have h1 : (t.t1 + t.t0 >>> 51).toNat = chain (accsOf t) 1 := by
    rw [BitVec.toNat_add, BitVec.toNat_ushiftRight, Nat.shiftRight_eq_div_pow]
    exact hsum 1
  have h2 : (t.t2 + (t.t1 + t.t0 >>> 51) >>> 51).toNat = chain (accsOf t) 2 := by
    rw [BitVec.toNat_add, BitVec.toNat_ushiftRight, Nat.shiftRight_eq_div_pow, h1]
    exact hsum 2
  have h3 : (t.t3 + (t.t2 + (t.t1 + t.t0 >>> 51) >>> 51) >>> 51).toNat = chain (accsOf t) 3 := by
    rw [BitVec.toNat_add, BitVec.toNat_ushiftRight, Nat.shiftRight_eq_div_pow, h2]
    exact hsum 3
  have h4 : (t.t4 + (t.t3 + (t.t2 + (t.t1 + t.t0 >>> 51) >>> 51) >>> 51) >>> 51).toNat = chain (accsOf t) 4 := by
    rw [BitVec.toNat_add, BitVec.toNat_ushiftRight, Nat.shiftRight_eq_div_pow, h3]
    exact hsum 4
  have h0 : t.t0.toNat = chain (accsOf t) 0 := rfl
  simp only [carryUp, and_mask51Acc_toNat, h0, h1, h2, h3, h4, chainRest, and_self]

/-- The carry out of limb 4 is what the value has above bit 255. -/
theorem chain_four_div (u : Fin 5 → Nat) :
    chain u 4 / 2 ^ 51 = weigh u / 2 ^ 255 ∧ weigh (chainRest u) = weigh u % 2 ^ 255 := by
  have hweigh := weigh_chainRest u
  have hr := chainRest_lt u
  have h0 := hr 0
  have h1 := hr 1
  have h2 := hr 2
  have h3 := hr 3
  have h4 := hr 4
  have hlt : weigh (chainRest u) < 2 ^ 255 := by
    rw [weigh]
    omega
  omega

/-- A full pass: the carry chain, folded by 19. -/
theorem accsOf_fullCarry (h : ∀ j, accsOf t j < 2 ^ 66) :
    accsOf (fullCarry t) = ![chainRest (accsOf t) 0 + 19 * (chain (accsOf t) 4 / 2 ^ 51), chainRest (accsOf t) 1,
      chainRest (accsOf t) 2, chainRest (accsOf t) 3, chainRest (accsOf t) 4] := by
  obtain ⟨h0, h1, h2, h3, h4⟩ := carryUp_toNat h
  have hr0 := chainRest_lt (accsOf t) 0
  have htop := chain_lt_of_small h 4
  have hfold : ((carryUp t).t0 + 19 * ((carryUp t).t4 >>> 51)).toNat =
      chainRest (accsOf t) 0 + 19 * (chain (accsOf t) 4 / 2 ^ 51) := by
    have h19 : ((19 : Nat) : Acc).toNat = 19 := rfl
    rw [BitVec.toNat_add, BitVec.toNat_mul, BitVec.toNat_ushiftRight, Nat.shiftRight_eq_div_pow, h0, h4, h19]
    omega
  simp only [fullCarry]
  rw [accsOf]
  simp only [and_mask51Acc_toNat, hfold, h1, h2, h3, h4, chainRest]

/-- A full pass brings back what stands above bit 255, times 19. -/
theorem weigh_fullCarry (h : ∀ j, accsOf t j < 2 ^ 66) :
    weigh (accsOf (fullCarry t)) = weigh (accsOf t) % 2 ^ 255 + 19 * (weigh (accsOf t) / 2 ^ 255) := by
  obtain ⟨hcarry, hrest⟩ := chain_four_div (accsOf t)
  rw [accsOf_fullCarry h, ← hcarry, ← hrest]
  simp only [weigh, Matrix.cons_val]
  omega

theorem accsOf_fullCarry_lt (h : ∀ j, accsOf t j < 2 ^ 66) (j : Fin 5) : accsOf (fullCarry t) j < 2 ^ 52 := by
  have hr := chainRest_lt (accsOf t)
  have hlt (j : Fin 5) : chainRest (accsOf t) j < 2 ^ 52 := (hr j).trans (by norm_num)
  have htop := chain_lt_of_small h 4
  rw [accsOf_fullCarry h]
  match j with
  | 0 =>
    have hr0 := hr 0
    simp only [Matrix.cons_val]
    omega
  | 1 => exact hlt 1
  | 2 => exact hlt 2
  | 3 => exact hlt 3
  | 4 => exact hlt 4

/-- A sum of accumulators without a carry out of any of them. -/
theorem acc_add_toNat {u v : Acc} (hu : u.toNat < 2 ^ 66) (hv : v.toNat < 2 ^ 66) : (u + v).toNat = u.toNat + v.toNat := by
  rw [BitVec.toNat_add]
  omega

/-- The third pass of R132 is made with 19 more in limb 0. -/
theorem accsOf_add19 (h : ∀ j, accsOf t j < 2 ^ 52) :
    accsOf { t with t0 := t.t0 + 19 } = ![accsOf t 0 + 19, accsOf t 1, accsOf t 2, accsOf t 3, accsOf t 4] := by
  have hsum : (t.t0 + 19).toNat = t.t0.toNat + 19 := acc_add_toNat ((h 0).trans (by norm_num)) (by decide)
  rw [accsOf]
  simp only [hsum]
  rfl

/-- The offset of R132 is p, limb by limb. -/
theorem accsOf_addOffset (h : ∀ j, accsOf t j < 2 ^ 52) :
    accsOf (addOffset t) = ![accsOf t 0 + (2 ^ 51 - 19), accsOf t 1 + (2 ^ 51 - 1), accsOf t 2 + (2 ^ 51 - 1),
      accsOf t 3 + (2 ^ 51 - 1), accsOf t 4 + (2 ^ 51 - 1)] := by
  have hlt (j : Fin 5) : accsOf t j < 2 ^ 66 := (h j).trans (by norm_num)
  have hmask : mask51Acc.toNat < 2 ^ 66 := by decide
  simp only [addOffset]
  rw [accsOf]
  simp only [acc_add_toNat (hlt 0) (by decide : (0x7FFFFFFFFFFED#128).toNat < 2 ^ 66), acc_add_toNat (hlt 1) hmask,
    acc_add_toNat (hlt 2) hmask, acc_add_toNat (hlt 3) hmask, acc_add_toNat (hlt 4) hmask]
  rfl

/-- The last pass with its mask: the carry chain, what comes out of limb 4 dropped. -/
theorem accsOf_lastPass (h : ∀ j, accsOf t j < 2 ^ 66) :
    accsOf { carryUp t with t4 := (carryUp t).t4 &&& mask51Acc } = chainRest (accsOf t) := by
  obtain ⟨h0, h1, h2, h3, h4⟩ := carryUp_toNat h
  rw [accsOf]
  simp only [and_mask51Acc_toNat, h0, h1, h2, h3, h4]
  funext j
  fin_cases j <;> rfl

end Passes

/-! ## The value modulo p, pass by pass -/

/-- What a full pass makes of the value. -/
def foldTop (v : Nat) : Nat := v % 2 ^ 255 + 19 * (v / 2 ^ 255)

theorem foldTop_modEq (v : Nat) : foldTop v ≡ v [MOD Config.p] := by
  refine modEq_of_add_mul (c := v / 2 ^ 255) ?_
  rw [foldTop, Config.p]
  omega

/-- Two full passes leave less than `2^255` of any register content. -/
theorem foldTop_foldTop_lt {v : Nat} (h : v < 2 ^ 269) : foldTop (foldTop v) < 2 ^ 255 := by
  have hfirst : foldTop v < 2 ^ 255 + 2 ^ 19 := by rw [foldTop]; omega
  rw [foldTop]
  omega

/-- The third pass, with 19 more, wraps exactly when the value is at least p; the offset then brings bit 255 to a value that
is canonical below it. -/
theorem foldTop_offset {v : Nat} (h : v < 2 ^ 255) : (foldTop (v + 19) + Config.p) % 2 ^ 255 = v % Config.p := by
  rw [foldTop, Config.p]
  by_cases hlt : v + 19 < 2 ^ 255
  · rw [Nat.mod_eq_of_lt hlt, Nat.div_eq_of_lt hlt, Nat.mod_eq_of_lt (by omega : v < 2 ^ 255 - 19)]
    omega
  · have hone : (v + 19) / 2 ^ 255 = 1 := by omega
    rw [hone, Nat.mod_eq_sub_mod (by omega : v ≥ 2 ^ 255 - 19), Nat.mod_eq_of_lt (by omega : v - (2 ^ 255 - 19) < 2 ^ 255 - 19)]
    omega

theorem weigh_limbsOf_lt (f : FE) : weigh (limbsOf f) < 2 ^ 269 := by
  have h := limbsOf_lt f
  have h0 := h 0
  have h1 := h 1
  have h2 := h 2
  have h3 := h 3
  have h4 := h 4
  rw [weigh]
  omega

/-- The limbs of `f` as the accumulators that Encode starts with. -/
def widen (f : FE) : Acc5 := ⟨wide f.l0, wide f.l1, wide f.l2, wide f.l3, wide f.l4⟩

theorem accsOf_widen (f : FE) : accsOf (widen f) = limbsOf f := by
  simp only [accsOf, widen, wide_toNat, limbsOf_eq]

/-- The accumulators after two full passes, where less than `2^255` is left. -/
def twiceFolded (f : FE) : Acc5 := fullCarry (fullCarry (widen f))

theorem twiceFolded_value (f : FE) :
    (∀ j, accsOf (twiceFolded f) j < 2 ^ 52) ∧ weigh (accsOf (twiceFolded f)) < 2 ^ 255 ∧
    weigh (accsOf (twiceFolded f)) % Config.p = f.val % Config.p := by
  have h0 (j : Fin 5) : accsOf (widen f) j < 2 ^ 66 := by
    rw [accsOf_widen]
    exact (limbsOf_lt f j).trans (by norm_num)
  have h1 (j : Fin 5) : accsOf (fullCarry (widen f)) j < 2 ^ 66 := (accsOf_fullCarry_lt h0 j).trans (by norm_num)
  have hvalue : weigh (accsOf (twiceFolded f)) = foldTop (foldTop f.val) := by
    rw [twiceFolded, weigh_fullCarry h1, weigh_fullCarry h0, accsOf_widen, weigh_limbsOf, foldTop, foldTop]
  rw [hvalue]
  exact ⟨accsOf_fullCarry_lt h1, foldTop_foldTop_lt (weigh_limbsOf_lt f), (foldTop_modEq _).trans (foldTop_modEq _)⟩

/-- The third pass, the offset, and the last pass, from what two full passes leave. -/
theorem lastPasses_value {t : Acc5} (h : ∀ j, accsOf t j < 2 ^ 52) (hv : weigh (accsOf t) < 2 ^ 255) {e : Acc5}
    (he : e = addOffset (fullCarry { t with t0 := t.t0 + 19 })) :
    (∀ j, accsOf e j < 2 ^ 66) ∧ weigh (accsOf e) % 2 ^ 255 = weigh (accsOf t) % Config.p := by
  have hadd := accsOf_add19 h
  have hsmall (j : Fin 5) : accsOf { t with t0 := t.t0 + 19 } j < 2 ^ 66 := by
    have hj (j : Fin 5) : accsOf t j < 2 ^ 66 := (h j).trans (by norm_num)
    rw [hadd]
    match j with
    | 0 => exact (Nat.add_lt_add_right (h 0) 19).trans (by norm_num)
    | 1 => exact hj 1
    | 2 => exact hj 2
    | 3 => exact hj 3
    | 4 => exact hj 4
  have hfull := accsOf_fullCarry_lt hsmall
  have hoffset := accsOf_addOffset hfull
  have hvalue : weigh (accsOf e) = foldTop (weigh (accsOf t) + 19) + Config.p := by
    have hsum : weigh (accsOf { t with t0 := t.t0 + 19 }) = weigh (accsOf t) + 19 := by
      rw [hadd]
      simp only [weigh, Matrix.cons_val]
      omega
    have hpass : weigh (accsOf e) = weigh (accsOf (fullCarry { t with t0 := t.t0 + 19 })) + Config.p := by
      rw [he, hoffset]
      simp only [weigh, Matrix.cons_val, Config.p]
      omega
    rw [hpass, weigh_fullCarry hsmall, hsum, foldTop]
  refine ⟨fun j => ?_, by rw [hvalue, foldTop_offset hv]⟩
  have hj (j : Fin 5) (c : Nat) (hc : c < 2 ^ 51) : accsOf (fullCarry { t with t0 := t.t0 + 19 }) j + c < 2 ^ 66 := by
    have := hfull j
    omega
  rw [he, hoffset]
  match j with
  | 0 => exact hj 0 _ (by norm_num)
  | 1 => exact hj 1 _ (by norm_num)
  | 2 => exact hj 2 _ (by norm_num)
  | 3 => exact hj 3 _ (by norm_num)
  | 4 => exact hj 4 _ (by norm_num)

/-- The canonical limbs are reduced, and stand for the value modulo p. -/
theorem accsOf_canonicalLimbs (f : FE) :
    (∀ j, accsOf (canonicalLimbs f) j < 2 ^ 51) ∧ weigh (accsOf (canonicalLimbs f)) = f.val % Config.p := by
  obtain ⟨hsmall, hlt, hmod⟩ := twiceFolded_value f
  obtain ⟨e, he⟩ : ∃ e, e = addOffset (fullCarry { twiceFolded f with t0 := (twiceFolded f).t0 + 19 }) := ⟨_, rfl⟩
  obtain ⟨hsmall', hvalue⟩ := lastPasses_value hsmall hlt he
  have hlimbs : canonicalLimbs f = { carryUp e with t4 := (carryUp e).t4 &&& mask51Acc } := by
    rw [he]
    rfl
  rw [hlimbs, accsOf_lastPass hsmall', (chain_four_div (accsOf e)).2, hvalue, hmod]
  exact ⟨chainRest_lt _, rfl⟩

/-! ## The packing (R132) -/

/-- Two accumulators packed side by side. -/
theorem packed_toNat {u v : Acc} {m m' : Nat} (hu : u.toNat < 2 ^ 51) (hv : v.toNat < 2 ^ 51) (hm : m + m' = 51) :
    ((u >>> m) ||| (v <<< m')).toNat = u.toNat / 2 ^ m + v.toNat * 2 ^ m' := by
  have hlow : u.toNat / 2 ^ m < 2 ^ m' := by
    rw [Nat.div_lt_iff_lt_mul (Nat.two_pow_pos m), ← Nat.pow_add, Nat.add_comm m', hm]
    exact hu
  have hhigh : v.toNat <<< m' < 2 ^ 128 := by
    rw [Nat.shiftLeft_eq]
    calc v.toNat * 2 ^ m' < 2 ^ 51 * 2 ^ m' := Nat.mul_lt_mul_of_pos_right hv (Nat.two_pow_pos m')
      _ ≤ 2 ^ 51 * 2 ^ 51 := Nat.mul_le_mul_left _ (Nat.pow_le_pow_right (by decide) (by omega))
      _ < 2 ^ 128 := by norm_num
  rw [BitVec.toNat_or, BitVec.toNat_ushiftRight, BitVec.toNat_shiftLeft, Nat.shiftRight_eq_div_pow, Nat.mod_eq_of_lt hhigh,
    Nat.or_comm, ← Nat.shiftLeft_add_eq_or_of_lt hlow, Nat.shiftLeft_eq, Nat.add_comm]

section Pack

variable {t : Acc5} (h : ∀ j, accsOf t j < 2 ^ 51)
include h

/-- The four words are the digits of the value to base `2^64`. -/
theorem packWord_toNat {k : Nat} (hk : k < 4) : (packWord t k).toNat = weigh (accsOf t) / 2 ^ (64 * k) % 2 ^ 64 := by
  have h0 : t.t0.toNat < 2 ^ 51 := h 0
  have h1 : t.t1.toNat < 2 ^ 51 := h 1
  have h2 : t.t2.toNat < 2 ^ 51 := h 2
  have h3 : t.t3.toNat < 2 ^ 51 := h 3
  have h4 : t.t4.toNat < 2 ^ 51 := h 4
  have hvalue : weigh (accsOf t) =
      t.t0.toNat + t.t1.toNat * 2 ^ 51 + t.t2.toNat * 2 ^ 102 + t.t3.toNat * 2 ^ 153 + t.t4.toNat * 2 ^ 204 := rfl
  rw [hvalue]
  match k with
  | 0 =>
    have hpack := packed_toNat (m := 0) (m' := 51) h0 h1 rfl
    rw [BitVec.ushiftRight_zero] at hpack
    rw [packWord, if_pos rfl, lo64_toNat, hpack]
    omega
  | 1 =>
    rw [packWord, if_neg (by decide), if_pos rfl, lo64_toNat, packed_toNat (m := 13) (m' := 38) h1 h2 rfl]
    omega
  | 2 =>
    rw [packWord, if_neg (by decide), if_neg (by decide), if_pos rfl, lo64_toNat,
      packed_toNat (m := 26) (m' := 25) h2 h3 rfl]
    omega
  | 3 =>
    rw [packWord, if_neg (by decide), if_neg (by decide), if_neg (by decide), lo64_toNat,
      packed_toNat (m := 39) (m' := 12) h3 h4 rfl]
    omega

/-- Byte `o` of the packed words is digit `o` of the value to base 256. -/
theorem byteAt_packBytes_toNat {o : Nat} (ho : o < 32) :
    (byteAt (packBytes t) o).toNat = weigh (accsOf t) / 2 ^ (8 * o) % 256 := by
  have hbyte : byteAt (packBytes t) o = (packWord t (o / 8) >>> (8 * (o % 8))).setWidth 8 := by
    rw [byteAt, dif_pos ho, packBytes, Vector.getElem_ofFn]
  rw [hbyte, BitVec.toNat_setWidth, BitVec.toNat_ushiftRight, packWord_toNat h (by omega), show 256 = 2 ^ 8 from rfl]
  refine Nat.eq_of_testBit_eq fun i => ?_
  rw [Nat.testBit_mod_two_pow, Nat.testBit_mod_two_pow, Nat.testBit_shiftRight, Nat.testBit_mod_two_pow,
    Nat.testBit_div_two_pow, Nat.testBit_div_two_pow]
  by_cases hi : i < 8
  · have hword : 8 * (o % 8) + i < 64 := by omega
    have hindex : 8 * (o % 8) + i + 64 * (o / 8) = i + 8 * o := by omega
    rw [decide_eq_true hword, Bool.true_and, hindex]
  · rw [decide_eq_false hi, Bool.false_and, Bool.false_and]

/-- Reduced limbs are packed into the bytes of their value. -/
theorem le_packBytes : le (packBytes t) = weigh (accsOf t) := by
  refine le_eq_of_bytes ?_ fun o ho => byteAt_packBytes_toNat h ho
  have h0 := h 0
  have h1 := h 1
  have h2 := h 2
  have h3 := h 3
  have h4 := h 4
  rw [weigh]
  omega

end Pack

theorem le_encodeFE (f : FE) : le (encodeFE f) = f.val % Config.p := by
  obtain ⟨hlt, hvalue⟩ := accsOf_canonicalLimbs f
  rw [encodeFE, le_packBytes hlt, hvalue]

/-- Settles O50: the passes leave the limbs of the canonical value, and the packing leaves its bytes. -/
theorem encodeIsCanonical : Obligations.EncodeIsCanonical := le_encodeFE

/-! ## The round trips -/

/-- Limbs below `2^51` are the groups of their value (R130). -/
theorem limb_eq_val_div {f : FE} (h : f.below (2 ^ 51)) (j : Fin 5) : (f.limb j).toNat = f.val / 2 ^ (51 * j.val) % 2 ^ 51 := by
  obtain ⟨h0, h1, h2, h3, h4⟩ := h
  rw [FE.val]
  match j with
  | 0 => change f.l0.toNat = _ / 2 ^ 0 % _; omega
  | 1 => change f.l1.toNat = _ / 2 ^ 51 % _; omega
  | 2 => change f.l2.toNat = _ / 2 ^ 102 % _; omega
  | 3 => change f.l3.toNat = _ / 2 ^ 153 % _; omega
  | 4 => change f.l4.toNat = _ / 2 ^ 204 % _; omega

theorem decodeBytes_encodeFE {f : FE} (h : f.below (2 ^ 51)) (hval : f.val < Config.p) : decodeBytes (encodeFE f) = f := by
  refine FE_ext_limb fun j => BitVec.eq_of_toNat_eq ?_
  rw [decodeBytes_limb_toNat, le_encodeFE, Nat.mod_eq_of_lt hval, limb_eq_val_div h]

theorem le_encodeFE_decodeBytes (s : Bytes32) : le (encodeFE (decodeBytes s)) = le s % 2 ^ 255 % Config.p := by
  rw [le_encodeFE, decodeBytes_val]

/-- Settles O51: limbs and bytes are digits of the same number, and a buffer is determined by its number. -/
theorem codecRoundTrips : Obligations.CodecRoundTrips := by
  refine ⟨fun f => decodeBytes_encodeFE, fun s => ⟨⟨fun h => ?_, fun h => ?_⟩, le_encodeFE_decodeBytes s⟩⟩
  · rw [← h, le_encodeFE]
    exact Nat.mod_lt _ (by norm_num [Config.p])
  · refine le_injective ?_
    have hlt : le s < 2 ^ 255 := h.trans (by norm_num [Config.p])
    rw [le_encodeFE_decodeBytes, Nat.mod_eq_of_lt hlt, Nat.mod_eq_of_lt h]

end Sys2Proof.Machine
end

section
/-! SUPPORT and PROOFS. The ladder step as arithmetic (43_ladder.md section 1), and ScalarMult of any inputs (45_toplevel.md
section 2): canonical outputs, clamped secrets, bit 255 of the point, and the zero point. -/

namespace Sys2Proof.Machine

open Sys2Proof.Claims

/-! ## Values modulo p, as elements of the field -/

/-- The value of a register modulo p. -/
def residue (f : FE) : ZMod Config.p := (f.val : ZMod Config.p)

section Residue

variable {f g : FE}

/-- The sum of tight operands has no carry to lose. -/
theorem residue_feAdd (hf : f.tight) (hg : g.tight) :
    (feAdd f g).loose ∧ residue (feAdd f g) = residue f + residue g := by
  have hlimb {u v : Limb} (hu : u.toNat < 2 ^ 51 + 1) (hv : v.toNat < 2 ^ 51 + 1) :
      (u + v).toNat < 2 ^ 54 ∧ (u + v).toNat = u.toNat + v.toNat := by
    rw [BitVec.toNat_add]
    omega
  obtain ⟨f0, f1, f2, f3, f4⟩ := FE.below_of_tight hf
  obtain ⟨g0, g1, g2, g3, g4⟩ := FE.below_of_tight hg
  obtain ⟨l0, e0⟩ := hlimb f0 g0
  obtain ⟨l1, e1⟩ := hlimb f1 g1
  obtain ⟨l2, e2⟩ := hlimb f2 g2
  obtain ⟨l3, e3⟩ := hlimb f3 g3
  obtain ⟨l4, e4⟩ := hlimb f4 g4
  refine ⟨⟨l0, l1, l2, l3, l4⟩, ?_⟩
  have hval : (feAdd f g).val = f.val + g.val := by
    simp only [FE.val, feAdd, e0, e1, e2, e3, e4]
    ring
  rw [residue, hval, Nat.cast_add, residue, residue]

theorem residue_feMultiply (hf : f.loose) (hg : g.loose) :
    (feMultiply f g).tight ∧ residue (feMultiply f g) = residue f * residue g := by
  obtain ⟨htight, hvalue⟩ := feMultiply_value hf hg
  refine ⟨htight, ?_⟩
  rw [residue, (ZMod.natCast_eq_natCast_iff _ _ _).mpr hvalue, Nat.cast_mul, residue, residue]

theorem residue_feSquare (hf : f.loose) : (feSquare f).tight ∧ residue (feSquare f) = residue f ^ 2 := by
  rw [sq]
  exact residue_feMultiply hf hf

/-- A Difference of tight operands without a bit 63 may be multiplied again. -/
theorem residue_feDifference (hf : f.tight) (hg : g.tight) (hsign : (feDifference f g).noSign) :
    (feDifference f g).below (2 ^ 51 + 1) ∧ residue (feDifference f g) = residue g - residue f := by
  obtain ⟨hbelow, hvalue⟩ := feDifference_value (FE.below_mono (FE.below_of_tight hf) (by norm_num)) (FE.below_of_tight hg)
    (by norm_num) hsign
  refine ⟨hbelow, ?_⟩
  have hcast := (ZMod.intCast_eq_intCast_iff _ _ _).mpr hvalue
  push_cast at hcast
  exact hcast

theorem residue_feScalarMultiplyAdd {k : Limb} (hk : k.toNat < 2 ^ 32) (hf : f.loose) (hg : g.tight) :
    (feScalarMultiplyAdd f k g).loose ∧ residue (feScalarMultiplyAdd f k g) = residue f * k.toNat + residue g := by
  obtain ⟨hvalue, h0, hj⟩ := feScalarMultiplyAdd_value hk hf (FE.below_mono (FE.below_of_tight hg) (by norm_num))
  obtain ⟨g0, g1, g2, g3, g4⟩ := FE.below_of_tight hg
  have hlimb (j : Fin 5) (hne : j ≠ 0) (hgj : (g.limb j).toNat < 2 ^ 51 + 1) :
      ((feScalarMultiplyAdd f k g).limb j).toNat < 2 ^ 54 := by
    have := hj j hne
    omega
  refine ⟨⟨by omega, hlimb 1 (by decide) g1, hlimb 2 (by decide) g2, hlimb 3 (by decide) g3, hlimb 4 (by decide) g4⟩, ?_⟩
  rw [residue, (ZMod.natCast_eq_natCast_iff _ _ _).mpr hvalue, Nat.cast_add, Nat.cast_mul, residue, residue]

end Residue

/-! ## The ladder step (R150) -/

/-- The sum `xp`, `zp` comes from the two cross products. -/
theorem ladderStep_xp (p : Pairs) (q : FE) :
    (ladderStep p q).xp = feSquare (feAdd (stepXxprime p) (stepZzprime p)) := rfl

theorem ladderStep_zp (p : Pairs) (q : FE) :
    (ladderStep p q).zp = feMultiply (feSquare (feDifference (stepZzprime p) (stepXxprime p))) q := rfl

/-- A congruence modulo p between a value and an integer, as an equation between residues. -/
theorem val_modEq_of_residue {f : FE} {v : Int} (h : residue f = (v : ZMod Config.p)) : (f.val : Int) ≡ v [ZMOD Config.p] := by
  refine (ZMod.intCast_eq_intCast_iff _ _ _).mp ?_
  rw [Int.cast_natCast]
  exact h

/-- Settles O52: the residues line by line, each operand within the bounds of the operation that takes it. -/
theorem ladderStepAlgebra : Obligations.LadderStepAlgebra := by
  intro p q hx hz hxp hzp hq hsign
  simp only [stepDifferences, List.forall_mem_cons, List.not_mem_nil, false_imp_iff, implies_true, and_true] at hsign
  obtain ⟨hd1, hd2, hd3, hd4⟩ := hsign
  have loose {f : FE} (h : f.below (2 ^ 51 + 1)) : f.loose := FE.below_mono h (by norm_num)
  obtain ⟨lsum, sum⟩ := residue_feAdd hx hz
  obtain ⟨lsum', sum'⟩ := residue_feAdd hxp hzp
  obtain ⟨ldiff, diff⟩ := residue_feDifference hz hx hd1
  obtain ⟨ldiff', diff'⟩ := residue_feDifference hzp hxp hd2
  obtain ⟨tA, rA⟩ := residue_feMultiply lsum' (loose ldiff)
  obtain ⟨tB, rB⟩ := residue_feMultiply lsum (loose ldiff')
  obtain ⟨lAB, rAB⟩ := residue_feAdd tA tB
  obtain ⟨lBA, rBA⟩ := residue_feDifference tB tA hd3
  obtain ⟨txx, rxx⟩ := residue_feSquare lsum
  obtain ⟨tzz, rzz⟩ := residue_feSquare (loose ldiff)
  obtain ⟨lE, rE⟩ := residue_feDifference tzz txx hd4
  obtain ⟨lzzz, rzzz⟩ := residue_feScalarMultiplyAdd (k := a24) (by decide) (loose lE) txx
  obtain ⟨tx2, rx2⟩ := residue_feMultiply (FE.loose_of_tight txx) (FE.loose_of_tight tzz)
  obtain ⟨tz2, rz2⟩ := residue_feMultiply (loose lE) lzzz
  obtain ⟨tx3, rx3⟩ := residue_feSquare lAB
  obtain ⟨tzzz, rzzz'⟩ := residue_feSquare (loose lBA)
  obtain ⟨tz3, rz3⟩ := residue_feMultiply (FE.loose_of_tight tzzz) (FE.loose_of_tight hq)
  have ha24 : a24.toNat = 121665 := rfl
  simp only [ladderStep_x, ladderStep_z, ladderStep_xp, ladderStep_zp]
  refine ⟨tx2, tz2, tx3, tz3, val_modEq_of_residue (rx2.trans ?_), val_modEq_of_residue (rz2.trans ?_),
    val_modEq_of_residue (rx3.trans ?_), val_modEq_of_residue (rz3.trans ?_)⟩
  · simp only [rxx, rzz, sum, diff]
    push_cast
    rfl
  · simp only [rzzz, rE, rxx, rzz, sum, diff, ha24]
    push_cast
    simp only [residue]
    ring
  · simp only [rAB, rA, rB, sum, diff, sum', diff']
    push_cast
    rfl
  · simp only [rzzz', rBA, rA, rB, sum, diff, sum', diff']
    push_cast
    simp only [residue]
    ring

/-! ## ScalarMult of any inputs (45_toplevel.md section 2) -/

/-- A point is read from its lower 255 bits. -/
theorem decodeBytes_congr {s s' : Bytes32} (h : le s % 2 ^ 255 = le s' % 2 ^ 255) : decodeBytes s = decodeBytes s' := by
  refine FE_ext_limb fun j => BitVec.eq_of_toNat_eq ?_
  rw [limb_eq_val_div (decodeBytes_below s), limb_eq_val_div (decodeBytes_below s'), decodeBytes_val, decodeBytes_val, h]

/-- Settles O54. -/
theorem scalarMultOfAnyInputs : Obligations.ScalarMultOfAnyInputs := by
  intro secret point
  refine ⟨?_, ?_, fun point' h => ?_⟩
  · rw [scalarMult_eq, le_encodeFE]
    exact Nat.mod_lt _ (by norm_num [Config.p])
  · rw [scalarMult_eq, scalarMult_eq, clampBytes_clampBytes]
  · rw [scalarMult_eq, scalarMult_eq, decodeBytes_congr h]

/-! ## The zero point -/

/-- The limbs of p + 1. -/
def limbsOfPSucc : FE := feAdd limbsOfP FE.one

/-- The pairs the ladder of the zero point moves among: of each, x or z is zero, limb for limb. -/
def zeroPointPairs : List Pairs :=
  [⟨FE.one, FE.zero, FE.zero, FE.one⟩, ⟨FE.zero, FE.one, FE.one, FE.zero⟩,
   ⟨FE.one, FE.zero, limbsOfP, FE.zero⟩, ⟨limbsOfP, FE.zero, FE.one, FE.zero⟩,
   ⟨limbsOfP, FE.zero, limbsOfP, FE.zero⟩,
   ⟨limbsOfPSucc, FE.zero, limbsOfP, FE.zero⟩, ⟨limbsOfP, FE.zero, limbsOfPSucc, FE.zero⟩]

theorem ladderStep_mem_zeroPointPairs : ∀ p ∈ zeroPointPairs, ladderStep p FE.zero ∈ zeroPointPairs := by
  decide

theorem swapPairs_one (p : Pairs) : swapPairs p 1 = ⟨p.xp, p.zp, p.x, p.z⟩ := by
  simp only [swapPairs, feSwap_one]

theorem swapPairs_mem_zeroPointPairs {p : Pairs} (h : p ∈ zeroPointPairs) {flag : Limb} (hf : flag = 0 ∨ flag = 1) :
    swapPairs p flag ∈ zeroPointPairs := by
  have hexchanged : ∀ p ∈ zeroPointPairs, (⟨p.xp, p.zp, p.x, p.z⟩ : Pairs) ∈ zeroPointPairs := by decide
  obtain rfl | rfl := hf
  · rwa [swapPairs_zero]
  · rw [swapPairs_one]
    exact hexchanged p h

theorem scalarBit_eq_zero_or_one (n : Bytes32) (i : Nat) : scalarBit n i = 0 ∨ scalarBit n i = 1 := by
  have hbit := setWidth_scalarBit n i
  have hone (b : BitVec 1) : b = 0 ∨ b = 1 := by revert b; decide
  obtain h | h := hone ((scalarBit n i).setWidth 1) <;> rw [h] at hbit
  · exact .inl hbit.symm
  · exact .inr hbit.symm

/-- What the ladder of the zero point carries. -/
def LoopState.OnZeroPoint (l : LoopState) : Prop := l.pairs ∈ zeroPointPairs ∧ (l.lastbit = 0 ∨ l.lastbit = 1)

theorem ladderIteration_onZeroPoint (n : Bytes32) (i : Nat) (l : LoopState) (h : l.OnZeroPoint) :
    (ladderIteration n FE.zero i l).OnZeroPoint := by
  obtain ⟨hpairs, hlast⟩ := h
  have hbit := scalarBit_eq_zero_or_one n i
  have hflag : scalarBit n i ^^^ l.lastbit = 0 ∨ scalarBit n i ^^^ l.lastbit = 1 := by
    obtain h | h := hbit <;> obtain h' | h' := hlast <;> rw [h, h'] <;> decide
  exact ⟨ladderStep_mem_zeroPointPairs _ (swapPairs_mem_zeroPointPairs hpairs hflag), hbit⟩

/-- The ladder of the zero point ends with x or z zero, whatever the scalar. -/
theorem ladder_zero (n : Bytes32) : (ladder n FE.zero).1 = FE.zero ∨ (ladder n FE.zero).2 = FE.zero := by
  have hstart : (ladderStart FE.zero).OnZeroPoint := ⟨by decide, .inl rfl⟩
  obtain ⟨hpairs, hlast⟩ := ladderLoop_keeps (ladderIteration_onZeroPoint n) 256 hstart
  have hzero : ∀ p ∈ zeroPointPairs, p.x = FE.zero ∨ p.z = FE.zero := by decide
  exact hzero _ (swapPairs_mem_zeroPointPairs hpairs hlast)

theorem decodeBytes_zeroBytes : decodeBytes zeroBytes = FE.zero := by decide

/-- A zero factor, or the inverse of zero, makes the product of R182 zero. -/
theorem scalarMult_zeroBytes (secret : Bytes32) : scalarMult secret zeroBytes = zeroBytes := by
  have hproduct : feMultiply (ladder (clampBytes secret) FE.zero).1 (invert (ladder (clampBytes secret) FE.zero).2) = FE.zero := by
    obtain hx | hz := ladder_zero (clampBytes secret)
    · rw [hx, feMultiply_comm, feMultiply_zero]
    · rw [hz, invert_of_feSquare_eq_self feSquare_zero, feMultiply_zero]
  rw [scalarMult_eq, decodeBytes_zeroBytes, hproduct]
  exact encodeFE_zeros (.inl rfl)

/-- Settles O55: with x or z zero the product is zero, and so are its bytes. -/
theorem zeroPointGivesZero : Obligations.ZeroPointGivesZero := by
  intro a b c s l h hc
  refine ⟨_, exec_busy h _, ?_⟩
  rw [writes, Data.getB_setB_self, hc, scalarMult_zeroBytes]

end Sys2Proof.Machine
end
